-- ==== Sys2Proof/Word.lean ====
section
/-! DEFINITION. The word types of the block: the 32-bit bus word, the byte, and byte sequences in wire order (rules R1, R2). -/

namespace Sys2Proof

/-- A 32-bit bus word or register (`10_state.md` section 2). -/
abbrev Word := BitVec 32

/-- An 8-bit unsigned value (rule R2). -/
abbrev Byte := BitVec 8

/-- A finite byte sequence, index 0 first on the wire (rule R2). -/
abbrev Bytes := List Byte

end Sys2Proof
end

