-- ==== Sys2Proof/Syntax.lean ====
section
/-! DEFINITION. The instruction set: one constructor for each row of `spec/opcode_table.json` (rules R48, R49). The "instruction" of this block is the command word the host writes to CMD (rule R45). -/

namespace Sys2Proof

/-- What the two bits `KSEL` of a command word name (rule R50). -/
inductive KSel where
  /-- 0: NwkSKey -/
  | nwks
  /-- 1: AppSKey -/
  | apps
  /-- 2: AppKey -/
  | app
  /-- 3: reserved; a command word that holds it is illegal (rule R52) -/
  | reserved
deriving DecidableEq, Repr

/-- The 16 operations (rule R49). No command word carries a data operand (rule R53): an operation
reads the registers, the key store, IBUF and CLIST. The only fields beside the opcode are KSEL
(rule R50) and STRICT (rule R51). -/
inductive Instr where
  /-- 0x00 (rule R55) -/
  | nop
  /-- 0x01 (rule R62) -/
  | mhdrDec
  /-- 0x02 (rule R63) -/
  | mhdrEnc
  /-- 0x03 (rule R64) -/
  | frameDec
  /-- 0x04 (rule R65) -/
  | frameEnc
  /-- 0x0F (rule R56) -/
  | copy
  /-- 0x10 (rule R92) -/
  | cmdDec
  /-- 0x11 (rule R93) -/
  | cmdEnc
  /-- 0x20 (rule R101) -/
  | aesEnc (ksel : KSel)
  /-- 0x21 (rule R102) -/
  | keystream
  /-- 0x22 (rule R103) -/
  | payloadXor
  /-- 0x30 (rule R109) -/
  | cmac (ksel : KSel)
  /-- 0x31 (rule R110) -/
  | micJoin
  /-- 0x32 (rule R111) -/
  | micData
  /-- 0x33 (rule R112) -/
  | verifyJoin (strict : Bool)
  /-- 0x34 (rule R113) -/
  | verifyData (strict : Bool)
deriving DecidableEq, Repr

end Sys2Proof
end

