-- ==== Sys2Proof/WellFormed.lean ====
section
/-! DEFINITION. Which instructions a legal command word can hold (rules R50, R52): KSEL may not be the reserved value 3. -/

namespace Sys2Proof

/-- `i` is an instruction of some legal command word. The two checks are those of rule R50 on the
KSEL field of AES_ENC and of CMAC; no other operation has a field with a reserved value. -/
def Instr.wellFormed : Instr → Bool
  | .nop => true
  | .mhdrDec => true
  | .mhdrEnc => true
  | .frameDec => true
  | .frameEnc => true
  | .copy => true
  | .cmdDec => true
  | .cmdEnc => true
  | .aesEnc k => k != .reserved
  | .keystream => true
  | .payloadXor => true
  | .cmac k => k != .reserved
  | .micJoin => true
  | .micData => true
  | .verifyJoin _ => true
  | .verifyData _ => true

end Sys2Proof
end

