-- ==== Sys2Proof/Decode.lean ====
section
/-! DEFINITION. The command word's decoder and encoder (`30_encoding.md` rules R48 to R52). The decoder is total: a word is an instruction or is rejected by the name of the clause of rule R52 that it breaks. -/

namespace Sys2Proof

/-- Why a command word is illegal: one name for each clause of rule R52. -/
inductive DecodeError where
  /-- `RSVD != 0` -/
  | reservedBits
  /-- `OPC` is a reserved opcode -/
  | reservedOpcode
  /-- `KSEL = 3` on an opcode that takes a key -/
  | kselReserved
  /-- `KSEL != 0` on an opcode that takes no key select -/
  | kselNotTaken
  /-- `STRICT = 1` on an opcode that takes no STRICT -/
  | strictNotTaken
deriving DecidableEq, Repr

/-- `OPC`, bits 7:0 of a command word (rules R9, R48). -/
def opcField (w : Word) : BitVec 8 := w.extractLsb' 0 8

/-- `STRICT`, bit 8 (rules R9, R48). -/
def strictField (w : Word) : Bool := w.getLsbD 8

/-- `KSEL`, bits 10:9 (rules R9, R48). -/
def kselField (w : Word) : BitVec 2 := w.extractLsb' 9 2

/-- `RSVD`, bits 31:11 (rules R9, R48). -/
def rsvdField (w : Word) : BitVec 21 := w.extractLsb' 11 21

/-- The key select that the two bits name (rule R50). -/
def KSel.ofBits (b : BitVec 2) : KSel :=
  if b = 0 then .nwks else if b = 1 then .apps else if b = 2 then .app else .reserved

/-- The two bits of a key select (rule R50). -/
def KSel.bits : KSel → BitVec 2
  | .nwks => 0
  | .apps => 1
  | .app => 2
  | .reserved => 3

/-- A word of an opcode that takes neither STRICT nor KSEL (rule R52). -/
def decodePlain (w : Word) (i : Instr) : Except DecodeError Instr :=
  if kselField w ≠ 0 then .error .kselNotTaken
  else if strictField w then .error .strictNotTaken
  else .ok i

/-- A word of an opcode that takes KSEL: AES_ENC, CMAC (rules R50, R52). -/
def decodeKeyed (w : Word) (mk : KSel → Instr) : Except DecodeError Instr :=
  if strictField w then .error .strictNotTaken
  else if kselField w = 3 then .error .kselReserved
  else .ok (mk (KSel.ofBits (kselField w)))

/-- A word of an opcode that takes STRICT: VERIFY_JOIN, VERIFY_DATA (rules R51, R52). -/
def decodeStrict (w : Word) (mk : Bool → Instr) : Except DecodeError Instr :=
  if kselField w ≠ 0 then .error .kselNotTaken
  else .ok (mk (strictField w))

/-- The opcode map (rule R49) with the legality of rule R52. -/
def decode (w : Word) : Except DecodeError Instr :=
  if rsvdField w ≠ 0 then .error .reservedBits
  else match opcField w with
  | 0x00#8 => decodePlain w .nop
  | 0x01#8 => decodePlain w .mhdrDec
  | 0x02#8 => decodePlain w .mhdrEnc
  | 0x03#8 => decodePlain w .frameDec
  | 0x04#8 => decodePlain w .frameEnc
  | 0x0F#8 => decodePlain w .copy
  | 0x10#8 => decodePlain w .cmdDec
  | 0x11#8 => decodePlain w .cmdEnc
  | 0x20#8 => decodeKeyed w .aesEnc
  | 0x21#8 => decodePlain w .keystream
  | 0x22#8 => decodePlain w .payloadXor
  | 0x30#8 => decodeKeyed w .cmac
  | 0x31#8 => decodePlain w .micJoin
  | 0x32#8 => decodePlain w .micData
  | 0x33#8 => decodeStrict w .verifyJoin
  | 0x34#8 => decodeStrict w .verifyData
  | _ => .error .reservedOpcode

/-- The opcode of each operation (rule R49). -/
def Instr.opcode : Instr → BitVec 8
  | .nop => 0x00
  | .mhdrDec => 0x01
  | .mhdrEnc => 0x02
  | .frameDec => 0x03
  | .frameEnc => 0x04
  | .copy => 0x0F
  | .cmdDec => 0x10
  | .cmdEnc => 0x11
  | .aesEnc _ => 0x20
  | .keystream => 0x21
  | .payloadXor => 0x22
  | .cmac _ => 0x30
  | .micJoin => 0x31
  | .micData => 0x32
  | .verifyJoin _ => 0x33
  | .verifyData _ => 0x34

/-- The KSEL bits of an instruction's word: 0 for an operation that takes none (rule R50). -/
def Instr.kselBits : Instr → BitVec 2
  | .aesEnc k | .cmac k => k.bits
  | .nop | .mhdrDec | .mhdrEnc | .frameDec | .frameEnc | .copy | .cmdDec | .cmdEnc
  | .keystream | .payloadXor | .micJoin | .micData | .verifyJoin _ | .verifyData _ => 0

/-- The STRICT bit of an instruction's word: 0 for an operation that takes none (rule R51). -/
def Instr.strictBit : Instr → Bool
  | .verifyJoin st | .verifyData st => st
  | .nop | .mhdrDec | .mhdrEnc | .frameDec | .frameEnc | .copy | .cmdDec | .cmdEnc
  | .aesEnc _ | .keystream | .payloadXor | .cmac _ | .micJoin | .micData => false

/-- The command word `RSVD = 0 ‖ KSEL ‖ STRICT ‖ OPC` (rule R48). -/
def commandWord (opc : BitVec 8) (strict : Bool) (ksel : BitVec 2) : Word :=
  0#21 ++ ksel ++ BitVec.ofBool strict ++ opc

/-- The command word of an instruction (rules R48 to R51). -/
def encode (i : Instr) : Word := commandWord i.opcode i.strictBit i.kselBits

/-- The instruction the decoder reads from the bits `w` of a row of `nbits` bits, the bits above
them zero. A command is exactly one 32-bit word (rule R48), so a longer value is none. -/
def decodeTableWord (nbits w : Nat) : Option Instr :=
  if w % 2 ^ nbits < 2 ^ 32 then
    match decode (BitVec.ofNat 32 (w % 2 ^ nbits)) with
    | .ok i => some i
    | .error _ => none
  else none

end Sys2Proof
end

