-- ==== Sys2Proof/Config.lean ====
section
/-! DEFINITION. What is fixed for this hardware: the parameters of `00_scope.md` section 4, the window layout of `10_state.md` section 2.1, and the one free value of the model. -/

namespace Sys2Proof.Config

/-- `BUF_SIZE`: bytes of IBUF and of OBUF (`00_scope.md` section 4, rule R28). -/
abbrev bufSize : Nat := 256

/-- `FOPTS_MAX`: the most bytes of frame options (`00_scope.md` section 4). -/
abbrev foptsMax : Nat := 15

/-- `CLIST_MAX`: command-list entries (`00_scope.md` section 4, rule R30). -/
abbrev clistMax : Nat := 15

/-- Bytes of the register window: offsets 0x000..0x7FF (rule R33). -/
abbrev windowSize : Nat := 0x800

/-- Window offset of IBUF[0] (rule R28). -/
abbrev ibufBase : Nat := 0x100

/-- Window offset of OBUF[0] (rule R28). -/
abbrev obufBase : Nat := 0x200

/-- Window offset of CLIST[0] (rule R30). -/
abbrev clistBase : Nat := 0x400

/-- Bytes between two CLIST entries (rule R30). -/
abbrev clistStride : Nat := 0x20

/-- FREE VALUE (DESIGN CHOICE, log entry 1; rules R29, R31, R139, `UNWRITTEN_POLICY` = draw):
the byte that an operation or a host read finds at window offset `off` when that byte was never
written since reset. `draw` is the number of steps that could have drawn before it
(`State.draws`), so every operation and every host read draws anew. It has no body: nothing can
be proved of its values. -/
opaque unwrittenByte (draw off : Nat) : BitVec 8

end Sys2Proof.Config
end

