-- ==== Sys2Proof/Machine/State.lean ====
section
/-! DEFINITION. The state of the block (`10_state.md`), as plain data, its reset value (rule R132), and the reasons a step can stop. -/

namespace Sys2Proof.Machine

/-- The error kinds (rule R116). `STATUS.ECODE` 0 is `none` of this type; codes 8..15 are never
written (rule R117) and have no value here. -/
inductive ErrKind where
  /-- ECODE 1 -/
  | sizeError
  /-- ECODE 2 -/
  | rangeError
  /-- ECODE 3 -/
  | unknownCommandError
  /-- ECODE 4 -/
  | missingKeyError
  /-- ECODE 5 -/
  | consistencyError
  /-- ECODE 6 -/
  | integrityError
  /-- ECODE 7 -/
  | illegalCommand
deriving DecidableEq, Repr

/-- The fields of `STATUS` (rule R10) but BUSY, which is held once, as `State.pend` being present
(rule R32 (a), (b)). Reserved bits read 0 and are not stored. -/
structure Status where
  /-- bit 1: an operation has completed since the last issue -/
  done   : Bool
  /-- bit 2: the last completed operation ended with an error -/
  err    : Bool
  /-- bit 3: the result of the last verification -/
  micok  : Bool
  /-- bits 7:4: the error of the last completed operation -/
  ecode  : Option ErrKind
  /-- bit 8: sticky, a host write was dropped because the block was busy -/
  werr   : Bool
  /-- bits 23:16: OPC of the last completed operation -/
  lastop : BitVec 8
deriving DecidableEq, Repr

/-- The three key slots (rule R24). -/
inductive KeyId where
  | nwks
  | apps
  | app
deriving DecidableEq, Repr

/-- One 16-byte key as its four bus words (rule R24): key byte `4j+b` is bits `8b+7:8b` of word `j`. -/
structure KeyWords where
  w0 : Word
  w1 : Word
  w2 : Word
  w3 : Word
deriving DecidableEq, Repr

/-- The stored bytes of the IBUF, OBUF and CLIST windows (rules R28, R30) at their window offsets,
addresses strictly rising. A byte that is not listed was never written since reset (rules R29,
R31, R32 (d)). The canonical form is `Memory.wf` in Machine/Ops.lean. -/
abbrev Memory := List Host.Cell

/-- The width of a host access (rule R35 admits `word` alone). -/
inductive AccessWidth where
  | byte
  | half
  | word
deriving DecidableEq, Repr

/-- What a host access does. -/
inductive AccessKind where
  | read
  | write (value : Word)
deriving DecidableEq, Repr

/-- One access of the host to the window, `off` bytes from `BLOCK_BASE` (rules R33, R35). -/
structure Access where
  off   : Nat
  width : AccessWidth
  kind  : AccessKind
deriving DecidableEq, Repr

/-- One move of the environment's schedule (rules R115, R131). -/
inductive Input where
  /-- the host makes a bus access -/
  | host (a : Access)
  /-- the host polls: it reads STATUS until DONE = 1 (`WAIT`, rules R44, R54) -/
  | wait
  /-- the engine is given a step: it completes the pending operation, if there is one -/
  | engine
  /-- the environment asserts reset -/
  | reset
deriving DecidableEq, Repr

/-- The state of the block, then three fields of the model's own (`busData`, `draws`, `inputs`). -/
structure State where
  /-- CMD, the last accepted command word (rule R9) -/
  cmd     : Word
  /-- STATUS (rule R10); its bit BUSY is `pend.isSome` -/
  status  : Status
  /-- ILEN (rule R12) -/
  ilen    : BitVec 9
  /-- OLEN (rule R13) -/
  olen    : BitVec 9
  /-- MHDR (rule R14) -/
  mhdr    : Byte
  /-- DEVADDR (rule R15) -/
  devaddr : Word
  /-- FCTRL (rule R16) -/
  fctrl   : Byte
  /-- FCNT (rule R17) -/
  fcnt    : BitVec 16
  /-- FPORT: PRESENT bit 8, PORT bits 7:0 (rule R18) -/
  fport   : BitVec 9
  /-- DIR (rule R19) -/
  dir     : BitVec 1
  /-- MIC (rule R20) -/
  mic     : Word
  /-- MIC_IN (rule R21) -/
  micIn   : Word
  /-- CCOUNT (rule R22) -/
  ccount  : BitVec 4
  /-- KEYCTL: NV bit 0, AV bit 1, KV bit 2 (rule R23) -/
  keyctl  : BitVec 3
  /-- NwkSKey (rule R24) -/
  nwkSKey : KeyWords
  /-- AppSKey (rule R24) -/
  appSKey : KeyWords
  /-- AppKey (rule R24) -/
  appKey  : KeyWords
  /-- IBUF, OBUF and CLIST (rules R28 to R31) -/
  mem     : Memory
  /-- PEND, the pending command word (rule R32 (a)); present exactly while BUSY = 1 -/
  pend    : Option Word
  /-- the model's own: the word the host's last read returned (log entry 4) -/
  busData : Option Word
  /-- the model's own: how many steps could have drawn a free value (log entry 1) -/
  draws   : Nat
  /-- the model's own: the moves of the environment still to come, first first; when none is
  left, the engine moves (rule R115, log entry 3) -/
  inputs  : List Input
deriving DecidableEq, Repr

/-- Why a step stops with a fault: never. Every behaviour the spec describes has an effect in this
model, and the unwritten bytes of rule R139 are free values, not faults (log entry 1). -/
inductive Fault where
deriving DecidableEq, Repr

/-- Why a step is refused. -/
inductive Refusal where
  /-- Raised by no meaning: an arm of exec that has no meaning yet (there is none). Safe. -/
  | notModelled (mnemonic : String)
  /-- Raised by a host access that rule R35 does not admit (another width than 32 bits,
  misaligned, outside the window): "A model refuses such an access". Safe: the model stops where
  a platform may go on after the bus error (log entry 2). -/
  | busError
deriving DecidableEq, Repr

/-- What a meaning and a step answer. -/
abbrev Result := Host.Outcome State Fault Refusal

/-- A key of zero bytes (rule R26). -/
def KeyWords.zero : KeyWords := { w0 := 0, w1 := 0, w2 := 0, w3 := 0 }

/-- STATUS after reset (rule R132). -/
def Status.reset : Status :=
  { done := false, err := false, micok := false, ecode := none, werr := false, lastop := 0 }

/-- The state right after reset (rule R132): every register and key byte 0, nothing pending, every
byte of IBUF, OBUF and CLIST unwritten. The last three fields are the model's own. -/
def State.reset : State :=
  { cmd := 0, status := Status.reset, ilen := 0, olen := 0, mhdr := 0, devaddr := 0, fctrl := 0,
    fcnt := 0, fport := 0, dir := 0, mic := 0, micIn := 0, ccount := 0, keyctl := 0,
    nwkSKey := KeyWords.zero, appSKey := KeyWords.zero, appKey := KeyWords.zero,
    mem := [], pend := none, busData := none, draws := 0, inputs := [] }

end Sys2Proof.Machine
end

