-- ==== Sys2Proof/Machine/Flags.lean ====
section
/-! DEFINITION. STATUS, the block's only flag register (rules R10, R11): its error codes, the word a host reads, and each of its updates. -/

namespace Sys2Proof.Machine

/-- `ECODE` of an error kind (rule R117). -/
def ErrKind.code : ErrKind → BitVec 4
  | .sizeError => 1
  | .rangeError => 2
  | .unknownCommandError => 3
  | .missingKeyError => 4
  | .consistencyError => 5
  | .integrityError => 6
  | .illegalCommand => 7

/-- `STATUS.ECODE` (rule R117): 0 is success. -/
def ecodeBits : Option ErrKind → BitVec 4
  | none => 0
  | some k => k.code

/-- `STATUS.BUSY`: 1 from the issue of an operation until its completion, that is while PEND holds
a word (rules R10, R32). -/
def State.busy (s : State) : Bool := s.pend.isSome

/-- The word a read of STATUS returns, most significant field first (rule R10). -/
def statusWord (busy : Bool) (st : Status) : Word :=
  0#8 ++ st.lastop ++ 0#7 ++ BitVec.ofBool st.werr ++ ecodeBits st.ecode ++ BitVec.ofBool st.micok
    ++ BitVec.ofBool st.err ++ BitVec.ofBool st.done ++ BitVec.ofBool busy

/-- A host write of `v` to STATUS clears each of DONE, ERR and WERR whose bit is 1 in `v` and
changes nothing else (rule R10). -/
def Status.writeOneClear (st : Status) (v : Word) : Status :=
  { st with
    done := st.done && !v.getLsbD 1
    err := st.err && !v.getLsbD 2
    werr := st.werr && !v.getLsbD 8 }

/-- STATUS at an issue (rule R119): DONE, ERR and ECODE cleared, MICOK, WERR and LASTOP unchanged. -/
def Status.issue (st : Status) : Status :=
  { st with done := false, err := false, ecode := none }

/-- STATUS at a completion with error kind `k`, or `none` for success (rule R122). -/
def Status.finish (st : Status) (opc : BitVec 8) (k : Option ErrKind) : Status :=
  { st with
    done := true
    err := k.isSome
    micok := if k = some .integrityError then false else st.micok
    ecode := k
    lastop := opc }

/-- The sticky write error (rules R136, R143). -/
def Status.setWerr (st : Status) : Status :=
  { st with werr := true }

end Sys2Proof.Machine
end

