-- ==== Sys2Proof/Machine/Ops.lean ====
section
/-! DEFINITION. The shared operations: byte order, the memory and its canonical form, reads and writes of IBUF, OBUF and CLIST, issue, and the completion of an operation with its results or with an error. -/

namespace Sys2Proof.Machine

/-! ## Byte order (rules R3, R39, R41) -/

/-- Byte `k` of an integer, byte 0 the least significant. -/
def leByte {n : Nat} (v : BitVec n) (k : Nat) : Byte := v.extractLsb' (8 * k) 8

/-- `le16` (rule R3). -/
def le16 (v : BitVec 16) : Bytes := [leByte v 0, leByte v 1]

/-- `le24` (rule R3). -/
def le24 (v : BitVec 24) : Bytes := [leByte v 0, leByte v 1, leByte v 2]

/-- `le32` (rule R3), and the lanes of a bus word (rule R41). -/
def le32 (v : Word) : Bytes := [leByte v 0, leByte v 1, leByte v 2, leByte v 3]

/-- Byte `i` of a sequence. Every use is below the length its rule has checked (rule R34). -/
def byteAt (b : Bytes) (i : Nat) : Byte := b.getD i 0

/-- `LE16(b, o)` (rule R3). -/
def readLE16 (b : Bytes) (o : Nat) : BitVec 16 := byteAt b (o + 1) ++ byteAt b o

/-- `LE24(b, o)` (rule R3). -/
def readLE24 (b : Bytes) (o : Nat) : BitVec 24 := byteAt b (o + 2) ++ byteAt b (o + 1) ++ byteAt b o

/-- `LE32(b, o)` (rule R3). -/
def readLE32 (b : Bytes) (o : Nat) : Word :=
  byteAt b (o + 3) ++ byteAt b (o + 2) ++ byteAt b (o + 1) ++ byteAt b o

/-- `a ⊕ b`, byte by byte (rule R4). -/
def xorBytes (a b : Bytes) : Bytes := List.zipWith (· ^^^ ·) a b

/-! ## Memory -/

/-- The byte at an address: `none` when it was never written since reset (rule R32 (d)). -/
def Memory.read : Memory → Nat → Option Byte
  | [], _ => none
  | c :: m, a => if c.1 = a then some c.2 else Memory.read m a

/-- Store one byte, keeping the addresses strictly rising. -/
def Memory.write : Memory → Nat → Byte → Memory
  | [], a, b => [(a, b)]
  | c :: m, a, b =>
    if a < c.1 then (a, b) :: c :: m
    else if a = c.1 then (a, b) :: m
    else c :: Memory.write m a b

/-- Make a byte unwritten. -/
def Memory.erase (m : Memory) (a : Nat) : Memory := m.filter fun c => c.1 != a

/-- Store a byte sequence at consecutive addresses (`MemWrite`, rule R5). -/
def Memory.writeBytes : Memory → Nat → Bytes → Memory
  | m, _, [] => m
  | m, a, b :: bs => Memory.writeBytes (Memory.write m a b) (a + 1) bs

/-- Copy one byte; an unwritten byte is copied as unwritten (rule R56). -/
def Memory.copyByte (m : Memory) (src dst : Nat) : Memory :=
  match Memory.read m src with
  | some b => Memory.write m dst b
  | none => Memory.erase m dst

/-- Copy `n` bytes between two buffers that do not overlap (rules R56, R141). -/
def Memory.copyBytes (m : Memory) (src dst : Nat) : Nat → Memory
  | 0 => m
  | n + 1 => Memory.copyByte (Memory.copyBytes m src dst n) (src + n) (dst + n)

/-- The window offsets that hold a stored byte: IBUF, OBUF, and of each CLIST entry the byte CID
and the four bytes of each slot F0..F4 (rules R28, R30). -/
def Memory.storable (a : Nat) : Bool :=
  (0x100 ≤ a && a < 0x300)
    || (0x400 ≤ a && a < 0x5E0
        && ((a - 0x400) % 0x20 == 0 || (4 ≤ (a - 0x400) % 0x20 && (a - 0x400) % 0x20 < 0x18)))

/-- The canonical form: addresses strictly rising and each of them storable. An unlisted byte reads
as no value, so no listed byte equals what an unlisted one reads as. -/
abbrev Memory.wf (m : Memory) : Prop :=
  m.Pairwise (fun c d => c.1 < d.1) ∧ ∀ c ∈ m, Memory.storable c.1 = true

/-! ## Buffer bytes, CLIST words -/

/-- The byte at a window offset as an operation or a host read sees it: a byte never written since
reset is a free value (rules R29, R31, R139; log entry 1). -/
def State.readByte (s : State) (a : Nat) : Byte :=
  match s.mem.read a with
  | some b => b
  | none => Config.unwrittenByte s.draws a

/-- `MemRead` of `n` bytes from window offset `a` (rule R5). -/
def State.readBytes (s : State) (a n : Nat) : Bytes := (List.range n).map fun i => s.readByte (a + i)

/-- The 32-bit word at a window offset, in the lanes of rule R41. -/
def State.readWord (s : State) (a : Nat) : Word :=
  s.readByte (a + 3) ++ s.readByte (a + 2) ++ s.readByte (a + 1) ++ s.readByte a

/-- One command-list entry (rule R30). -/
structure Entry where
  cid : Byte
  f0  : Word
  f1  : Word
  f2  : Word
  f3  : Word
  f4  : Word
deriving DecidableEq, Repr

/-- The window offset of `CLIST[j]` (rule R30). -/
def clistAddr (j : Nat) : Nat := Config.clistBase + Config.clistStride * j

/-- `CLIST[j]` (rules R5, R30). -/
def State.readEntry (s : State) (j : Nat) : Entry :=
  { cid := s.readByte (clistAddr j)
    f0 := s.readWord (clistAddr j + 0x04)
    f1 := s.readWord (clistAddr j + 0x08)
    f2 := s.readWord (clistAddr j + 0x0C)
    f3 := s.readWord (clistAddr j + 0x10)
    f4 := s.readWord (clistAddr j + 0x14) }

/-- `CLIST[0 .. n)`. -/
def State.readEntries (s : State) (n : Nat) : List Entry := (List.range n).map s.readEntry

/-- Write `CLIST[j]` in full, CID and all five slots (rule R31). -/
def Memory.writeEntry (m : Memory) (j : Nat) (e : Entry) : Memory :=
  Memory.writeBytes (Memory.write m (clistAddr j) e.cid) (clistAddr j + 0x04)
    (le32 e.f0 ++ le32 e.f1 ++ le32 e.f2 ++ le32 e.f3 ++ le32 e.f4)

/-- Write the entries `j, j+1, ...` (rule R31: entries beyond them are unchanged). -/
def Memory.writeEntries : Memory → Nat → List Entry → Memory
  | m, _, [] => m
  | m, j, e :: es => Memory.writeEntries (Memory.writeEntry m j e) (j + 1) es

/-- `MemWrite(OBUF, 0, len(b), b); R.OLEN <- len(b)` of an output of at most 256 bytes (rules R13, R28). -/
def State.output (s : State) (b : Bytes) : State :=
  { s with mem := s.mem.writeBytes Config.obufBase b, olen := BitVec.ofNat 9 b.length }

/-! ## Issue and completion -/

/-- Issue of the command word `w` (rule R119). -/
def State.issue (s : State) (w : Word) : State :=
  { s with cmd := w, pend := some w, status := s.status.issue }

/-- The completion's status update (rule R122): PEND is consumed, so BUSY falls. The free values
of the next step are new ones (log entry 1). -/
def State.finish (s : State) (opc : BitVec 8) (k : Option ErrKind) : State :=
  { s with pend := none, status := s.status.finish opc k, draws := s.draws + 1 }

/-- An operation's completion, this block's whole error machinery (rules R6, R121, R122, R123,
R128): the operation's body `r` ran on `s`. It committed, and the state it committed gets the
status of a success, or it raised a kind, and `s` itself gets the status of that error. -/
def complete (opc : BitVec 8) (s : State) (r : Except ErrKind State) : Result :=
  match r with
  | .ok s' => .next (s'.finish opc none)
  | .error k => .next (s.finish opc (some k))

/-- The completion of an operation whose body returns its output bytes: on success they go to
OBUF and their number to OLEN. -/
def completeOutput (opc : BitVec 8) (s : State) (r : Except ErrKind Bytes) : Result :=
  complete opc s (r.map s.output)

end Sys2Proof.Machine
end

