-- ==== Sys2Proof/Machine/Operands.lean ====
section
/-! DEFINITION. The operands of the operations: the input message and its length check, the fields of the frame registers, the direction, and the selection of keys. A command word carries no operand (rule R53). -/

namespace Sys2Proof.Machine

/-! ## Input length and message -/

/-- `L = R.ILEN` (rule R12). -/
def State.inputLen (s : State) : Nat := s.ilen.toNat

/-- `MemRead(IBUF, 0, n)` (rule R5). -/
def State.input (s : State) (n : Nat) : Bytes := s.readBytes Config.ibufBase n

/-- The first check of every operation that reads ILEN (rule R125). -/
def State.checkedLen (s : State) : Except ErrKind Nat :=
  if s.inputLen > Config.bufSize then .error .sizeError else .ok s.inputLen

/-! ## Fields of MHDR and FCTRL (rules R14, R16, R57, R58) -/

/-- `MTYPE`, bits 7:5. -/
def mtypeOf (mhdr : Byte) : BitVec 3 := mhdr.extractLsb' 5 3

/-- `MAJOR`, bits 1:0. -/
def majorOf (mhdr : Byte) : BitVec 2 := mhdr.extractLsb' 0 2

/-- The data-frame types `DATA = {2, 3, 4, 5}` (rule R60). -/
def isDataType (mt : BitVec 3) : Bool := mt == 2 || mt == 3 || mt == 4 || mt == 5

/-- `dir = MTYPE[0]` (rule R61). -/
def dirOf (mt : BitVec 3) : BitVec 1 := mt.extractLsb' 0 1

/-- `FOPTSLEN`, bits 3:0 of FCtrl. -/
def foptsLenOf (fctrl : Byte) : BitVec 4 := fctrl.extractLsb' 0 4

/-- The flags ADR, ADRACKREQ, ACK, FPENDING, bits 7:4 of FCtrl. -/
def flagsOf (fctrl : Byte) : BitVec 4 := fctrl.extractLsb' 4 4

/-! ## FPORT (rule R18) -/

/-- `R.FPORT[8]`, PRESENT. -/
def State.portPresent (s : State) : Bool := s.fport.getLsbD 8

/-- `R.FPORT[7:0]`, PORT. -/
def State.port (s : State) : Byte := s.fport.extractLsb' 0 8

/-! ## Keys -/

/-- The four bus words of a key slot. -/
def State.keyWords (s : State) : KeyId → KeyWords
  | .nwks => s.nwkSKey
  | .apps => s.appSKey
  | .app => s.appKey

/-- The 16 bytes of a key, byte 0 first (rule R24). -/
def KeyWords.bytes (k : KeyWords) : Bytes := le32 k.w0 ++ le32 k.w1 ++ le32 k.w2 ++ le32 k.w3

/-- `KEYCTL.NV`, `.AV`, `.KV` (rule R23). -/
def State.keyPresent (s : State) : KeyId → Bool
  | .nwks => s.keyctl.getLsbD 0
  | .apps => s.keyctl.getLsbD 1
  | .app => s.keyctl.getLsbD 2

/-- A key an operation requires: absent, it is `MissingKeyError`, never a default (rule R23). -/
def State.requireKey (s : State) (k : KeyId) : Except ErrKind Bytes :=
  if s.keyPresent k then .ok (s.keyWords k).bytes else .error .missingKeyError

/-- The key slot that KSEL names (rule R50); the reserved value names none. -/
def keyOfSel : KSel → Option KeyId
  | .nwks => some .nwks
  | .apps => some .apps
  | .app => some .app
  | .reserved => none

/-- The key slot of the payload cipher: NwkSKey for port 0, else AppSKey (rule R27). -/
def State.portKey (s : State) : KeyId := if s.port = 0 then .nwks else .apps

end Sys2Proof.Machine
end

