-- ==== Sys2Proof/Machine/Bus.lean ====
section
/-! DEFINITION. The host's accesses to the register window (`20_memory.md` sections 1 and 2, `10_state.md` section 2, `70_reset_and_hazards.md` section 3). -/

namespace Sys2Proof.Machine

/-- What a word of the window is (`10_state.md` section 2.1, rule R30). -/
inductive WindowReg where
  | cmd
  | status
  | ilen
  | olen
  | mhdr
  | devaddr
  | fctrl
  | fcnt
  | fport
  | dir
  | mic
  | micIn
  | ccount
  | keyctl
  /-- word `j` of a key, j = 0..3 -/
  | key (k : KeyId) (j : Nat)
  /-- the IBUF word at this window offset -/
  | ibuf (off : Nat)
  /-- the OBUF word at this window offset -/
  | obuf (off : Nat)
  /-- CID of a CLIST entry, the word at this window offset -/
  | clistCid (off : Nat)
  /-- a slot F0..F4 of a CLIST entry, the word at this window offset -/
  | clistSlot (off : Nat)
  | reserved
deriving DecidableEq, Repr

/-- The word at a CLIST window offset: CID at +0x00, slots at +0x04..+0x14, reserved above (rule R30). -/
def clistReg (off : Nat) : WindowReg :=
  if (off - Config.clistBase) % Config.clistStride = 0 then .clistCid off
  else if (off - Config.clistBase) % Config.clistStride < 0x18 then .clistSlot off
  else .reserved

/-- The word at an aligned window offset (`10_state.md` section 2.1). -/
def windowReg (off : Nat) : WindowReg :=
  match off with
  | 0x000 => .cmd
  | 0x004 => .status
  | 0x008 => .ilen
  | 0x00C => .olen
  | 0x010 => .mhdr
  | 0x014 => .devaddr
  | 0x018 => .fctrl
  | 0x01C => .fcnt
  | 0x020 => .fport
  | 0x024 => .dir
  | 0x028 => .mic
  | 0x02C => .micIn
  | 0x030 => .ccount
  | 0x034 => .keyctl
  | _ =>
    if 0x040 ≤ off ∧ off < 0x050 then .key .nwks (off % 0x10 / 4)
    else if 0x050 ≤ off ∧ off < 0x060 then .key .apps (off % 0x10 / 4)
    else if 0x060 ≤ off ∧ off < 0x070 then .key .app (off % 0x10 / 4)
    else if 0x100 ≤ off ∧ off < 0x200 then .ibuf off
    else if 0x200 ≤ off ∧ off < 0x300 then .obuf off
    else if 0x400 ≤ off ∧ off < 0x5E0 then clistReg off
    else .reserved

/-- A host read (rules R36, R37, R41, R137): the current value; reserved bits and offsets and the
write-only key words (rule R25) read 0; an unwritten buffer byte or CLIST word is a free value. -/
def State.readReg (s : State) : WindowReg → Word
  | .cmd => s.cmd
  | .status => statusWord s.busy s.status
  | .ilen => s.ilen.setWidth 32
  | .olen => s.olen.setWidth 32
  | .mhdr => s.mhdr.setWidth 32
  | .devaddr => s.devaddr
  | .fctrl => s.fctrl.setWidth 32
  | .fcnt => s.fcnt.setWidth 32
  | .fport => s.fport.setWidth 32
  | .dir => s.dir.setWidth 32
  | .mic => s.mic
  | .micIn => s.micIn
  | .ccount => s.ccount.setWidth 32
  | .keyctl => s.keyctl.setWidth 32
  | .key _ _ => 0
  | .ibuf off => s.readWord off
  | .obuf off => s.readWord off
  | .clistCid off => (s.readByte off).setWidth 32
  | .clistSlot off => s.readWord off
  | .reserved => 0

/-- Word `j` of a key replaced (rules R24, R25). -/
def KeyWords.setWord (k : KeyWords) (j : Nat) (v : Word) : KeyWords :=
  match j with
  | 0 => { k with w0 := v }
  | 1 => { k with w1 := v }
  | 2 => { k with w2 := v }
  | _ => { k with w3 := v }

/-- Word `j` of a key slot written; KEYCTL does not change (rules R23, R25). -/
def State.writeKeyWord (s : State) (k : KeyId) (j : Nat) (v : Word) : State :=
  match k with
  | .nwks => { s with nwkSKey := s.nwkSKey.setWord j v }
  | .apps => { s with appSKey := s.appSKey.setWord j v }
  | .app => { s with appKey := s.appKey.setWord j v }

/-- An accepted host write (rules R9 to R31, R36, R37): a write to CMD issues, a write to STATUS
clears the W1C bits, a write to OLEN, MIC, OBUF or a reserved offset does nothing, any other
stores the bits that are not reserved; FCTRL[3:0] is read-only (rule R16). -/
def State.writeReg (s : State) (r : WindowReg) (v : Word) : State :=
  match r with
  | .cmd => s.issue v
  | .status => { s with status := s.status.writeOneClear v }
  | .ilen => { s with ilen := v.setWidth 9 }
  | .olen => s
  | .mhdr => { s with mhdr := v.setWidth 8 }
  | .devaddr => { s with devaddr := v }
  | .fctrl => { s with fctrl := flagsOf (v.setWidth 8) ++ foptsLenOf s.fctrl }
  | .fcnt => { s with fcnt := v.setWidth 16 }
  | .fport => { s with fport := v.setWidth 9 }
  | .dir => { s with dir := v.setWidth 1 }
  | .mic => s
  | .micIn => { s with micIn := v }
  | .ccount => { s with ccount := v.setWidth 4 }
  | .keyctl => { s with keyctl := v.setWidth 3 }
  | .key k j => s.writeKeyWord k j v
  | .ibuf off => { s with mem := s.mem.writeBytes off (le32 v) }
  | .obuf _ => s
  | .clistCid off => { s with mem := s.mem.write off (v.setWidth 8) }
  | .clistSlot off => { s with mem := s.mem.writeBytes off (le32 v) }
  | .reserved => s

/-- The words whose write is dropped while BUSY = 1 (rule R136): all but STATUS, the read-only
words and the reserved offsets. -/
def WindowReg.guarded : WindowReg → Bool
  | .status | .olen | .mic | .obuf _ | .reserved => false
  | .cmd | .ilen | .mhdr | .devaddr | .fctrl | .fcnt | .fport | .dir | .micIn | .ccount | .keyctl
  | .key _ _ | .ibuf _ | .clistCid _ | .clistSlot _ => true

/-- A host write: dropped with WERR set when the block is busy and the word is guarded (rule R136). -/
def State.hostWrite (s : State) (r : WindowReg) (v : Word) : State :=
  if s.busy && r.guarded then { s with status := s.status.setWerr } else s.writeReg r v

/-- A host read changes no state of the block (rule R37); the model keeps the word it returned, and
the free values of the next step are new ones (log entries 1 and 4). -/
def State.hostRead (s : State) (r : WindowReg) : State :=
  { s with busData := some (s.readReg r), draws := s.draws + 1 }

/-- The accesses that the block admits: naturally aligned 32-bit, inside the window (rule R35). -/
def Access.admitted (a : Access) : Bool :=
  a.width == .word && a.off % 4 == 0 && a.off < Config.windowSize

/-- One host access (rule R35): an access that is not admitted is refused. -/
def hostAccess (a : Access) (s : State) : Result :=
  if a.admitted then
    match a.kind with
    | .read => .next (s.hostRead (windowReg a.off))
    | .write v => .next (s.hostWrite (windowReg a.off) v)
  else .refused .busError

/-- The access at bus address `addr` of a block that the platform placed at `blockBase`, the open
parameter `BLOCK_BASE` (rule R33, D4): an address below the window is outside it. -/
def Access.atBusAddress (blockBase addr : Nat) (width : AccessWidth) (kind : AccessKind) : Access :=
  { off := if blockBase ≤ addr then addr - blockBase else Config.windowSize
    width := width
    kind := kind }

/-- The environment's reset (rules R131 to R133): the state of rule R132, a pending operation
discarded. The model's own fields go on: the schedule, the host's last read, and the count of
draws, so that the unwritten bytes after this reset are new free values. -/
def State.resetBlock (s : State) : State :=
  { State.reset with busData := s.busData, draws := s.draws + 1, inputs := s.inputs }

end Sys2Proof.Machine
end

