-- ==== Sys2Proof/Machine/Aes.lean ====
section
/-! DEFINITION. The AES-128 forward cipher (rules R94 to R98). The state matrix is the 16 bytes in column order, `s[r][c] = in[r + 4*c]`. -/

namespace Sys2Proof.Machine

/-- The S-box, one row of the table of rule R96 to a number, `SBOX[16*x + 0]` its most significant byte. -/
def sboxRows : List (BitVec 128) :=
  [ 0x637c777bf26b6fc53001672bfed7ab76, 0xca82c97dfa5947f0add4a2af9ca472c0,
    0xb7fd9326363ff7cc34a5e5f171d83115, 0x04c723c31896059a071280e2eb27b275,
    0x09832c1a1b6e5aa0523bd6b329e32f84, 0x53d100ed20fcb15b6acbbe394a4c58cf,
    0xd0efaafb434d338545f9027f503c9fa8, 0x51a3408f929d38f5bcb6da2110fff3d2,
    0xcd0c13ec5f974417c4a77e3d645d1973, 0x60814fdc222a908846eeb814de5e0bdb,
    0xe0323a0a4906245cc2d3ac629195e479, 0xe7c8376d8dd54ea96c56f4ea657aae08,
    0xba78252e1ca6b4c6e8dd741f4bbd8b8a, 0x703eb5664803f60e613557b986c11d9e,
    0xe1f8981169d98e949b1e87e9ce5528df, 0x8ca1890dbfe6426841992d0fb054bb16 ]

/-- `SBOX[a]` (rule R96). -/
def sbox (a : Byte) : Byte :=
  (sboxRows.getD (a.toNat / 16) 0).extractLsb' (8 * (15 - a.toNat % 16)) 8

/-- The matrix with the given entries `s[r][c]` (rule R95). -/
def matrix (f : Nat → Nat → Byte) : Bytes := (List.range 16).map fun i => f (i % 4) (i / 4)

/-- `s[r][c]` (rule R95). -/
def cell (s : Bytes) (r c : Nat) : Byte := byteAt s (r + 4 * c)

/-- `2•a` (rule R97). -/
def xtime (a : Byte) : Byte := (a <<< 1) ^^^ (if a.getLsbD 7 then 0x1B else 0x00)

/-- `SubBytes` (rule R96). -/
def subBytes (s : Bytes) : Bytes := matrix fun r c => sbox (cell s r c)

/-- `ShiftRows` (rule R97). -/
def shiftRows (s : Bytes) : Bytes := matrix fun r c => cell s r ((c + r) % 4)

/-- `MixColumns` (rule R97): entry `r` of a column is `2•a_r ⊕ 3•a_(r+1) ⊕ a_(r+2) ⊕ a_(r+3)`,
row indices modulo 4. -/
def mixColumns (s : Bytes) : Bytes :=
  matrix fun r c =>
    xtime (cell s r c) ^^^ (xtime (cell s ((r + 1) % 4) c) ^^^ cell s ((r + 1) % 4) c)
      ^^^ cell s ((r + 2) % 4) c ^^^ cell s ((r + 3) % 4) c

/-- `rc(1..10)` (rule R98). -/
def roundConstants : Bytes := [0x01, 0x02, 0x04, 0x08, 0x10, 0x20, 0x40, 0x80, 0x1B, 0x36]

/-- `t` of rule R98 for word `i`: `SubWord(RotWord(w)) ⊕ [rc(i/4), 0, 0, 0]` when `i mod 4 = 0`, else `w`. -/
def scheduleWord (i : Nat) (w : Bytes) : Bytes :=
  if i % 4 = 0 then
    xorBytes ((w.drop 1 ++ w.take 1).map sbox) [byteAt roundConstants (i / 4 - 1), 0, 0, 0]
  else w

/-- The words `w[n+3], ..., w[0]` of the key expansion, newest first (rule R98). -/
def keyWordsDown (key : Bytes) : Nat → List Bytes
  | 0 => [(key.drop 12).take 4, (key.drop 8).take 4, (key.drop 4).take 4, key.take 4]
  | n + 1 =>
    let ws := keyWordsDown key n
    xorBytes (ws.getD 3 []) (scheduleWord (n + 4) (ws.getD 0 [])) :: ws

/-- The round-key words `w[0..43]` (rule R98). -/
def keySchedule (key : Bytes) : List Bytes := (keyWordsDown key 40).reverse

/-- `AddRoundKey(t)` (rule R95). -/
def addRoundKey (w : List Bytes) (t : Nat) (s : Bytes) : Bytes :=
  matrix fun r c => cell s r c ^^^ byteAt (w.getD (4 * t + c) []) r

/-- `AddRoundKey(0)`, then the rounds 1 to `n`, each with MixColumns (rule R95). -/
def aesRounds (w : List Bytes) : Nat → Bytes → Bytes
  | 0, s => addRoundKey w 0 s
  | n + 1, s => addRoundKey w (n + 1) (mixColumns (shiftRows (subBytes (aesRounds w n s))))

/-- `AES128(key, block)` (rule R95): nine full rounds, and round 10 without MixColumns. -/
def aes128 (key block : Bytes) : Bytes :=
  addRoundKey (keySchedule key) 10 (shiftRows (subBytes (aesRounds (keySchedule key) 9 block)))

end Sys2Proof.Machine
end

