-- ==== Sys2Proof/Machine/Cipher.lean ====
section
/-! DEFINITION. The payload cipher (`43_payload_cipher.md`): AES_ENC, KEYSTREAM, PAYLOAD_XOR. -/

namespace Sys2Proof.Machine

/-- The key of an operation that takes KSEL (rules R50, R101). A reserved KSEL makes the command
word illegal (rule R52), so it is IllegalCommand here too; no legal word decodes to it. -/
def State.selectedKey (s : State) (k : KSel) : Except ErrKind Bytes :=
  match keyOfSel k with
  | none => .error .illegalCommand
  | some id => s.requireKey id

/-- `A_i(dir, devaddr, fcnt)` (rule R99); its tail is also that of B0 (rule R108). -/
def contextBlock (first : Byte) (dir : BitVec 1) (devaddr : Word) (fcnt : BitVec 16) (last : Byte) :
    Bytes :=
  [first, 0x00, 0x00, 0x00, 0x00, dir.setWidth 8] ++ le32 devaddr ++ le32 (fcnt.setWidth 32)
    ++ [0x00, last]

/-- Counter block `A_i`, `i` from 1 (rule R99). -/
def counterBlock (dir : BitVec 1) (devaddr : Word) (fcnt : BitVec 16) (i : Nat) : Bytes :=
  contextBlock 0x01 dir devaddr fcnt (BitVec.ofNat 8 i)

/-- `ceil(n / 16)` (rules R100, R106). -/
def blockCount (n : Nat) : Nat := (n + 15) / 16

/-- `Keystream(K, dir, devaddr, fcnt, n)` (rule R100). -/
def keystreamBytes (key : Bytes) (dir : BitVec 1) (devaddr : Word) (fcnt : BitVec 16) (n : Nat) :
    Bytes :=
  ((List.range (blockCount n)).flatMap fun i =>
    aes128 key (counterBlock dir devaddr fcnt (i + 1))).take n

/-! ## AES_ENC -/

/-- AES_ENC's output (rule R101). IllegalCommand comes before every other check (rule R124). -/
def aesEncBytes (s : State) (k : KSel) : Except ErrKind Bytes :=
  if k = .reserved then .error .illegalCommand
  else
    match s.checkedLen with
    | .error e => .error e
    | .ok len =>
      if len ≠ 16 then .error .sizeError
      else (s.selectedKey k).map fun key => aes128 key (s.input 16)

/-- AES_ENC (rule R101). -/
def execAesEnc (k : KSel) (s : State) : Result := completeOutput 0x20 s (aesEncBytes s k)

/-! ## KEYSTREAM and PAYLOAD_XOR -/

/-- The checks and the keystream that KEYSTREAM and PAYLOAD_XOR share (rules R102, R103): an
absent FPort admits no payload byte and reads no key; with FPort the key of the port is required,
even for no byte. -/
def portKeystream (s : State) : Except ErrKind Bytes :=
  match s.checkedLen with
  | .error e => .error e
  | .ok len =>
    if s.portPresent = false then
      if len > 0 then .error .consistencyError else .ok []
    else (s.requireKey s.portKey).map fun key => keystreamBytes key s.dir s.devaddr s.fcnt len

/-- KEYSTREAM (rule R102). -/
def execKeystream (s : State) : Result := completeOutput 0x21 s (portKeystream s)

/-- PAYLOAD_XOR (rule R103). -/
def execPayloadXor (s : State) : Result :=
  completeOutput 0x22 s ((portKeystream s).map fun ks => xorBytes (s.input s.inputLen) ks)

end Sys2Proof.Machine
end

