-- ==== Sys2Proof/Machine/Control.lean ====
section
/-! DEFINITION. NOP and COPY (`40_control.md`). -/

namespace Sys2Proof.Machine

/-- NOP writes nothing but STATUS (rule R55). -/
def execNop (s : State) : Result := complete 0x00 s (.ok s)

/-- COPY's commit: `IBUF[0..OLEN) <- OBUF[0..OLEN)`, `ILEN <- OLEN`; unwritten bytes are copied as
unwritten (rule R56). -/
def copyBody (s : State) : State :=
  { s with
    mem := s.mem.copyBytes Config.obufBase Config.ibufBase s.olen.toNat
    ilen := s.olen }

/-- COPY (rule R56). -/
def execCopy (s : State) : Result := complete 0x0F s (.ok (copyBody s))

end Sys2Proof.Machine
end

