-- ==== Sys2Proof/Machine/MacCommands.lean ====
section
/-! DEFINITION. The MAC command codec (`42_mac_commands.md`): the registry, the slot map with its range checks, the body of each command shape, command streams, and the operations CMD_DEC and CMD_ENC. -/

namespace Sys2Proof.Machine

/-! ## The registry (rules R67 to R69) -/

/-- The MAC commands (rule R67). -/
inductive CmdId where
  | linkCheck
  | linkADR
  | dutyCycle
  | rxParamSetup
  | devStatus
  | newChannel
  | rxTimingSetup
deriving DecidableEq, Repr

/-- The two shapes of a command (rule R68). -/
inductive Shape where
  | req
  | ans
deriving DecidableEq, Repr

/-- The id byte of a command (rule R67). -/
def CmdId.byte : CmdId → Byte
  | .linkCheck => 0x02
  | .linkADR => 0x03
  | .dutyCycle => 0x04
  | .rxParamSetup => 0x05
  | .devStatus => 0x06
  | .newChannel => 0x07
  | .rxTimingSetup => 0x08

/-- The command an id byte names; `none` outside 0x02..0x08 (rule R69). -/
def CmdId.ofByte (b : Byte) : Option CmdId :=
  if b = 0x02 then some .linkCheck
  else if b = 0x03 then some .linkADR
  else if b = 0x04 then some .dutyCycle
  else if b = 0x05 then some .rxParamSetup
  else if b = 0x06 then some .devStatus
  else if b = 0x07 then some .newChannel
  else if b = 0x08 then some .rxTimingSetup
  else none

/-- Direction 0 carries the Req shapes, direction 1 the Ans shapes (rule R68, conflict C9). -/
def shapeOf (dir : BitVec 1) : Shape := if dir = 0 then .req else .ans

/-- `SIZE(cid, dir)`: bytes of the body (rule R67; LinkCheck Ans 2 and NewChannel Req 5 by
conflicts C1 and C2). -/
def bodySize : CmdId → Shape → Nat
  | .linkCheck, .req => 0
  | .linkCheck, .ans => 2
  | .linkADR, .req => 4
  | .linkADR, .ans => 1
  | .dutyCycle, .req => 1
  | .dutyCycle, .ans => 0
  | .rxParamSetup, .req => 4
  | .rxParamSetup, .ans => 1
  | .devStatus, .req => 0
  | .devStatus, .ans => 2
  | .newChannel, .req => 5
  | .newChannel, .ans => 1
  | .rxTimingSetup, .req => 1
  | .rxTimingSetup, .ans => 0

/-! ## Field slots (rules R70, R71, R73, R74) -/

/-- The value range of a slot a shape uses (rule R70). -/
inductive FieldKind where
  /-- an unsigned field of `n` bits -/
  | unsigned (n : Nat)
  /-- a frequency in Hz (rule R73) -/
  | frequency
  /-- the sign-magnitude margin (rule R74) -/
  | margin
deriving DecidableEq, Repr

/-- The slots F0, F1, ... that a shape uses, in order (rule R70); the other slots are unused. -/
def slotKinds : CmdId → Shape → List FieldKind
  | .linkCheck, .req => []
  | .linkCheck, .ans => [.unsigned 8, .unsigned 8]
  | .linkADR, .req => [.unsigned 4, .unsigned 4, .unsigned 16, .unsigned 3, .unsigned 4]
  | .linkADR, .ans => [.unsigned 1, .unsigned 1, .unsigned 1]
  | .dutyCycle, .req => [.unsigned 4]
  | .dutyCycle, .ans => []
  | .rxParamSetup, .req => [.unsigned 3, .unsigned 4, .frequency]
  | .rxParamSetup, .ans => [.unsigned 1, .unsigned 1, .unsigned 1]
  | .devStatus, .req => []
  | .devStatus, .ans => [.unsigned 8, .margin]
  | .newChannel, .req => [.unsigned 8, .frequency, .unsigned 4, .unsigned 4]
  | .newChannel, .ans => [.unsigned 1, .unsigned 1]
  | .rxTimingSetup, .req => [.unsigned 4]
  | .rxTimingSetup, .ans => []

/-- Whether a slot's value fits its field: the encode's range check (rules R71, R73, R74). -/
def FieldKind.fits : FieldKind → Word → Bool
  | .unsigned n, v => v.toNat < 2 ^ n
  | .frequency, v => v.toNat % 100 = 0 && v.toNat / 100 ≤ 0xFFFFFF
  | .margin, v => -31 ≤ v.toInt && v.toInt ≤ 31

/-- The five slots of an entry. -/
def Entry.slots (e : Entry) : List Word := [e.f0, e.f1, e.f2, e.f3, e.f4]

/-- Every slot the shape uses is in range (rule R71). -/
def Entry.inRange (e : Entry) (kinds : List FieldKind) : Bool :=
  (kinds.zip e.slots).all fun p => p.1.fits p.2

/-- The slot of a frequency: Hz from the 24-bit unit of 100 Hz (rule R73). -/
def freqOfUnits (u : BitVec 24) : Word := u.setWidth 32 * 100

/-- The 24-bit unit of a frequency slot (rule R73). -/
def unitsOfFreq (v : Word) : BitVec 24 := (v / 100).setWidth 24

/-- The slot of a margin byte: magnitude bits 4:0, negated when the sign bit 5 is 1
(rule R74, conflict C4). -/
def marginOfByte (b : Byte) : Word :=
  if b.getLsbD 5 then -((b.extractLsb' 0 5).setWidth 32) else (b.extractLsb' 0 5).setWidth 32

/-- The margin byte of a slot in range (rule R74): `(v < 0 ? 0x20 : 0x00) + |v|`. -/
def byteOfMargin (v : Word) : Byte :=
  (if v.toInt < 0 then 0x20 else 0x00) + BitVec.ofNat 8 v.toInt.natAbs

/-! ## Command bodies (rules R75 to R88) -/

/-- Bits `lo + n - 1 : lo` of a body byte as a slot value. -/
def bits (b : Byte) (lo n : Nat) : Word := (b.extractLsb' lo n).setWidth 32

/-- A body byte as a slot value. -/
def whole (b : Byte) : Word := b.setWidth 32

/-- An entry of command `c` with the given slots, the rest 0 (rule R70). -/
def mkEntry (c : CmdId) (f0 f1 f2 f3 f4 : Word) : Entry :=
  { cid := c.byte, f0 := f0, f1 := f1, f2 := f2, f3 := f3, f4 := f4 }

/-- `DecodeBody(cid, dir, b)` of a body of `bodySize` bytes. RFU bits are not read (rule R72). -/
def decodeBody (c : CmdId) (sh : Shape) (b : Bytes) : Entry :=
  match c, sh with
  -- R75
  | .linkCheck, .req => mkEntry c 0 0 0 0 0
  -- R76: margin, gwCnt
  | .linkCheck, .ans => mkEntry c (whole (byteAt b 0)) (whole (byteAt b 1)) 0 0 0
  -- R77: dataRate, txPower, chMask, chMaskCntl, nbTrans
  | .linkADR, .req =>
    mkEntry c (bits (byteAt b 0) 4 4) (bits (byteAt b 0) 0 4) ((readLE16 b 1).setWidth 32)
      (bits (byteAt b 3) 4 3) (bits (byteAt b 3) 0 4)
  -- R78: powerAck, dataRateAck, channelMaskAck
  | .linkADR, .ans =>
    mkEntry c (bits (byteAt b 0) 2 1) (bits (byteAt b 0) 1 1) (bits (byteAt b 0) 0 1) 0 0
  -- R79: maxDCycle
  | .dutyCycle, .req => mkEntry c (bits (byteAt b 0) 0 4) 0 0 0 0
  -- R80
  | .dutyCycle, .ans => mkEntry c 0 0 0 0 0
  -- R81: rx1DRoffset, rx2DataRate, frequency
  | .rxParamSetup, .req =>
    mkEntry c (bits (byteAt b 0) 4 3) (bits (byteAt b 0) 0 4) (freqOfUnits (readLE24 b 1)) 0 0
  -- R82: rx1DRoffsetAck, rx2DataRateAck, channelAck
  | .rxParamSetup, .ans =>
    mkEntry c (bits (byteAt b 0) 2 1) (bits (byteAt b 0) 1 1) (bits (byteAt b 0) 0 1) 0 0
  -- R83
  | .devStatus, .req => mkEntry c 0 0 0 0 0
  -- R84: battery, margin
  | .devStatus, .ans => mkEntry c (whole (byteAt b 0)) (marginOfByte (byteAt b 1)) 0 0 0
  -- R85: chIndex, freq, maxDr, minDr
  | .newChannel, .req =>
    mkEntry c (whole (byteAt b 0)) (freqOfUnits (readLE24 b 1)) (bits (byteAt b 4) 4 4)
      (bits (byteAt b 4) 0 4) 0
  -- R86: dataRateRangeOk, channelFreqOk
  | .newChannel, .ans => mkEntry c (bits (byteAt b 0) 1 1) (bits (byteAt b 0) 0 1) 0 0 0
  -- R87: del
  | .rxTimingSetup, .req => mkEntry c (bits (byteAt b 0) 0 4) 0 0 0 0
  -- R88
  | .rxTimingSetup, .ans => mkEntry c 0 0 0 0 0

/-- The low byte of a slot value that fits a byte. -/
def low (v : Word) : Byte := v.setWidth 8

/-- The body bytes of an entry whose used slots are in range. RFU bits are 0 (rule R72). -/
def bodyBytes (c : CmdId) (sh : Shape) (e : Entry) : Bytes :=
  match c, sh with
  | .linkCheck, .req => []
  | .linkCheck, .ans => [low e.f0, low e.f1]
  | .linkADR, .req =>
    [low (e.f0 * 16 + e.f1)] ++ le16 (e.f2.setWidth 16) ++ [low (e.f3 * 16 + e.f4)]
  | .linkADR, .ans => [low (e.f0 * 4 + e.f1 * 2 + e.f2)]
  | .dutyCycle, .req => [low e.f0]
  | .dutyCycle, .ans => []
  | .rxParamSetup, .req => [low (e.f0 * 16 + e.f1)] ++ le24 (unitsOfFreq e.f2)
  | .rxParamSetup, .ans => [low (e.f0 * 4 + e.f1 * 2 + e.f2)]
  | .devStatus, .req => []
  | .devStatus, .ans => [low e.f0, byteOfMargin e.f1]
  | .newChannel, .req => [low e.f0] ++ le24 (unitsOfFreq e.f1) ++ [low (e.f2 * 16 + e.f3)]
  | .newChannel, .ans => [low (e.f0 * 2 + e.f1)]
  | .rxTimingSetup, .req => [low e.f0]
  | .rxTimingSetup, .ans => []

/-- `EncodeBody(cid, dir, F0, .., F4)`: RangeError when a used slot does not fit its field
(rules R71, R75 to R88). -/
def encodeBody (c : CmdId) (sh : Shape) (e : Entry) : Except ErrKind Bytes :=
  if e.inRange (slotKinds c sh) then .ok (bodyBytes c sh e) else .error .rangeError

/-! ## Command streams (rules R89, R90) -/

/-- `DecodeCommandStream` with a bound on the number of commands. Every command takes at least its
id byte, so the length of the stream is bound enough, and the last case is not reached. -/
def decodeStreamUpTo (sh : Shape) : Nat → Bytes → Except ErrKind (List Entry)
  | _, [] => .ok []
  | n + 1, cid :: rest =>
    match CmdId.ofByte cid with
    | none => .error .unknownCommandError
    | some c =>
      if bodySize c sh > rest.length then .error .unknownCommandError
      else
        match decodeStreamUpTo sh n (rest.drop (bodySize c sh)) with
        | .error k => .error k
        | .ok cmds => .ok (decodeBody c sh (rest.take (bodySize c sh)) :: cmds)
  | 0, _ :: _ => .error .unknownCommandError

/-- `DecodeCommandStream(s, dir)` (rule R89). -/
def decodeStream (sh : Shape) (s : Bytes) : Except ErrKind (List Entry) :=
  decodeStreamUpTo sh s.length s

/-- One entry of a stream: its id byte and its body; an unknown id is reported before a field range
error (rule R90). -/
def encodeEntry (sh : Shape) (e : Entry) : Except ErrKind Bytes :=
  match CmdId.ofByte e.cid with
  | none => .error .unknownCommandError
  | some c =>
    match encodeBody c sh e with
    | .error k => .error k
    | .ok body => .ok (e.cid :: body)

/-- `EncodeCommandStream(entries, dir)` (rule R90): the first failing entry decides the error. -/
def encodeStream (sh : Shape) : List Entry → Except ErrKind Bytes
  | [] => .ok []
  | e :: es =>
    match encodeEntry sh e with
    | .error k => .error k
    | .ok b =>
      match encodeStream sh es with
      | .error k => .error k
      | .ok bs => .ok (b ++ bs)

/-! ## Operations -/

/-- What CMD_DEC decodes (rule R92). -/
def cmdDecList (s : State) : Except ErrKind (List Entry) :=
  match s.checkedLen with
  | .error k => .error k
  | .ok len =>
    if len > Config.foptsMax then .error .rangeError
    else decodeStream (shapeOf s.dir) (s.input len)

/-- CMD_DEC's commit (rule R92): `CLIST[0..c)` and CCOUNT. -/
def cmdDecCommit (s : State) (cmds : List Entry) : State :=
  { s with mem := s.mem.writeEntries 0 cmds, ccount := BitVec.ofNat 4 cmds.length }

/-- CMD_DEC (rule R92). -/
def execCmdDec (s : State) : Result := complete 0x10 s ((cmdDecList s).map (cmdDecCommit s))

/-- The stream that CMD_ENC encodes (rule R93). -/
def cmdEncBytes (s : State) : Except ErrKind Bytes :=
  match encodeStream (shapeOf s.dir) (s.readEntries s.ccount.toNat) with
  | .error k => .error k
  | .ok b => if b.length > Config.foptsMax then .error .rangeError else .ok b

/-- CMD_ENC (rule R93). -/
def execCmdEnc (s : State) : Result := completeOutput 0x11 s (cmdEncBytes s)

end Sys2Proof.Machine
end

