-- ==== Sys2Proof/Machine/Header.lean ====
section
/-! DEFINITION. MHDR and the data-frame header (`41_header_codec.md`): MHDR_DEC, MHDR_ENC, FRAME_DEC, FRAME_ENC. -/

namespace Sys2Proof.Machine

/-! ## MHDR -/

/-- The byte MHDR_DEC reads; no field of it is checked (rule R62). -/
def mhdrDecByte (s : State) : Except ErrKind Byte :=
  match s.checkedLen with
  | .error k => .error k
  | .ok len => if len < 1 then .error .sizeError else .ok (byteAt (s.input len) 0)

/-- MHDR_DEC (rule R62). -/
def execMhdrDec (s : State) : Result :=
  complete 0x01 s ((mhdrDecByte s).map fun b => { s with mhdr := b })

/-- MHDR_ENC (rule R63). -/
def execMhdrEnc (s : State) : Result := completeOutput 0x02 s (.ok [s.mhdr])

/-! ## FRAME_DEC -/

/-- What FRAME_DEC finds in a message (rules R59, R64). -/
structure Frame where
  mhdr    : Byte
  devaddr : Word
  fctrl   : Byte
  fcnt    : BitVec 16
  /-- `present * 256 + port` -/
  fport   : BitVec 9
  dir     : BitVec 1
  cmds    : List Entry
  payload : Bytes
deriving DecidableEq, Repr

/-- The payload region of a message, FPort and FRMPayload, after `n` bytes of options (rule R64). -/
def portAndPayload (m : Bytes) (n : Nat) : BitVec 9 × Bytes :=
  if m.length - 8 - n = 0 then (0, []) else (1#1 ++ byteAt m (8 + n), m.drop (9 + n))

/-- FRAME_DEC's checks and fields, on the whole message, in the order of rule R64. -/
def parseFrame (m : Bytes) : Except ErrKind Frame :=
  if m.length < 8 then .error .sizeError
  else
    let mhdr := byteAt m 0
    let mt := mtypeOf mhdr
    let fctrl := byteAt m 5
    let n := (foptsLenOf fctrl).toNat
    if majorOf mhdr ≠ 0 then .error .rangeError
    else if isDataType mt = false then .error .consistencyError
    else if 8 + n > m.length then .error .sizeError
    else
      match decodeStream (shapeOf (dirOf mt)) ((m.drop 8).take n) with
      | .error k => .error k
      | .ok cmds =>
        if m.length - 8 - n = 1 then .error .consistencyError
        else .ok
          { mhdr := mhdr
            devaddr := readLE32 m 1
            fctrl := fctrl
            fcnt := readLE16 m 6
            fport := (portAndPayload m n).1
            dir := dirOf mt
            cmds := cmds
            payload := (portAndPayload m n).2 }

/-- What FRAME_DEC decodes from the state (rule R64). -/
def frameDecFrame (s : State) : Except ErrKind Frame :=
  match s.checkedLen with
  | .error k => .error k
  | .ok len => parseFrame (s.input len)

/-- FRAME_DEC's commit (rule R64). -/
def frameDecCommit (s : State) (f : Frame) : State :=
  { s with
    mhdr := f.mhdr
    devaddr := f.devaddr
    fctrl := f.fctrl
    fcnt := f.fcnt
    fport := f.fport
    dir := f.dir
    ccount := BitVec.ofNat 4 f.cmds.length
    olen := BitVec.ofNat 9 f.payload.length
    mem := (s.mem.writeEntries 0 f.cmds).writeBytes Config.obufBase f.payload }

/-- FRAME_DEC (rule R64). -/
def execFrameDec (s : State) : Result :=
  complete 0x03 s ((frameDecFrame s).map (frameDecCommit s))

/-! ## FRAME_ENC -/

/-- The message that FRAME_ENC builds around the options `fopts` (rules R59, R65). -/
def frameBytes (s : State) (fopts tail : Bytes) : Bytes :=
  [s.mhdr] ++ le32 s.devaddr ++ [flagsOf s.fctrl ++ BitVec.ofNat 4 fopts.length] ++ le16 s.fcnt
    ++ fopts ++ tail

/-- `[PORT] ‖ FRMPayload`, or nothing when FPort is absent (rule R65). -/
def frameTail (s : State) (len : Nat) : Bytes :=
  if s.portPresent then s.port :: s.input len else []

/-- FRAME_ENC's checks, in the order of rule R65: the encoded options and the whole message. -/
def frameEncBytes (s : State) : Except ErrKind (Bytes × Bytes) :=
  match s.checkedLen with
  | .error k => .error k
  | .ok len =>
    let mt := mtypeOf s.mhdr
    if majorOf s.mhdr ≠ 0 then .error .rangeError
    else if isDataType mt = false then .error .consistencyError
    else
      match encodeStream (shapeOf (dirOf mt)) (s.readEntries s.ccount.toNat) with
      | .error k => .error k
      | .ok fopts =>
        if fopts.length > Config.foptsMax then .error .rangeError
        else if s.portPresent = true ∧ len = 0 then .error .consistencyError
        else if s.portPresent = false ∧ len > 0 then .error .consistencyError
        else if (frameBytes s fopts (frameTail s len)).length > Config.bufSize then .error .sizeError
        else .ok (fopts, frameBytes s fopts (frameTail s len))

/-- FRAME_ENC's commit (rule R65): `OBUF`, `OLEN`, `FCTRL[3:0]`, `DIR`. -/
def frameEncCommit (s : State) (r : Bytes × Bytes) : State :=
  { s.output r.2 with
    fctrl := flagsOf s.fctrl ++ BitVec.ofNat 4 r.1.length
    dir := dirOf (mtypeOf s.mhdr) }

/-- FRAME_ENC (rule R65). -/
def execFrameEnc (s : State) : Result :=
  complete 0x04 s ((frameEncBytes s).map (frameEncCommit s))

end Sys2Proof.Machine
end

