-- ==== Sys2Proof/Machine/Mic.lean ====
section
/-! DEFINITION. The MIC engine (`44_mic_engine.md`): AES-CMAC, B0, and CMAC, MIC_JOIN, MIC_DATA, VERIFY_JOIN, VERIFY_DATA. -/

namespace Sys2Proof.Machine

/-! ## AES-CMAC (rules R105, R106) -/

/-- The 128-bit integer of a block, byte 0 most significant (rule R105). -/
def blockInt (b : Bytes) : BitVec 128 := b.foldl (fun acc x => (acc <<< 8) ||| x.setWidth 128) 0

/-- The block of a 128-bit integer, byte 0 most significant (rule R105). -/
def intBlock (v : BitVec 128) : Bytes := (List.range 16).map fun i => v.extractLsb' (8 * (15 - i)) 8

/-- `dbl(X)` (rule R105). -/
def dbl (b : Bytes) : Bytes :=
  intBlock ((blockInt b <<< 1) ^^^ (if (byteAt b 0).getLsbD 7 then 0x87 else 0))

/-- The block of 16 zero bytes. -/
def zeroBlock : Bytes := List.replicate 16 0x00

/-- Subkey `K1` (rule R105). -/
def subkey1 (key : Bytes) : Bytes := dbl (aes128 key zeroBlock)

/-- Subkey `K2` (rule R105). -/
def subkey2 (key : Bytes) : Bytes := dbl (subkey1 key)

/-- `n` of rule R106: the number of blocks, 1 for the empty message. -/
def cmacBlocks (msg : Bytes) : Nat := if msg.length = 0 then 1 else blockCount msg.length

/-- `M_n` of rule R106: the last block, whole under K1, or padded under K2. -/
def cmacLast (key msg : Bytes) : Bytes :=
  let last := msg.drop (16 * (cmacBlocks msg - 1))
  if msg.length ≠ 0 ∧ msg.length % 16 = 0 then xorBytes last (subkey1 key)
  else xorBytes (last ++ [0x80] ++ List.replicate (15 - last.length) 0x00) (subkey2 key)

/-- `X` after the blocks `M_1 .. M_i` (rule R106). -/
def cmacChain (key msg : Bytes) : Nat → Bytes
  | 0 => zeroBlock
  | i + 1 => aes128 key (xorBytes (cmacChain key msg i) ((msg.drop (16 * i)).take 16))

/-- `CMAC(K, M)` (rule R106): the 16-byte tag. -/
def aesCmac (key msg : Bytes) : Bytes :=
  aes128 key (xorBytes (cmacChain key msg (cmacBlocks msg - 1)) (cmacLast key msg))

/-- The MIC of a tag: `LE32(T, 0)` (rule R107, conflict C5). -/
def micOfTag (tag : Bytes) : Word := readLE32 tag 0

/-- `B0(dir, devaddr, fcnt, len)` (rule R108). -/
def blockB0 (dir : BitVec 1) (devaddr : Word) (fcnt : BitVec 16) (len : Nat) : Bytes :=
  contextBlock 0x49 dir devaddr fcnt (BitVec.ofNat 8 len)

/-! ## CMAC -/

/-- CMAC's tag (rule R109). IllegalCommand comes before every other check (rule R124). -/
def cmacTag (s : State) (k : KSel) : Except ErrKind Bytes :=
  if k = .reserved then .error .illegalCommand
  else
    match s.checkedLen with
    | .error e => .error e
    | .ok len => (s.selectedKey k).map fun key => aesCmac key (s.input len)

/-- CMAC (rule R109): the tag to OBUF, and the MIC. -/
def execCmac (k : KSel) (s : State) : Result :=
  complete 0x30 s ((cmacTag s k).map fun tag => { s.output tag with mic := micOfTag tag })

/-! ## MIC_JOIN and MIC_DATA -/

/-- The join MIC: the message under AppKey (rule R110). -/
def joinMic (s : State) : Except ErrKind Word :=
  match s.checkedLen with
  | .error e => .error e
  | .ok len => (s.requireKey .app).map fun key => micOfTag (aesCmac key (s.input len))

/-- The data-frame MIC: `B0 ‖ message` under NwkSKey (rule R111). -/
def dataMic (s : State) : Except ErrKind Word :=
  match s.checkedLen with
  | .error e => .error e
  | .ok len =>
    if len > 255 then .error .rangeError
    else (s.requireKey .nwks).map fun key =>
      micOfTag (aesCmac key (blockB0 s.dir s.devaddr s.fcnt len ++ s.input len))

/-- MIC_JOIN (rule R110). -/
def execMicJoin (s : State) : Result := complete 0x31 s ((joinMic s).map fun m => { s with mic := m })

/-- MIC_DATA (rule R111). -/
def execMicData (s : State) : Result := complete 0x32 s ((dataMic s).map fun m => { s with mic := m })

/-! ## Verification -/

/-- The comparison of rules R112 and R113: a mismatch under STRICT is IntegrityError, and otherwise
MIC and MICOK are written. -/
def verify (s : State) (strict : Bool) (m : Word) : Except ErrKind State :=
  if m ≠ s.micIn ∧ strict = true then .error .integrityError
  else .ok { s with mic := m, status := { s.status with micok := m == s.micIn } }

/-- VERIFY_JOIN (rule R112). -/
def execVerifyJoin (strict : Bool) (s : State) : Result :=
  complete 0x33 s ((joinMic s).bind (verify s strict))

/-- VERIFY_DATA (rule R113). -/
def execVerifyData (strict : Bool) (s : State) : Result :=
  complete 0x34 s ((dataMic s).bind (verify s strict))

end Sys2Proof.Machine
end

