-- ==== Sys2Proof/Machine/Dispatch.lean ====
section
/-! DEFINITION. exec: the completion of each operation (rules R121, R122), one arm per constructor of Instr. -/

namespace Sys2Proof.Machine

def exec (i : Instr) (s : State) : Host.Outcome State Fault Refusal :=
  match i with
  | .nop => Sys2Proof.Machine.execNop s
  | .mhdrDec => Sys2Proof.Machine.execMhdrDec s
  | .mhdrEnc => Sys2Proof.Machine.execMhdrEnc s
  | .frameDec => Sys2Proof.Machine.execFrameDec s
  | .frameEnc => Sys2Proof.Machine.execFrameEnc s
  | .copy => Sys2Proof.Machine.execCopy s
  | .cmdDec => Sys2Proof.Machine.execCmdDec s
  | .cmdEnc => Sys2Proof.Machine.execCmdEnc s
  | .aesEnc k => Sys2Proof.Machine.execAesEnc k s
  | .keystream => Sys2Proof.Machine.execKeystream s
  | .payloadXor => Sys2Proof.Machine.execPayloadXor s
  | .cmac k => Sys2Proof.Machine.execCmac k s
  | .micJoin => Sys2Proof.Machine.execMicJoin s
  | .micData => Sys2Proof.Machine.execMicData s
  | .verifyJoin strict => Sys2Proof.Machine.execVerifyJoin strict s
  | .verifyData strict => Sys2Proof.Machine.execVerifyData strict s

end Sys2Proof.Machine
end

