-- ==== Sys2Proof/Machine/Engine.lean ====
section
/-! DEFINITION. The engine's step, the completion of the pending operation (rules R115, R120, R121), and one move of the environment's schedule. -/

namespace Sys2Proof.Machine

/-- The completion of the pending word: an illegal word ends with IllegalCommand and nothing of it
is performed (rule R120), a legal one runs its operation (rule R121). -/
def completeWord (w : Word) (s : State) : Result :=
  match decode w with
  | .ok i => exec i s
  | .error _ => complete (opcField w) s (.error .illegalCommand)

/-- The engine has a step exactly when BUSY = 1 (rule R115); otherwise nothing happens. -/
def engineStep (s : State) : Result :=
  match s.pend with
  | some w => completeWord w s
  | none => .next s

/-- A host that polls (`WAIT`, rules R44, R54; log entry 3): its loop ends with the read of STATUS that
returns DONE = 1. Until then the move stays the next one and the engine has its step, so the loop
goes on forever when nothing is pending. The loop's earlier reads change nothing (rule R37). -/
def waitStep (s : State) : Result :=
  if s.status.done then .next (s.hostRead .status)
  else engineStep { s with inputs := .wait :: s.inputs }

/-- One move of the schedule. -/
def inputStep (i : Input) (s : State) : Result :=
  match i with
  | .host a => hostAccess a s
  | .wait => waitStep s
  | .engine => engineStep s
  | .reset => .next s.resetBlock

/-- The next move: the first of the schedule, and when the schedule is exhausted the engine's. -/
def nextMove (s : State) : Result :=
  match s.inputs with
  | [] => engineStep s
  | i :: rest => inputStep i { s with inputs := rest }

/-- `s` with the command word `w` issued and the engine's step next. -/
def State.withIssued (s : State) (w : Word) : State :=
  { s.issue w with inputs := .engine :: s.inputs }

end Sys2Proof.Machine
end

