-- ==== Sys2Proof/Machine/Step.lean ====
section
/-! DEFINITION. One step of the machine: one move of the environment's schedule, or of the engine (rule R115). -/

namespace Sys2Proof.Machine

/-- One step: the first move of the schedule `inputs` (a host access, the engine's completion, a
reset), and with no move left the engine's completion, so that a pending operation is eventually
completed (rule R115). A block that is not busy and has no move to make stays as it is. -/
def step (s : State) : Host.Outcome State Fault Refusal := nextMove s

/-- There is no instruction fetch (rule R45): an operation comes to run by the host's write of its
word to CMD (rule R119). So this state is `s` after that write, the bits of the word above `nbits`
zero, with the engine's completion as its very next step. -/
def State.withFetchWord (s : State) (nbits w : Nat) : State :=
  s.withIssued (BitVec.ofNat 32 (w % 2 ^ nbits))

end Sys2Proof.Machine
end

