-- ==== Sys2Proof/Machine/HostProgram.lean ====
section
/-! DEFINITION. The notation of host programs (rule R54): register names, program lines, and their expansion into moves of the schedule. -/

namespace Sys2Proof.Machine

/-- A `<reg>` of a host program (rule R54): a register or window word by its name. -/
inductive RegName where
  | cmd
  | status
  | ilen
  | olen
  | mhdr
  | devaddr
  | fctrl
  | fcnt
  | fport
  | dir
  | mic
  | micIn
  | ccount
  | keyctl
  /-- `NWKSKEY<j>`, `APPSKEY<j>`, `APPKEY<j>` -/
  | key (k : KeyId) (j : Nat)
  /-- `IBUF+<byte offset>` -/
  | ibuf (off : Nat)
  /-- `OBUF+<byte offset>` -/
  | obuf (off : Nat)
  /-- `CLIST[j].CID` -/
  | clistCid (j : Nat)
  /-- `CLIST[j].F<k>` -/
  | clistSlot (j k : Nat)
deriving DecidableEq, Repr

/-- The window offset of the first word of a key (`10_state.md` section 2.1). -/
def KeyId.base : KeyId → Nat
  | .nwks => 0x040
  | .apps => 0x050
  | .app => 0x060

/-- The window offset of a named word (`10_state.md` section 2.1, rules R28, R30). -/
def RegName.offset : RegName → Nat
  | .cmd => 0x000
  | .status => 0x004
  | .ilen => 0x008
  | .olen => 0x00C
  | .mhdr => 0x010
  | .devaddr => 0x014
  | .fctrl => 0x018
  | .fcnt => 0x01C
  | .fport => 0x020
  | .dir => 0x024
  | .mic => 0x028
  | .micIn => 0x02C
  | .ccount => 0x030
  | .keyctl => 0x034
  | .key k j => k.base + 4 * j
  | .ibuf off => Config.ibufBase + off
  | .obuf off => Config.obufBase + off
  | .clistCid j => clistAddr j
  | .clistSlot j k => clistAddr j + 4 + 4 * k

/-- One line of a host program (rule R54). -/
inductive HostLine where
  /-- `WR <reg>, <value>` -/
  | wr (r : RegName) (v : Word)
  /-- `RD <reg>` -/
  | rd (r : RegName)
  /-- `CMD <MNEMONIC>[.S][, K=<key>]`, the mnemonic by its opcode -/
  | cmd (opc : BitVec 8) (strict : Bool) (key : Option KeyId)
  /-- `WRBUF <hex bytes>` -/
  | wrbuf (b : Bytes)
  /-- `WRKEY <key>, <16 hex bytes>` -/
  | wrkey (k : KeyId) (b : Bytes)
  /-- `RDBUF <n>` -/
  | rdbuf (n : Nat)
  /-- `WAIT` -/
  | wait
deriving DecidableEq, Repr

/-- A 32-bit write of a named word. -/
def hostWr (r : RegName) (v : Word) : Input :=
  .host { off := r.offset, width := .word, kind := .write v }

/-- A 32-bit read of a named word. -/
def hostRd (r : RegName) : Input :=
  .host { off := r.offset, width := .word, kind := .read }

/-- `KSEL` of `K=NWKS`, `K=APPS`, `K=APP`, absent 0 (rule R54). -/
def kselOfKey : Option KeyId → BitVec 2
  | none => 0
  | some .nwks => 0
  | some .apps => 1
  | some .app => 2

/-- The accesses a line expands to (rule R54); WRBUF pads its last word with zero bytes. -/
def HostLine.expand : HostLine → List Input
  | .wr r v => [hostWr r v]
  | .rd r => [hostRd r]
  | .cmd opc strict key => [hostWr .cmd (commandWord opc strict (kselOfKey key))]
  | .wrbuf b =>
    (List.range ((b.length + 3) / 4)).map fun j => hostWr (.ibuf (4 * j)) (readLE32 b (4 * j))
  | .wrkey k b => (List.range 4).map fun j => hostWr (.key k j) (readLE32 b (4 * j))
  | .rdbuf n => (List.range ((n + 3) / 4)).map fun j => hostRd (.obuf (4 * j))
  | .wait => [.wait]

/-- The schedule of a host program: its lines in order (rule R54). -/
def expandProgram (p : List HostLine) : List Input := p.flatMap HostLine.expand

end Sys2Proof.Machine
end

