-- ==== Sys2Proof/Safety.lean ====
section
/-! DEFINITION. The words in which claims are made: how a completed operation leaves the state, what a buffer holds, the invariant of the block, the schedules that never stop, and states that differ only in their keys. -/

namespace Sys2Proof.Machine

/-! ## Completions -/

/-- `s` after an operation of opcode `opc` ended with success, before the writes of its commit
(rules R121, R122): BUSY 0, DONE 1, ERR 0, ECODE 0, LASTOP the opcode, MICOK and WERR as they were. -/
def State.succeeded (s : State) (opc : BitVec 8) : State :=
  { s with
    pend := none
    status := { s.status with done := true, err := false, ecode := none, lastop := opc }
    draws := s.draws + 1 }

/-- `s` after an operation of opcode `opc` ended with the error `k` (rules R122, R123): nothing but
STATUS is written, with ERR 1 and ECODE the error; MICOK falls for IntegrityError alone. -/
def State.failed (s : State) (opc : BitVec 8) (k : ErrKind) : State :=
  { s with
    pend := none
    status :=
      { s.status with
        done := true
        err := true
        micok := if k = .integrityError then false else s.status.micok
        ecode := some k
        lastop := opc }
    draws := s.draws + 1 }

/-! ## Memory -/

/-- The bytes from address `a` on are written and are `b`. -/
def Memory.holds (m : Memory) (a : Nat) (b : Bytes) : Prop :=
  ∀ i, i < b.length → Memory.read m (a + i) = b[i]?

/-- Every byte outside `[a, a+n)` reads in `m'` as it does in `m`, unwritten bytes included. -/
def Memory.sameOutside (m m' : Memory) (a n : Nat) : Prop :=
  ∀ x, x < a ∨ a + n ≤ x → Memory.read m' x = Memory.read m x

/-- `CLIST[j]` is written in full and is `e`: CID at +0x00, the slots F0..F4 from +0x04 (rule R30). -/
def Memory.holdsEntry (m : Memory) (j : Nat) (e : Entry) : Prop :=
  Memory.read m (0x400 + 0x20 * j) = some e.cid
    ∧ Memory.holds m (0x400 + 0x20 * j + 0x04) (e.slots.flatMap le32)

/-- `x` is the address of a stored byte of `CLIST[i .. j)` (rule R30). -/
def Memory.entryByte (x i j : Nat) : Prop :=
  0x400 + 0x20 * i ≤ x ∧ x < 0x400 + 0x20 * j ∧ (x % 0x20 = 0 ∨ 4 ≤ x % 0x20 ∧ x % 0x20 < 0x18)

/-! ## The invariant -/

/-- A CLIST slot word is written whole or not at all: the host writes words (rule R35) and an
operation writes whole entries (rule R31). -/
def Memory.wordWhole (m : Memory) (a : Nat) : Prop :=
  ∀ b, b < 4 → (Memory.read m (a + b)).isSome = (Memory.read m a).isSome

/-- What every step keeps: the canonical form of the memory; OLEN at most 256 with that much of
OBUF written (rules R13, R28); CLIST words whole; while an operation is pending, CMD holds its word
and DONE, ERR and ECODE are 0 (rules R32, R119); ERR only with an error code, and no IntegrityError
with MICOK 1 (rule R122). -/
structure State.Inv (s : State) : Prop where
  mem_wf : Memory.wf s.mem
  olen_le : s.olen.toNat ≤ 256
  output_written : ∀ i, i < s.olen.toNat → (Memory.read s.mem (0x200 + i)).isSome
  slot_whole : ∀ j k, j < 15 → k < 5 → Memory.wordWhole s.mem (0x404 + 0x20 * j + 4 * k)
  pending : ∀ w, s.pend = some w →
    s.cmd = w ∧ s.status.done = false ∧ s.status.err = false ∧ s.status.ecode = none
  err_code : s.status.err = true → s.status.ecode ≠ none
  integrity : s.status.ecode = some .integrityError → s.status.micok = false

/-! ## Schedules -/

/-- A move that rule R35 does not refuse. -/
def Input.admitted : Input → Bool
  | .host a => a.admitted
  | .wait => true
  | .engine => true
  | .reset => true

/-- Every access of the schedule is admitted: the runs that never stop. -/
def State.admitted (s : State) : Prop := ∀ i ∈ s.inputs, i.admitted = true

/-- Every move of the schedule is an admitted host access. -/
def State.hostOnly (s : State) : Prop :=
  ∀ i ∈ s.inputs, ∃ a : Access, i = .host a ∧ a.admitted = true

/-! ## Tables of the spec -/

/-- The row of an operation in the table of rule R118: the error kinds it can end with. -/
def raises : Instr → List ErrKind
  | .nop => [.illegalCommand]
  | .copy => [.illegalCommand]
  | .mhdrDec => [.sizeError, .illegalCommand]
  | .mhdrEnc => [.illegalCommand]
  | .frameDec => [.sizeError, .rangeError, .unknownCommandError, .consistencyError, .illegalCommand]
  | .frameEnc => [.sizeError, .rangeError, .unknownCommandError, .consistencyError, .illegalCommand]
  | .cmdDec => [.sizeError, .rangeError, .unknownCommandError, .illegalCommand]
  | .cmdEnc => [.rangeError, .unknownCommandError, .illegalCommand]
  | .aesEnc _ => [.sizeError, .missingKeyError, .illegalCommand]
  | .keystream => [.sizeError, .missingKeyError, .consistencyError, .illegalCommand]
  | .payloadXor => [.sizeError, .missingKeyError, .consistencyError, .illegalCommand]
  | .cmac _ => [.sizeError, .missingKeyError, .illegalCommand]
  | .micJoin => [.sizeError, .missingKeyError, .illegalCommand]
  | .micData => [.sizeError, .rangeError, .missingKeyError, .illegalCommand]
  | .verifyJoin _ => [.sizeError, .missingKeyError, .integrityError, .illegalCommand]
  | .verifyData _ => [.sizeError, .rangeError, .missingKeyError, .integrityError, .illegalCommand]

/-- The operations that do not read ILEN (rule R125). -/
def ignoresLength : Instr → Bool
  | .nop | .copy | .mhdrEnc | .cmdEnc => true
  | .mhdrDec | .frameDec | .frameEnc | .cmdDec | .aesEnc _ | .keystream | .payloadXor | .cmac _
  | .micJoin | .micData | .verifyJoin _ | .verifyData _ => false

/-- The operations that read no key (`30_encoding.md`, operand summary). -/
def keyless : Instr → Bool
  | .nop | .copy | .mhdrDec | .mhdrEnc | .frameDec | .frameEnc | .cmdDec | .cmdEnc => true
  | .aesEnc _ | .keystream | .payloadXor | .cmac _ | .micJoin | .micData | .verifyJoin _
  | .verifyData _ => false

/-- The clauses of rule R52 that make a command word illegal. -/
def illegalWord (w : Word) : Prop :=
  w.toNat / 2048 ≠ 0
    ∨ (0x05 ≤ w.toNat % 256 ∧ w.toNat % 256 ≤ 0x0E) ∨ (0x12 ≤ w.toNat % 256 ∧ w.toNat % 256 ≤ 0x1F)
    ∨ (0x23 ≤ w.toNat % 256 ∧ w.toNat % 256 ≤ 0x2F) ∨ 0x35 ≤ w.toNat % 256
    ∨ w.toNat / 512 % 4 = 3
    ∨ (w.toNat / 512 % 4 ≠ 0 ∧ w.toNat % 256 ≠ 0x20 ∧ w.toNat % 256 ≠ 0x30)
    ∨ (w.toNat / 256 % 2 = 1 ∧ w.toNat % 256 ≠ 0x33 ∧ w.toNat % 256 ≠ 0x34)

/-- The offsets whose write is dropped while busy, as rule R136 lists them: `CMD`, `ILEN`, `MHDR`,
`DEVADDR`, `FCTRL`, `FCNT`, `FPORT`, `DIR`, `MIC_IN`, `CCOUNT`, `KEYCTL`, a key word, an IBUF word,
a CLIST word. -/
def guardedOffset (off : Nat) : Prop :=
  off ∈ [0x000, 0x008, 0x010, 0x014, 0x018, 0x01C, 0x020, 0x024, 0x02C, 0x030, 0x034]
    ∨ (0x040 ≤ off ∧ off < 0x070) ∨ (0x100 ≤ off ∧ off < 0x200)
    ∨ (0x400 ≤ off ∧ off < 0x5E0 ∧ off % 0x20 < 0x18)

/-- The offsets that hold no register and no stored word (`10_state.md` section 2.1, rule R30). -/
def reservedOffset (off : Nat) : Prop :=
  (0x038 ≤ off ∧ off < 0x040) ∨ (0x070 ≤ off ∧ off < 0x100) ∨ (0x300 ≤ off ∧ off < 0x400)
    ∨ (0x400 ≤ off ∧ off < 0x5E0 ∧ 0x18 ≤ off % 0x20) ∨ (0x5E0 ≤ off ∧ off < 0x800)

/-! ## Command streams -/

/-- An entry with the slots its shape does not use at 0: what a decode gives (rules R70, R91). -/
def Entry.normal (c : CmdId) (sh : Shape) (e : Entry) : Entry :=
  { cid := c.byte
    f0 := if 0 < (slotKinds c sh).length then e.f0 else 0
    f1 := if 1 < (slotKinds c sh).length then e.f1 else 0
    f2 := if 2 < (slotKinds c sh).length then e.f2 else 0
    f3 := if 3 < (slotKinds c sh).length then e.f3 else 0
    f4 := if 4 < (slotKinds c sh).length then e.f4 else 0 }

/-- `normal` of an entry whose id is in the registry; any other entry as it is. -/
def Entry.normalized (sh : Shape) (e : Entry) : Entry :=
  match CmdId.ofByte e.cid with
  | some c => e.normal c sh
  | none => e

/-- Every RFU bit of a body is 0 (rules R72, R75 to R88), and a DevStatus Ans margin is not the
byte 0x20, sign 1 and magnitude 0 (rule R91). -/
def bodyExact (c : CmdId) (sh : Shape) (b : Bytes) : Prop :=
  match c, sh with
  | .linkADR, .req => (byteAt b 3).toNat < 0x80
  | .linkADR, .ans => (byteAt b 0).toNat < 0x08
  | .dutyCycle, .req => (byteAt b 0).toNat < 0x10
  | .rxParamSetup, .req => (byteAt b 0).toNat < 0x80
  | .rxParamSetup, .ans => (byteAt b 0).toNat < 0x08
  | .devStatus, .ans => (byteAt b 1).toNat < 0x40 ∧ byteAt b 1 ≠ 0x20
  | .newChannel, .ans => (byteAt b 0).toNat < 0x04
  | .rxTimingSetup, .req => (byteAt b 0).toNat < 0x10
  | .linkCheck, .req | .linkCheck, .ans | .dutyCycle, .ans | .devStatus, .req | .newChannel, .req
  | .rxTimingSetup, .ans => True

/-- `cid ‖ b` is a command of the stream `s`: it follows a part of `s` that decodes by itself, and
`b` has the size of the body (rule R89). -/
def streamHasCommand (sh : Shape) (s : Bytes) (c : CmdId) (b : Bytes) : Prop :=
  ∃ (p q : Bytes) (es : List Entry), s = p ++ c.byte :: (b ++ q) ∧ decodeStream sh p = .ok es
    ∧ b.length = bodySize c sh

/-! ## Ciphers -/

/-- The integer of a byte sequence, byte 0 most significant (rule R105). -/
def bigEndian (b : Bytes) : Nat := b.foldl (fun n x => 256 * n + x.toNat) 0

/-- The product in GF(2^8) modulo `x^8 + x^4 + x^3 + x + 1`, 0x11B (rule R96): from the top bit of
`b` down, double and reduce, then add `a` where the bit is 1. -/
def fieldMul (a b : Byte) : Byte :=
  (List.range 8).foldl
    (fun acc i =>
      (if 0x80 ≤ acc.toNat then BitVec.ofNat 8 (2 * acc.toNat) ^^^ 0x1B
        else BitVec.ofNat 8 (2 * acc.toNat))
        ^^^ (if b.getLsbD (7 - i) then a else 0))
    0

/-! ## Keys -/

/-- `s` and `t` differ in nothing but the key words. -/
def State.sameButKeys (s t : State) : Prop :=
  t = { s with nwkSKey := t.nwkSKey, appSKey := t.appSKey, appKey := t.appKey }

end Sys2Proof.Machine
end

