-- ==== Sys2Proof/Certificates/Slice0/Obligations.lean ====
section
/-! DEFINITION. The statements about the model. Each docstring names the rules of the spec it states or rests on. A result is stated as a next state `t` that equals the state before with the named writes, so that it says what is unchanged as well as what changed; `State.draws` is the model's own count (log entry 1). -/

open Sys2Proof Sys2Proof.Machine

/-! ## Encoding -/

/-- Rules R48 to R52: a word decodes to an instruction exactly when it is the encoding of that
instruction and the instruction is well formed; so the decode of an encoding gives the instruction
back, and no legal word has a second spelling. -/
def Obligations.LegalWordsAreExactlyTheEncodings : Prop :=
  ∀ (w : Word) (i : Instr), decode w = .ok i ↔ i.wellFormed = true ∧ encode i = w

/-- Rules R52 and R120: the words that the decoder rejects are those of the rule's clauses; such a
word is accepted into CMD and issues all the same, and its completion writes nothing but STATUS,
with IllegalCommand. -/
def Obligations.IllegalWordsIssueAndEndWithIllegalCommand : Prop :=
  ∀ w : Word,
    ((∃ e, decode w = .error e) ↔ illegalWord w)
      ∧ (illegalWord w → ∀ s : State,
          (∀ rest, s.pend = none → s.inputs = .host ⟨0x000, .word, .write w⟩ :: rest →
            step s = .next { s with
              inputs := rest, cmd := w, pend := some w,
              status := { s.status with done := false, err := false, ecode := none } })
          ∧ (s.pend = some w → s.inputs = [] →
              step s = .next (s.failed (w.extractLsb' 0 8) .illegalCommand))
          ∧ (∀ rest, s.pend = some w → s.inputs = .engine :: rest →
              step s = .next ({ s with inputs := rest }.failed (w.extractLsb' 0 8) .illegalCommand)))

/-- The opcode table: words written out from the table's bits decode to their rows. -/
def Obligations.TableWordsDecode : Prop :=
  decodeTableWord 32 0b00000000000000000000000000000000 = some .nop
    ∧ decodeTableWord 32 0b00000000000000000000000000000001 = some .mhdrDec
    ∧ decodeTableWord 32 0b00000000000000000000000000000100 = some .frameEnc
    ∧ decodeTableWord 32 0b00000000000000000000000000001111 = some .copy
    ∧ decodeTableWord 32 0b00000000000000000000000000010001 = some .cmdEnc
    ∧ decodeTableWord 32 0b00000000000000000000010000100000 = some (.aesEnc .app)
    ∧ decodeTableWord 32 0b00000000000000000000000000100010 = some .payloadXor
    ∧ decodeTableWord 32 0b00000000000000000000001000110000 = some (.cmac .apps)
    ∧ decodeTableWord 32 0b00000000000000000000000100110100 = some (.verifyData true)
    ∧ decodeTableWord 32 0b00000000000000000000011000100000 = none

/-! ## Issue and completion -/

/-- Rules R115, R120, R121: when the pending word decodes to `i`, the engine's step is `exec i`. When
the engine has its step is the model's choice (log entry 3): with its move next in the schedule,
with no move left, and under a host that waits. -/
def Obligations.StepRunsThePendingInstruction : Prop :=
  ∀ (s : State) (w : Word) (i : Instr), s.pend = some w → decode w = .ok i →
    (s.inputs = [] → step s = exec i s)
      ∧ (∀ rest, s.inputs = .engine :: rest → step s = exec i { s with inputs := rest })
      ∧ (∀ rest, s.inputs = .wait :: rest → s.status.done = false → step s = exec i s)

/-- Rules R119, R121: the step after `withFetchWord` runs the instruction whose word it placed. That
`withFetchWord` stands for the host's write of the word to CMD is the model's choice (log entry 3);
it issues the word in a busy state too, where rule R136 drops such a write. -/
def Obligations.IssuedInstructionRunsNext : Prop :=
  ∀ (s : State) (i : Instr), i.wellFormed = true →
    step (s.withFetchWord 32 (encode i).toNat) = exec i (s.issue (encode i))

/-- Rule R119: a host write of any word to CMD while BUSY = 0 stores it in CMD and PEND, so BUSY
rises, clears DONE, ERR and ECODE, and changes nothing else; while BUSY = 1 it is dropped. -/
def Obligations.WriteToCmdIssues : Prop :=
  ∀ (s : State) (w : Word) (rest : List Input),
    s.inputs = .host ⟨0x000, .word, .write w⟩ :: rest →
    (s.pend = none →
      step s = .next { s with
        inputs := rest, cmd := w, pend := some w,
        status := { s.status with done := false, err := false, ecode := none } })
    ∧ (s.pend ≠ none →
      step s = .next { s with inputs := rest, status := { s.status with werr := true } })

/-- Rule R122, for every pending word, legal or not: the engine's step answers a next state with
BUSY 0, DONE 1, LASTOP the word's low byte, ERR exactly when there is an error code, WERR as it
was; an IntegrityError leaves MICOK 0, and no other completion but one of VERIFY_JOIN or
VERIFY_DATA changes MICOK. -/
def Obligations.CompletionUpdatesStatus : Prop :=
  ∀ (s : State) (w : Word), s.pend = some w → s.inputs = [] →
    ∃ t, step s = .next t ∧ t.pend = none ∧ t.status.done = true
      ∧ t.status.lastop = w.extractLsb' 0 8
      ∧ (t.status.err = true ↔ t.status.ecode ≠ none)
      ∧ t.status.werr = s.status.werr
      ∧ (t.status.ecode = some .integrityError → t.status.micok = false)
      ∧ (w.toNat % 256 ≠ 0x33 → w.toNat % 256 ≠ 0x34 → t.status.micok = s.status.micok)

/-- Every operation completes (rules R118, R121, R122): exec answers a next state for every instruction and
state. Either STATUS is that of a success, where only a verification may have changed MICOK, or the
operation ended with an error and wrote nothing but STATUS. -/
def Obligations.EveryOperationCompletes : Prop :=
  ∀ (i : Instr) (s : State), ∃ t, exec i s = .next t
    ∧ ((t.pend = none
          ∧ t.status = { (s.succeeded i.opcode).status with micok := t.status.micok }
          ∧ (t.status.micok = s.status.micok
              ∨ ∃ strict, i = .verifyJoin strict ∨ i = .verifyData strict))
        ∨ ∃ k, t = s.failed i.opcode k)

/-- Rule R123 (with R6): an operation that ends with an error has written nothing but STATUS. -/
def Obligations.ErrorsWriteOnlyStatus : Prop :=
  ∀ (i : Instr) (s t : State), exec i s = .next t → t.status.err = true →
    ∃ k, t.status.ecode = some k ∧ t = s.failed i.opcode k

/-- Rule R118: an operation ends with no error kind that its row of the table does not mark. -/
def Obligations.OperationsRaiseOnlyTheirKinds : Prop :=
  ∀ (i : Instr) (s t : State) (k : ErrKind),
    exec i s = .next t → t.status.ecode = some k → k ∈ raises i

/-- Rule R125: every operation that reads ILEN ends with SizeError when ILEN > 256, before any other
check of its own; NOP, COPY, MHDR_ENC and CMD_ENC do not read ILEN: with another ILEN they do the
same, and leave that ILEN as it is (COPY overwrites it). -/
def Obligations.LongInputIsSizeError : Prop :=
  (∀ (i : Instr) (s : State), i.wellFormed = true → ignoresLength i = false →
      256 < s.ilen.toNat → exec i s = .next (s.failed i.opcode .sizeError))
    ∧ (∀ (i : Instr) (s : State) (v : BitVec 9), ignoresLength i = true →
        ∃ t, exec i s = .next t
          ∧ exec i { s with ilen := v }
              = .next (if i = .copy then t else { t with ilen := v }))

/-- Rules R10 and R117: the word a host reads from STATUS, bit by bit with the error codes 1 to 7,
and what a write to it clears, busy or not. -/
def Obligations.StatusWordAndItsWrites : Prop :=
  (∀ s : State, (s.readReg .status).toNat
      = s.pend.isSome.toNat + 2 * s.status.done.toNat + 4 * s.status.err.toNat
        + 8 * s.status.micok.toNat
        + 16 * (match s.status.ecode with
            | none => 0
            | some .sizeError => 1
            | some .rangeError => 2
            | some .unknownCommandError => 3
            | some .missingKeyError => 4
            | some .consistencyError => 5
            | some .integrityError => 6
            | some .illegalCommand => 7)
        + 256 * s.status.werr.toNat + 65536 * s.status.lastop.toNat)
    ∧ ∀ (s : State) (v : Word) (rest : List Input),
        s.inputs = .host ⟨0x004, .word, .write v⟩ :: rest →
        step s = .next { s with
          inputs := rest
          status := { s.status with
            done := s.status.done && !v.getLsbD 1
            err := s.status.err && !v.getLsbD 2
            werr := s.status.werr && !v.getLsbD 8 } }

/-- Rule R143: WERR, once set, is cleared only by a host write of 1 to it or by reset; neither an
issue nor a completion clears it. -/
def Obligations.WriteErrorIsSticky : Prop :=
  ∀ s t : State, step s = .next t → s.status.werr = true → t.status.werr = false →
    ∃ rest, s.inputs = .reset :: rest
      ∨ ∃ v : Word, v.getLsbD 8 = true ∧ s.inputs = .host ⟨0x004, .word, .write v⟩ :: rest

/-- Rule R115: whatever admitted accesses the host still makes, the pending operation completes. The
rule gives weak fairness and no bound; that it completes one step after the last access is the
model's choice (log entry 3: with no move left the engine moves). -/
def Obligations.PendingOperationIsEventuallyCompleted : Prop :=
  ∀ (s : State) (w : Word), s.pend = some w → s.hostOnly →
    ∃ t : State, Host.Core.run Sys2Proof.core (s.inputs.length + 1) s = .next t
      ∧ t.pend = none ∧ t.status.done = true ∧ t.status.lastop = w.extractLsb' 0 8

/-- The model never stops but at an access that rule R35 does not admit: the engine's completion
(rules R115, R121, R122), a reset (rule R131), and the moves that are the model's choice (log entry
3), a waiting host and an empty schedule, all answer a next state. -/
def Obligations.AdmittedScheduleNeverStops : Prop :=
  ∀ s : State, s.admitted → ∃ t, step s = .next t ∧ t.admitted

/-- Rules R44 and R54 (`WAIT`; the model's form of the loop is log entry 3): the move ends with the
read of STATUS that returns DONE = 1; before that the engine completes what is pending while the
host keeps waiting, and with nothing pending the loop goes on. -/
def Obligations.WaitEndsWithDone : Prop :=
  ∀ (s : State) (rest : List Input), s.inputs = .wait :: rest →
    (s.status.done = true →
      step s = .next { s with
        inputs := rest, busData := some (s.readReg .status), draws := s.draws + 1 })
    ∧ (s.status.done = false → s.pend = none → step s = .next s)
    ∧ (∀ w, s.status.done = false → s.pend = some w →
        ∃ t, step s = .next t ∧ t.inputs = .wait :: rest ∧ t.status.done = true)

/-! ## The host's accesses -/

/-- Rule R35: only naturally aligned 32-bit accesses inside the window are admitted; any other is
refused, and every admitted one is answered. -/
def Obligations.BadAccessesAreRefused : Prop :=
  ∀ (s : State) (a : Access) (rest : List Input), s.inputs = .host a :: rest →
    ((a.width ≠ .word ∨ a.off % 4 ≠ 0 ∨ 0x800 ≤ a.off) → step s = .refused .busError)
    ∧ (a.width = .word → a.off % 4 = 0 → a.off < 0x800 → ∃ t, step s = .next t ∧ t.inputs = rest)

/-- Rule R136: while BUSY = 1 a write to an operation's input is dropped and sets WERR, and nothing
else; a write to STATUS is accepted; a write to a read-only register or a reserved offset is
ignored and sets no WERR. -/
def Obligations.WritesWhileBusyAreDropped : Prop :=
  ∀ (s : State) (off : Nat) (v : Word) (rest : List Input), s.pend ≠ none →
    s.inputs = .host ⟨off, .word, .write v⟩ :: rest → off % 4 = 0 → off < 0x800 →
    (guardedOffset off →
      step s = .next { s with inputs := rest, status := { s.status with werr := true } })
    ∧ (off = 0x004 →
      step s = .next { s with inputs := rest, status := s.status.writeOneClear v })
    ∧ (¬ guardedOffset off → off ≠ 0x004 → step s = .next { s with inputs := rest })

/-- Rule R36: a read of a reserved offset or of a key word returns 0, and reserved register bits read
0; a write to a reserved offset, to OLEN, to MIC or to the OBUF window has no effect, busy or not. -/
def Obligations.ReservedAndReadOnlyWords : Prop :=
  (∀ (s : State) (off : Nat) (rest : List Input), off % 4 = 0 →
      s.inputs = .host ⟨off, .word, .read⟩ :: rest →
      (reservedOffset off ∨ (0x040 ≤ off ∧ off < 0x070)) →
      step s = .next { s with inputs := rest, busData := some 0, draws := s.draws + 1 })
    ∧ (∀ (s : State) (off n : Nat) (rest : List Input),
        (off, n) ∈ [(0x008, 9), (0x00C, 9), (0x010, 8), (0x018, 8), (0x01C, 16), (0x020, 9),
          (0x024, 1), (0x030, 4), (0x034, 3)] →
        s.inputs = .host ⟨off, .word, .read⟩ :: rest →
        ∃ d : Word, d.toNat < 2 ^ n ∧
          step s = .next { s with inputs := rest, busData := some d, draws := s.draws + 1 })
    ∧ (∀ (s : State) (off : Nat) (v : Word) (rest : List Input), off % 4 = 0 →
        s.inputs = .host ⟨off, .word, .write v⟩ :: rest →
        (reservedOffset off ∨ off = 0x00C ∨ off = 0x028 ∨ (0x200 ≤ off ∧ off < 0x300)) →
        step s = .next { s with inputs := rest })

/-- Rules R12 to R23: while BUSY = 0 a write to a register stores the bits that are not reserved, and
nothing else; FCTRL[3:0] is read-only to the host. -/
def Obligations.RegisterWritesStoreTheirBits : Prop :=
  ∀ (s : State) (off : Nat) (v : Word) (rest : List Input), s.pend = none →
    s.inputs = .host ⟨off, .word, .write v⟩ :: rest →
    (off = 0x008 → step s = .next { s with inputs := rest, ilen := BitVec.ofNat 9 (v.toNat % 512) })
    ∧ (off = 0x010 → step s = .next { s with inputs := rest, mhdr := BitVec.ofNat 8 (v.toNat % 256) })
    ∧ (off = 0x014 → step s = .next { s with inputs := rest, devaddr := v })
    ∧ (off = 0x018 → step s = .next { s with
        inputs := rest, fctrl := BitVec.ofNat 8 (v.toNat / 16 % 16 * 16 + s.fctrl.toNat % 16) })
    ∧ (off = 0x01C → step s = .next { s with
        inputs := rest, fcnt := BitVec.ofNat 16 (v.toNat % 65536) })
    ∧ (off = 0x020 → step s = .next { s with inputs := rest, fport := BitVec.ofNat 9 (v.toNat % 512) })
    ∧ (off = 0x024 → step s = .next { s with inputs := rest, dir := BitVec.ofNat 1 (v.toNat % 2) })
    ∧ (off = 0x02C → step s = .next { s with inputs := rest, micIn := v })
    ∧ (off = 0x030 → step s = .next { s with inputs := rest, ccount := BitVec.ofNat 4 (v.toNat % 16) })
    ∧ (off = 0x034 → step s = .next { s with inputs := rest, keyctl := BitVec.ofNat 3 (v.toNat % 8) })

/-- Rules R24 and R25: while BUSY = 0 a write to word `j` of a key replaces the four key bytes
`4j..4j+3`, least significant byte first, and changes nothing else; KEYCTL stays too (rule R23). -/
def Obligations.KeyWordWritesReplaceFourBytes : Prop :=
  ∀ (s : State) (k : KeyId) (base j : Nat) (v : Word) (rest : List Input), s.pend = none → j < 4 →
    (k, base) ∈ [(KeyId.nwks, 0x040), (.apps, 0x050), (.app, 0x060)] →
    s.inputs = .host ⟨base + 4 * j, .word, .write v⟩ :: rest →
    ∃ t, step s = .next t
      ∧ t = { s with
          inputs := rest, nwkSKey := t.nwkSKey, appSKey := t.appSKey, appKey := t.appKey }
      ∧ (∀ k', k' ≠ k → t.keyWords k' = s.keyWords k')
      ∧ ∀ i, i < 16 → ((t.keyWords k).bytes)[i]?
          = if 4 * j ≤ i ∧ i < 4 * j + 4 then some (BitVec.ofNat 8 (v.toNat / 256 ^ (i - 4 * j)))
            else ((s.keyWords k).bytes)[i]?

/-- Rules R28, R30, R41, R42: while BUSY = 0 a word written to the IBUF window or to a CLIST slot
stores its four bytes, least significant first, and nothing else, and a read of it right after
returns it; a CID word stores and returns its low byte. -/
def Obligations.BufferWordsReadBack : Prop :=
  ∀ (s : State) (off : Nat) (v : Word) (rest : List Input), s.pend = none → off % 4 = 0 →
    s.inputs = .host ⟨off, .word, .write v⟩ :: .host ⟨off, .word, .read⟩ :: rest →
    ((0x100 ≤ off ∧ off < 0x200) ∨ (0x400 ≤ off ∧ off < 0x5E0 ∧ 4 ≤ off % 0x20 ∧ off % 0x20 < 0x18) →
      ∃ t u, step s = .next t
        ∧ t = { s with inputs := .host ⟨off, .word, .read⟩ :: rest, mem := t.mem }
        ∧ (∀ b, b < 4 → Memory.read t.mem (off + b) = some (BitVec.ofNat 8 (v.toNat / 256 ^ b)))
        ∧ Memory.sameOutside s.mem t.mem off 4
        ∧ step t = .next u ∧ u.busData = some v)
    ∧ (0x400 ≤ off → off < 0x5E0 → off % 0x20 = 0 →
      ∃ t u, step s = .next t
        ∧ t = { s with inputs := .host ⟨off, .word, .read⟩ :: rest, mem := t.mem }
        ∧ Memory.read t.mem off = some (BitVec.ofNat 8 v.toNat)
        ∧ Memory.sameOutside s.mem t.mem off 1
        ∧ step t = .next u ∧ u.busData = some (BitVec.ofNat 32 (v.toNat % 256)))

/-- Rules R37 and R137: a host read changes nothing of the block, busy or not, and returns the current
value: of the registers; of each written byte of an IBUF, OBUF or CLIST slot word, in its lane (rule
R41), whether or not the word's other bytes are written; and of a written CID byte, zero-extended
(rule R30), the CID word's reserved bits being 0 in any case. -/
def Obligations.HostReadsReturnTheCurrentValue : Prop :=
  ∀ (s : State) (off : Nat) (rest : List Input), off % 4 = 0 → off < 0x800 →
    s.inputs = .host ⟨off, .word, .read⟩ :: rest →
    ∃ d : Word,
      step s = .next { s with inputs := rest, busData := some d, draws := s.draws + 1 }
      ∧ (off = 0x000 → d = s.cmd)
      ∧ (off = 0x004 → d = s.readReg .status)
      ∧ (off = 0x008 → d.toNat = s.ilen.toNat)
      ∧ (off = 0x00C → d.toNat = s.olen.toNat)
      ∧ (off = 0x010 → d.toNat = s.mhdr.toNat)
      ∧ (off = 0x014 → d = s.devaddr)
      ∧ (off = 0x018 → d.toNat = s.fctrl.toNat)
      ∧ (off = 0x01C → d.toNat = s.fcnt.toNat)
      ∧ (off = 0x020 → d.toNat = s.fport.toNat)
      ∧ (off = 0x024 → d.toNat = s.dir.toNat)
      ∧ (off = 0x028 → d = s.mic)
      ∧ (off = 0x02C → d = s.micIn)
      ∧ (off = 0x030 → d.toNat = s.ccount.toNat)
      ∧ (off = 0x034 → d.toNat = s.keyctl.toNat)
      ∧ (∀ (b : Nat) (v : Byte), b < 4 →
          (0x100 ≤ off ∧ off < 0x300)
            ∨ (0x400 ≤ off ∧ off < 0x5E0 ∧ 4 ≤ off % 0x20 ∧ off % 0x20 < 0x18) →
          Memory.read s.mem (off + b) = some v → d.toNat / 256 ^ b % 256 = v.toNat)
      ∧ (0x400 ≤ off → off < 0x5E0 → off % 0x20 = 0 →
          d.toNat < 256 ∧ ∀ v : Byte, Memory.read s.mem off = some v → d.toNat = v.toNat)

/-- Rules R25, R32 (c) and R129: the keys leave the block only through the operations that use them.
Two states that differ only in their keys still do so, and return the same words to the host, after
any move of the schedule, unless that is the completion of an operation that uses a key. -/
def Obligations.KeysLeaveOnlyThroughTheirOperations : Prop :=
  ∀ s t : State, s.sameButKeys t →
    (∀ i rest, s.inputs = i :: rest → i ≠ .engine → (i = .wait → s.status.done = true) →
      (step s = .refused .busError ∧ step t = .refused .busError)
        ∨ ∃ s' t', step s = .next s' ∧ step t = .next t' ∧ s'.sameButKeys t')
    ∧ (∀ i : Instr, keyless i = true →
        ∃ s' t', exec i s = .next s' ∧ exec i t = .next t' ∧ s'.sameButKeys t')

/-- Rules R131 to R133: reset, even of a busy block, gives the state of rule R132: every register and
key byte 0, nothing pending, IBUF, OBUF and CLIST unwritten. The last three fields are the model's
own (log entries 1, 3, 4). -/
def Obligations.ResetGivesTheResetState : Prop :=
  ∀ (s : State) (rest : List Input), s.inputs = .reset :: rest →
    step s = .next
      { cmd := 0
        status := { done := false, err := false, micok := false, ecode := none, werr := false,
                    lastop := 0 }
        ilen := 0, olen := 0, mhdr := 0, devaddr := 0, fctrl := 0, fcnt := 0, fport := 0, dir := 0
        mic := 0, micIn := 0, ccount := 0, keyctl := 0
        nwkSKey := ⟨0, 0, 0, 0⟩, appSKey := ⟨0, 0, 0, 0⟩, appKey := ⟨0, 0, 0, 0⟩
        mem := [], pend := none
        busData := s.busData, draws := s.draws + 1, inputs := rest }

/-- Rules R33 and R54, `10_state.md` section 2.1: each register name of a host program stands at the
offset where the block has that register. -/
def Obligations.RegisterNamesMeetTheirRegisters : Prop :=
  [RegName.cmd, .status, .ilen, .olen, .mhdr, .devaddr, .fctrl, .fcnt, .fport, .dir, .mic, .micIn,
      .ccount, .keyctl].map (fun r => windowReg r.offset)
    = [WindowReg.cmd, .status, .ilen, .olen, .mhdr, .devaddr, .fctrl, .fcnt, .fport, .dir, .mic,
      .micIn, .ccount, .keyctl]
    ∧ (∀ k j, j < 4 → windowReg (RegName.key k j).offset = .key k j)
    ∧ (∀ j, j < 64 → windowReg (RegName.ibuf (4 * j)).offset = .ibuf (0x100 + 4 * j)
        ∧ windowReg (RegName.obuf (4 * j)).offset = .obuf (0x200 + 4 * j))
    ∧ (∀ j k, j < 15 → k < 5 →
        windowReg (RegName.clistCid j).offset = .clistCid (0x400 + 0x20 * j)
        ∧ windowReg (RegName.clistSlot j k).offset = .clistSlot (0x404 + 0x20 * j + 4 * k))

/-- Rule R54 (`WRBUF`): the accesses a WRBUF line expands to, made while BUSY = 0, store its bytes
from IBUF[0] on, then zero bytes up to a whole word, and change nothing outside these words. -/
def Obligations.WrbufStoresItsBytes : Prop :=
  ∀ (s : State) (b : Bytes) (rest : List Input), s.pend = none → b.length ≤ 256 →
    s.inputs = (HostLine.wrbuf b).expand ++ rest →
    ∃ t : State, Host.Core.run Sys2Proof.core ((b.length + 3) / 4) s = .next t
      ∧ t = { s with inputs := rest, mem := t.mem }
      ∧ Memory.holds t.mem 0x100 b
      ∧ (∀ i, b.length ≤ i → i < (b.length + 3) / 4 * 4 → Memory.read t.mem (0x100 + i) = some 0x00)
      ∧ Memory.sameOutside s.mem t.mem 0x100 ((b.length + 3) / 4 * 4)

/-! ## The invariant -/

/-- The invariant holds after reset (rule R132). -/
def Obligations.InvariantHoldsAtReset : Prop := State.reset.Inv

/-- Every step keeps the invariant: the memory's canonical form, OLEN and the written part of OBUF,
whole CLIST words, and the agreement of CMD, PEND and STATUS (rules R13, R28, R31, R32, R119, R122). -/
def Obligations.StepKeepsTheInvariant : Prop :=
  ∀ s t : State, s.Inv → step s = .next t → t.Inv

/-! ## Control and MHDR -/

/-- Rule R55: NOP's word, every other word of its opcode illegal (rule R52), and that NOP writes
nothing but STATUS. -/
def Obligations.NopWritesOnlyStatus : Prop :=
  encode .nop = 0x00000000
    ∧ (∀ w : Word, w.toNat % 256 = 0x00 → w ≠ 0x00000000 → illegalWord w)
    ∧ ∀ s : State, exec .nop s = .next (s.succeeded 0x00)

/-- Rule R56: COPY's word, every other word of its opcode illegal (rule R52); `IBUF[0..OLEN)` reads as `OBUF[0..OLEN)` did, unwritten bytes as unwritten,
every other byte as before; ILEN is OLEN; nothing else changes. -/
def Obligations.CopyMovesOutputToInput : Prop :=
  encode .copy = 0x0000000F
    ∧ (∀ w : Word, w.toNat % 256 = 0x0F → w ≠ 0x0000000F → illegalWord w)
    ∧ ∀ s : State, ∃ t, exec .copy s = .next t
    ∧ t = { s.succeeded 0x0F with ilen := s.olen, mem := t.mem }
    ∧ (∀ i, i < s.olen.toNat → Memory.read t.mem (0x100 + i) = Memory.read s.mem (0x200 + i))
    ∧ Memory.sameOutside s.mem t.mem 0x100 s.olen.toNat

/-- Rule R62: MHDR_DEC. -/
def Obligations.MhdrDecReadsOneByte : Prop :=
  encode .mhdrDec = 0x00000001 ∧ ∀ s : State,
    (256 < s.ilen.toNat → exec .mhdrDec s = .next (s.failed 0x01 .sizeError))
    ∧ (s.ilen.toNat < 1 → exec .mhdrDec s = .next (s.failed 0x01 .sizeError))
    ∧ (1 ≤ s.ilen.toNat → s.ilen.toNat ≤ 256 →
        exec .mhdrDec s = .next { s.succeeded 0x01 with mhdr := s.readByte 0x100 })

/-- Rule R63: MHDR_ENC. -/
def Obligations.MhdrEncWritesOneByte : Prop :=
  encode .mhdrEnc = 0x00000002 ∧ ∀ s : State, ∃ t, exec .mhdrEnc s = .next t
    ∧ t = { s.succeeded 0x02 with olen := 1, mem := t.mem }
    ∧ Memory.read t.mem 0x200 = some s.mhdr
    ∧ Memory.sameOutside s.mem t.mem 0x200 1

/-! ## Frames -/

/-- Rule R64: FRAME_DEC, its checks in the rule's order and all it writes. -/
def Obligations.FrameDecFollowsItsRule : Prop :=
  encode .frameDec = 0x00000003 ∧ ∀ s : State,
    (256 < s.ilen.toNat → exec .frameDec s = .next (s.failed 0x03 .sizeError))
    ∧ (s.ilen.toNat < 8 → exec .frameDec s = .next (s.failed 0x03 .sizeError))
    ∧ (8 ≤ s.ilen.toNat → s.ilen.toNat ≤ 256 →
      let m := s.input s.ilen.toNat
      let mhdr := byteAt m 0
      let mt := mhdr.toNat / 32
      let n := (byteAt m 5).toNat % 16
      let r := s.ilen.toNat - 8 - n
      let cmds := decodeStream (if mt % 2 = 0 then .req else .ans) ((m.drop 8).take n)
      (mhdr.toNat % 4 ≠ 0 → exec .frameDec s = .next (s.failed 0x03 .rangeError))
      ∧ (mhdr.toNat % 4 = 0 → mt ∉ [2, 3, 4, 5] →
          exec .frameDec s = .next (s.failed 0x03 .consistencyError))
      ∧ (mhdr.toNat % 4 = 0 → mt ∈ [2, 3, 4, 5] →
        (s.ilen.toNat < 8 + n → exec .frameDec s = .next (s.failed 0x03 .sizeError))
        ∧ (8 + n ≤ s.ilen.toNat →
          (∀ k, cmds = .error k → exec .frameDec s = .next (s.failed 0x03 k))
          ∧ (∀ es, cmds = .ok es →
            (r = 1 → exec .frameDec s = .next (s.failed 0x03 .consistencyError))
            ∧ (r ≠ 1 → ∃ t, exec .frameDec s = .next t
              ∧ t = { s.succeeded 0x03 with
                  mhdr := mhdr
                  devaddr := readLE32 m 1
                  fctrl := byteAt m 5
                  fcnt := readLE16 m 6
                  fport := if r = 0 then 0 else BitVec.ofNat 9 (256 + (byteAt m (8 + n)).toNat)
                  dir := BitVec.ofNat 1 mt
                  ccount := BitVec.ofNat 4 es.length
                  olen := BitVec.ofNat 9 (r - 1)
                  mem := t.mem }
              ∧ es.length ≤ 15
              ∧ (∀ j e, es[j]? = some e → Memory.holdsEntry t.mem j e)
              ∧ (m.drop (9 + n)).length = r - 1
              ∧ Memory.holds t.mem 0x200 (m.drop (9 + n))
              ∧ (∀ x, ¬ Memory.entryByte x 0 es.length → x < 0x200 ∨ 0x200 + (r - 1) ≤ x →
                  Memory.read t.mem x = Memory.read s.mem x))))))

/-- Rule R65: FRAME_ENC, its checks in the rule's order and all it writes. -/
def Obligations.FrameEncFollowsItsRule : Prop :=
  encode .frameEnc = 0x00000004 ∧ ∀ s : State,
    (256 < s.ilen.toNat → exec .frameEnc s = .next (s.failed 0x04 .sizeError))
    ∧ (s.ilen.toNat ≤ 256 →
      let mt := s.mhdr.toNat / 32
      let present := 256 ≤ s.fport.toNat
      let opts := encodeStream (if mt % 2 = 0 then .req else .ans) (s.readEntries s.ccount.toNat)
      (s.mhdr.toNat % 4 ≠ 0 → exec .frameEnc s = .next (s.failed 0x04 .rangeError))
      ∧ (s.mhdr.toNat % 4 = 0 → mt ∉ [2, 3, 4, 5] →
          exec .frameEnc s = .next (s.failed 0x04 .consistencyError))
      ∧ (s.mhdr.toNat % 4 = 0 → mt ∈ [2, 3, 4, 5] →
        (∀ k, opts = .error k → exec .frameEnc s = .next (s.failed 0x04 k))
        ∧ (∀ fopts, opts = .ok fopts →
          (15 < fopts.length → exec .frameEnc s = .next (s.failed 0x04 .rangeError))
          ∧ (fopts.length ≤ 15 →
            (present → s.ilen.toNat = 0 →
              exec .frameEnc s = .next (s.failed 0x04 .consistencyError))
            ∧ (¬ present → 0 < s.ilen.toNat →
              exec .frameEnc s = .next (s.failed 0x04 .consistencyError))
            ∧ ((present ↔ 0 < s.ilen.toNat) →
              let fctrl := BitVec.ofNat 8 (s.fctrl.toNat / 16 * 16 + fopts.length)
              let out := [s.mhdr] ++ le32 s.devaddr ++ [fctrl] ++ le16 s.fcnt ++ fopts
                ++ (if 0 < s.ilen.toNat then BitVec.ofNat 8 s.fport.toNat :: s.input s.ilen.toNat
                    else [])
              (256 < out.length → exec .frameEnc s = .next (s.failed 0x04 .sizeError))
              ∧ (out.length ≤ 256 → ∃ t, exec .frameEnc s = .next t
                ∧ t = { s.succeeded 0x04 with
                    olen := BitVec.ofNat 9 out.length
                    fctrl := fctrl
                    dir := BitVec.ofNat 1 mt
                    mem := t.mem }
                ∧ Memory.holds t.mem 0x200 out
                ∧ Memory.sameOutside s.mem t.mem 0x200 out.length))))))

/-- Rules R64, R65 (`41_header_codec.md` section 3, round trip): what FRAME_ENC builds, COPY and
FRAME_DEC take apart again. The unused slots of the command list come back 0; the PORT bits of an
FPORT with PRESENT 0, which no frame carries, come back 0 (log entry 7). -/
def Obligations.FrameRoundTrip : Prop :=
  ∀ s s1 : State, exec .frameEnc s = .next s1 → s1.status.err = false →
    ∃ s2 s3, exec .copy s1 = .next s2 ∧ exec .frameDec s2 = .next s3 ∧ s3.status.err = false
      ∧ s3.mhdr = s.mhdr ∧ s3.devaddr = s.devaddr ∧ flagsOf s3.fctrl = flagsOf s.fctrl
      ∧ s3.fctrl = s1.fctrl ∧ s3.fcnt = s.fcnt
      ∧ s3.fport = (if 256 ≤ s.fport.toNat then s.fport else 0)
      ∧ s3.dir = s1.dir
      ∧ s3.ccount = s.ccount
      ∧ (∀ j, j < s.ccount.toNat →
          Memory.holdsEntry s3.mem j ((s.readEntry j).normalized (shapeOf s1.dir)))
      ∧ s3.olen = s.ilen
      ∧ Memory.holds s3.mem 0x200 (s.input s.ilen.toNat)

/-! ## MAC commands -/

/-- Rules R67 and R69: the ids and the body sizes of the registry; every other id is unknown. -/
def Obligations.RegistryIsTheTable : Prop :=
  [0x02, 0x03, 0x04, 0x05, 0x06, 0x07, 0x08].map
      (fun b => (CmdId.ofByte b).map fun c => (c, bodySize c .req, bodySize c .ans))
    = [some (.linkCheck, 0, 2), some (.linkADR, 4, 1), some (.dutyCycle, 1, 0),
       some (.rxParamSetup, 4, 1), some (.devStatus, 0, 2), some (.newChannel, 5, 1),
       some (.rxTimingSetup, 1, 0)]
    ∧ ∀ b : Byte, b.toNat < 2 ∨ 8 < b.toNat → CmdId.ofByte b = none

/-- Rules R89 and R69: DecodeCommandStream. -/
def Obligations.CommandStreamDecodeFollowsItsRule : Prop :=
  ∀ sh : Shape, decodeStream sh [] = .ok []
    ∧ (∀ (cid : Byte) (rest : Bytes),
        (cid.toNat < 2 ∨ 8 < cid.toNat →
          decodeStream sh (cid :: rest) = .error .unknownCommandError)
        ∧ (∀ c, CmdId.ofByte cid = some c →
          (rest.length < bodySize c sh →
            decodeStream sh (cid :: rest) = .error .unknownCommandError)
          ∧ (bodySize c sh ≤ rest.length →
            (∀ k, decodeStream sh (rest.drop (bodySize c sh)) = .error k →
              decodeStream sh (cid :: rest) = .error k)
            ∧ (∀ es, decodeStream sh (rest.drop (bodySize c sh)) = .ok es →
              decodeStream sh (cid :: rest)
                = .ok (decodeBody c sh (rest.take (bodySize c sh)) :: es)))))
    ∧ ∀ s es, decodeStream sh s = .ok es → es.length ≤ s.length

/-- Rule R90: EncodeCommandStream; an unknown id is reported before a field out of range, and the
first failing entry decides. -/
def Obligations.CommandStreamEncodeFollowsItsRule : Prop :=
  ∀ sh : Shape, encodeStream sh [] = .ok []
    ∧ ∀ (e : Entry) (es : List Entry),
        (e.cid.toNat < 2 ∨ 8 < e.cid.toNat →
          encodeStream sh (e :: es) = .error .unknownCommandError)
        ∧ ∀ c, CmdId.ofByte e.cid = some c →
          (∀ k, encodeBody c sh e = .error k → encodeStream sh (e :: es) = .error k)
          ∧ ∀ b, encodeBody c sh e = .ok b →
            (∀ k, encodeStream sh es = .error k → encodeStream sh (e :: es) = .error k)
            ∧ ∀ bs, encodeStream sh es = .ok bs → encodeStream sh (e :: es) = .ok (e.cid :: b ++ bs)

/-- Rules R75, R77, R79, R81, R83, R85, R87: the Req bodies, decoded and encoded. -/
def Obligations.RequestBodiesFollowTheirRules : Prop :=
  (∀ b0 b1 b2 b3 b4 : Byte,
      decodeBody .linkCheck .req [] = ⟨0x02, 0, 0, 0, 0, 0⟩
      ∧ decodeBody .linkADR .req [b0, b1, b2, b3]
        = ⟨0x03, BitVec.ofNat 32 (b0.toNat / 16), BitVec.ofNat 32 (b0.toNat % 16),
            BitVec.ofNat 32 (b1.toNat + 256 * b2.toNat), BitVec.ofNat 32 (b3.toNat / 16 % 8),
            BitVec.ofNat 32 (b3.toNat % 16)⟩
      ∧ decodeBody .dutyCycle .req [b0] = ⟨0x04, BitVec.ofNat 32 (b0.toNat % 16), 0, 0, 0, 0⟩
      ∧ decodeBody .rxParamSetup .req [b0, b1, b2, b3]
        = ⟨0x05, BitVec.ofNat 32 (b0.toNat / 16 % 8), BitVec.ofNat 32 (b0.toNat % 16),
            BitVec.ofNat 32 ((b1.toNat + 256 * b2.toNat + 65536 * b3.toNat) * 100), 0, 0⟩
      ∧ decodeBody .devStatus .req [] = ⟨0x06, 0, 0, 0, 0, 0⟩
      ∧ decodeBody .newChannel .req [b0, b1, b2, b3, b4]
        = ⟨0x07, BitVec.ofNat 32 b0.toNat,
            BitVec.ofNat 32 ((b1.toNat + 256 * b2.toNat + 65536 * b3.toNat) * 100),
            BitVec.ofNat 32 (b4.toNat / 16), BitVec.ofNat 32 (b4.toNat % 16), 0⟩
      ∧ decodeBody .rxTimingSetup .req [b0] = ⟨0x08, BitVec.ofNat 32 (b0.toNat % 16), 0, 0, 0, 0⟩)
    ∧ ∀ e : Entry,
      encodeBody .linkCheck .req e = .ok []
      ∧ encodeBody .linkADR .req e
        = (if e.f0.toNat < 16 ∧ e.f1.toNat < 16 ∧ e.f2.toNat < 65536 ∧ e.f3.toNat < 8
              ∧ e.f4.toNat < 16
            then .ok [BitVec.ofNat 8 (e.f0.toNat * 16 + e.f1.toNat), BitVec.ofNat 8 e.f2.toNat,
              BitVec.ofNat 8 (e.f2.toNat / 256), BitVec.ofNat 8 (e.f3.toNat * 16 + e.f4.toNat)]
            else .error .rangeError)
      ∧ encodeBody .dutyCycle .req e
        = (if e.f0.toNat < 16 then .ok [BitVec.ofNat 8 e.f0.toNat] else .error .rangeError)
      ∧ encodeBody .rxParamSetup .req e
        = (if e.f0.toNat < 8 ∧ e.f1.toNat < 16 ∧ e.f2.toNat % 100 = 0
              ∧ e.f2.toNat / 100 ≤ 0xFFFFFF
            then .ok [BitVec.ofNat 8 (e.f0.toNat * 16 + e.f1.toNat),
              BitVec.ofNat 8 (e.f2.toNat / 100), BitVec.ofNat 8 (e.f2.toNat / 100 / 256),
              BitVec.ofNat 8 (e.f2.toNat / 100 / 65536)]
            else .error .rangeError)
      ∧ encodeBody .devStatus .req e = .ok []
      ∧ encodeBody .newChannel .req e
        = (if e.f0.toNat < 256 ∧ e.f1.toNat % 100 = 0 ∧ e.f1.toNat / 100 ≤ 0xFFFFFF
              ∧ e.f2.toNat < 16 ∧ e.f3.toNat < 16
            then .ok [BitVec.ofNat 8 e.f0.toNat, BitVec.ofNat 8 (e.f1.toNat / 100),
              BitVec.ofNat 8 (e.f1.toNat / 100 / 256), BitVec.ofNat 8 (e.f1.toNat / 100 / 65536),
              BitVec.ofNat 8 (e.f2.toNat * 16 + e.f3.toNat)]
            else .error .rangeError)
      ∧ encodeBody .rxTimingSetup .req e
        = (if e.f0.toNat < 16 then .ok [BitVec.ofNat 8 e.f0.toNat] else .error .rangeError)

/-- Rules R76, R78, R80, R82, R84, R86, R88 and, for the margin, R74: the Ans bodies, decoded and
encoded. -/
def Obligations.AnswerBodiesFollowTheirRules : Prop :=
  (∀ b0 b1 : Byte,
      decodeBody .linkCheck .ans [b0, b1]
        = ⟨0x02, BitVec.ofNat 32 b0.toNat, BitVec.ofNat 32 b1.toNat, 0, 0, 0⟩
      ∧ decodeBody .linkADR .ans [b0]
        = ⟨0x03, BitVec.ofNat 32 (b0.toNat / 4 % 2), BitVec.ofNat 32 (b0.toNat / 2 % 2),
            BitVec.ofNat 32 (b0.toNat % 2), 0, 0⟩
      ∧ decodeBody .dutyCycle .ans [] = ⟨0x04, 0, 0, 0, 0, 0⟩
      ∧ decodeBody .rxParamSetup .ans [b0]
        = ⟨0x05, BitVec.ofNat 32 (b0.toNat / 4 % 2), BitVec.ofNat 32 (b0.toNat / 2 % 2),
            BitVec.ofNat 32 (b0.toNat % 2), 0, 0⟩
      ∧ decodeBody .devStatus .ans [b0, b1]
        = ⟨0x06, BitVec.ofNat 32 b0.toNat,
            BitVec.ofInt 32 (if b1.toNat / 32 % 2 = 1 then -((b1.toNat % 32 : Nat) : Int)
              else ((b1.toNat % 32 : Nat) : Int)), 0, 0, 0⟩
      ∧ decodeBody .newChannel .ans [b0]
        = ⟨0x07, BitVec.ofNat 32 (b0.toNat / 2 % 2), BitVec.ofNat 32 (b0.toNat % 2), 0, 0, 0⟩
      ∧ decodeBody .rxTimingSetup .ans [] = ⟨0x08, 0, 0, 0, 0, 0⟩)
    ∧ ∀ e : Entry,
      encodeBody .linkCheck .ans e
        = (if e.f0.toNat < 256 ∧ e.f1.toNat < 256
            then .ok [BitVec.ofNat 8 e.f0.toNat, BitVec.ofNat 8 e.f1.toNat]
            else .error .rangeError)
      ∧ encodeBody .linkADR .ans e
        = (if e.f0.toNat < 2 ∧ e.f1.toNat < 2 ∧ e.f2.toNat < 2
            then .ok [BitVec.ofNat 8 (e.f0.toNat * 4 + e.f1.toNat * 2 + e.f2.toNat)]
            else .error .rangeError)
      ∧ encodeBody .dutyCycle .ans e = .ok []
      ∧ encodeBody .rxParamSetup .ans e
        = (if e.f0.toNat < 2 ∧ e.f1.toNat < 2 ∧ e.f2.toNat < 2
            then .ok [BitVec.ofNat 8 (e.f0.toNat * 4 + e.f1.toNat * 2 + e.f2.toNat)]
            else .error .rangeError)
      ∧ encodeBody .devStatus .ans e
        = (if e.f0.toNat < 256 ∧ -31 ≤ e.f1.toInt ∧ e.f1.toInt ≤ 31
            then .ok [BitVec.ofNat 8 e.f0.toNat,
              BitVec.ofNat 8 ((if e.f1.toInt < 0 then 0x20 else 0x00) + e.f1.toInt.natAbs)]
            else .error .rangeError)
      ∧ encodeBody .newChannel .ans e
        = (if e.f0.toNat < 2 ∧ e.f1.toNat < 2
            then .ok [BitVec.ofNat 8 (e.f0.toNat * 2 + e.f1.toNat)]
            else .error .rangeError)
      ∧ encodeBody .rxTimingSetup .ans e = .ok []

/-- `42_mac_commands.md` section 4, round trip (R91, its first sentence): what encodes decodes back,
unused slots 0 and used slots as they were. -/
def Obligations.CommandStreamRoundTrip : Prop :=
  ∀ (sh : Shape) (es : List Entry) (b : Bytes), encodeStream sh es = .ok b →
    decodeStream sh b = .ok (es.map (Entry.normalized sh))

/-- `42_mac_commands.md` section 4 (R91, its second sentence): a decoded body always encodes again, to
as many bytes, and to the same bytes exactly when its RFU bits are 0 and it holds no margin byte
0x20; and a decoded stream always encodes again, to as many bytes, and to the same bytes exactly
when this holds of the body of each of its commands. -/
def Obligations.DecodedBodiesEncodeAgain : Prop :=
  (∀ (c : CmdId) (sh : Shape) (b : Bytes), b.length = bodySize c sh →
    ∃ b', encodeBody c sh (decodeBody c sh b) = .ok b' ∧ b'.length = b.length
      ∧ (b' = b ↔ bodyExact c sh b))
    ∧ ∀ (sh : Shape) (s : Bytes) (es : List Entry), decodeStream sh s = .ok es →
      ∃ s', encodeStream sh es = .ok s' ∧ s'.length = s.length
        ∧ (s' = s ↔ ∀ c b, streamHasCommand sh s c b → bodyExact c sh b)

/-- Rule R92: CMD_DEC. -/
def Obligations.CmdDecFollowsItsRule : Prop :=
  encode .cmdDec = 0x00000010 ∧ ∀ s : State,
    (256 < s.ilen.toNat → exec .cmdDec s = .next (s.failed 0x10 .sizeError))
    ∧ (15 < s.ilen.toNat → s.ilen.toNat ≤ 256 →
        exec .cmdDec s = .next (s.failed 0x10 .rangeError))
    ∧ (s.ilen.toNat ≤ 15 →
      let cmds := decodeStream (if s.dir.toNat = 0 then .req else .ans) (s.input s.ilen.toNat)
      (∀ k, cmds = .error k → exec .cmdDec s = .next (s.failed 0x10 k))
      ∧ (∀ es, cmds = .ok es → ∃ t, exec .cmdDec s = .next t
        ∧ t = { s.succeeded 0x10 with ccount := BitVec.ofNat 4 es.length, mem := t.mem }
        ∧ es.length ≤ 15
        ∧ (∀ j e, es[j]? = some e → Memory.holdsEntry t.mem j e)
        ∧ (∀ x, ¬ Memory.entryByte x 0 es.length → Memory.read t.mem x = Memory.read s.mem x)))

/-- Rule R93: CMD_ENC. -/
def Obligations.CmdEncFollowsItsRule : Prop :=
  encode .cmdEnc = 0x00000011 ∧ ∀ s : State,
    let opts := encodeStream (if s.dir.toNat = 0 then .req else .ans)
      (s.readEntries s.ccount.toNat)
    (∀ k, opts = .error k → exec .cmdEnc s = .next (s.failed 0x11 k))
    ∧ (∀ b, opts = .ok b →
      (15 < b.length → exec .cmdEnc s = .next (s.failed 0x11 .rangeError))
      ∧ (b.length ≤ 15 → ∃ t, exec .cmdEnc s = .next t
        ∧ t = { s.succeeded 0x11 with olen := BitVec.ofNat 9 b.length, mem := t.mem }
        ∧ Memory.holds t.mem 0x200 b
        ∧ Memory.sameOutside s.mem t.mem 0x200 b.length))

/-! ## Ciphers -/

/-- Rule R3: the little-endian helpers and their inverses. -/
def Obligations.LittleEndianHelpers : Prop :=
  (∀ (b : Bytes) (o : Nat),
      (readLE16 b o).toNat = (byteAt b o).toNat + 256 * (byteAt b (o + 1)).toNat
      ∧ (readLE24 b o).toNat = (byteAt b o).toNat + 256 * (byteAt b (o + 1)).toNat
          + 65536 * (byteAt b (o + 2)).toNat
      ∧ (readLE32 b o).toNat = (byteAt b o).toNat + 256 * (byteAt b (o + 1)).toNat
          + 65536 * (byteAt b (o + 2)).toNat + 16777216 * (byteAt b (o + 3)).toNat)
    ∧ (∀ v : BitVec 16, (le16 v).length = 2 ∧ readLE16 (le16 v) 0 = v)
    ∧ (∀ v : BitVec 24, (le24 v).length = 3 ∧ readLE24 (le24 v) 0 = v)
    ∧ (∀ v : BitVec 32, (le32 v).length = 4 ∧ readLE32 (le32 v) 0 = v)

/-- Rules R95, R96 and R97: the ten rounds of AES-128, and each step of a round on the entries
`s[r][c]` of the state; the S-box is the inverse in GF(2^8) under the affine map. -/
def Obligations.AesRoundsFollowTheirRules : Prop :=
  (∀ (key block : Bytes) (S : Nat → Bytes),
      S 0 = addRoundKey (keySchedule key) 0 block →
      (∀ t, 1 ≤ t → t ≤ 9 → S t = addRoundKey (keySchedule key) t
        (mixColumns (shiftRows (subBytes (S (t - 1)))))) →
      aes128 key block = addRoundKey (keySchedule key) 10 (shiftRows (subBytes (S 9))))
    ∧ (∀ (s : Bytes) (w : List Bytes) (t r c : Nat), r < 4 → c < 4 →
      byteAt (addRoundKey w t s) (r + 4 * c)
        = byteAt s (r + 4 * c) ^^^ byteAt (w.getD (4 * t + c) []) r
      ∧ byteAt (subBytes s) (r + 4 * c) = sbox (byteAt s (r + 4 * c))
      ∧ byteAt (shiftRows s) (r + 4 * c) = byteAt s (r + 4 * ((c + r) % 4))
      ∧ byteAt (mixColumns s) (r + 4 * c)
        = fieldMul 2 (byteAt s (r + 4 * c)) ^^^ fieldMul 3 (byteAt s ((r + 1) % 4 + 4 * c))
          ^^^ byteAt s ((r + 2) % 4 + 4 * c) ^^^ byteAt s ((r + 3) % 4 + 4 * c))
    ∧ ∀ a : Byte, ∃ b : Byte, (a = 0 ∧ b = 0 ∨ fieldMul a b = 1)
      ∧ sbox a = b ^^^ b.rotateLeft 1 ^^^ b.rotateLeft 2 ^^^ b.rotateLeft 3 ^^^ b.rotateLeft 4 ^^^ 0x63

/-- Rule R98: the key expansion, word by word. -/
def Obligations.KeyExpansionFollowsItsRule : Prop :=
  ∀ key : Bytes, key.length = 16 →
    (keySchedule key).length = 44
    ∧ (∀ i, i < 4 → (keySchedule key)[i]? = some ((key.drop (4 * i)).take 4))
    ∧ ∀ i, 4 ≤ i → i < 44 → ∃ p q w : Bytes,
      (keySchedule key)[i - 4]? = some p ∧ (keySchedule key)[i - 1]? = some q
      ∧ (keySchedule key)[i]? = some w ∧ w.length = 4
      ∧ (i % 4 ≠ 0 → w = xorBytes p q)
      ∧ (i % 4 = 0 → ∀ a0 a1 a2 a3, q = [a0, a1, a2, a3] →
        w = xorBytes p [sbox a1 ^^^ byteAt [0x01, 0x02, 0x04, 0x08, 0x10, 0x20, 0x40, 0x80, 0x1B, 0x36]
          (i / 4 - 1), sbox a2, sbox a3, sbox a0])

/-- Rules R50 and R101: AES_ENC for each key select, its checks in order; the reserved select, which
no legal word holds, is IllegalCommand. -/
def Obligations.AesEncFollowsItsRule : Prop :=
  encode (.aesEnc .nwks) = 0x00000020 ∧ encode (.aesEnc .apps) = 0x00000220
    ∧ encode (.aesEnc .app) = 0x00000420
    ∧ ∀ s : State,
      exec (.aesEnc .reserved) s = .next (s.failed 0x20 .illegalCommand)
      ∧ ∀ k key bit, (k, key, bit)
          ∈ [(KSel.nwks, s.nwkSKey, 0), (.apps, s.appSKey, 1), (.app, s.appKey, 2)] →
        (256 < s.ilen.toNat → exec (.aesEnc k) s = .next (s.failed 0x20 .sizeError))
        ∧ (s.ilen.toNat ≠ 16 → exec (.aesEnc k) s = .next (s.failed 0x20 .sizeError))
        ∧ (s.ilen.toNat = 16 → s.keyctl.getLsbD bit = false →
            exec (.aesEnc k) s = .next (s.failed 0x20 .missingKeyError))
        ∧ (s.ilen.toNat = 16 → s.keyctl.getLsbD bit = true → ∃ t, exec (.aesEnc k) s = .next t
          ∧ t = { s.succeeded 0x20 with olen := 16, mem := t.mem }
          ∧ (aes128 key.bytes (s.input 16)).length = 16
          ∧ Memory.holds t.mem 0x200 (aes128 key.bytes (s.input 16))
          ∧ Memory.sameOutside s.mem t.mem 0x200 16)

/-- Rules R99 and R100: the keystream is the first `n` bytes of the encrypted counter blocks. -/
def Obligations.KeystreamIsTheEncryptedCounterBlocks : Prop :=
  ∀ (key : Bytes) (dir : BitVec 1) (da : Word) (fc : BitVec 16) (n : Nat), n ≤ 256 →
    (keystreamBytes key dir da fc n).length = n
    ∧ ∀ i, i < n → (keystreamBytes key dir da fc n)[i]?
        = (aes128 key
            [0x01, 0x00, 0x00, 0x00, 0x00, BitVec.ofNat 8 dir.toNat,
             BitVec.ofNat 8 da.toNat, BitVec.ofNat 8 (da.toNat / 256),
             BitVec.ofNat 8 (da.toNat / 65536), BitVec.ofNat 8 (da.toNat / 16777216),
             BitVec.ofNat 8 fc.toNat, BitVec.ofNat 8 (fc.toNat / 256), 0x00, 0x00, 0x00,
             BitVec.ofNat 8 (i / 16 + 1)])[i % 16]?

/-- Rules R27 and R102: KEYSTREAM, its checks in order; IBUF is not read; port 0 selects NwkSKey and
every other port AppSKey. -/
def Obligations.KeystreamFollowsItsRule : Prop :=
  encode .keystream = 0x00000021 ∧ ∀ s : State,
    (256 < s.ilen.toNat → exec .keystream s = .next (s.failed 0x21 .sizeError))
    ∧ (s.ilen.toNat ≤ 256 → s.fport.toNat < 256 →
      (0 < s.ilen.toNat → exec .keystream s = .next (s.failed 0x21 .consistencyError))
      ∧ (s.ilen.toNat = 0 → exec .keystream s = .next { s.succeeded 0x21 with olen := 0 }))
    ∧ (s.ilen.toNat ≤ 256 → 256 ≤ s.fport.toNat →
      ∀ key bit, (key, bit) = (if s.fport.toNat % 256 = 0 then (s.nwkSKey, 0) else (s.appSKey, 1)) →
      (s.keyctl.getLsbD bit = false → exec .keystream s = .next (s.failed 0x21 .missingKeyError))
      ∧ (s.keyctl.getLsbD bit = true → ∃ t, exec .keystream s = .next t
        ∧ t = { s.succeeded 0x21 with olen := s.ilen, mem := t.mem }
        ∧ Memory.holds t.mem 0x200
            (keystreamBytes key.bytes s.dir s.devaddr s.fcnt s.ilen.toNat)
        ∧ Memory.sameOutside s.mem t.mem 0x200 s.ilen.toNat))

/-- Rules R27 and R103: PAYLOAD_XOR, its checks in order; each output byte is the input byte xor the
keystream byte. -/
def Obligations.PayloadXorFollowsItsRule : Prop :=
  encode .payloadXor = 0x00000022 ∧ ∀ s : State,
    (256 < s.ilen.toNat → exec .payloadXor s = .next (s.failed 0x22 .sizeError))
    ∧ (s.ilen.toNat ≤ 256 → s.fport.toNat < 256 →
      (0 < s.ilen.toNat → exec .payloadXor s = .next (s.failed 0x22 .consistencyError))
      ∧ (s.ilen.toNat = 0 → exec .payloadXor s = .next { s.succeeded 0x22 with olen := 0 }))
    ∧ (s.ilen.toNat ≤ 256 → 256 ≤ s.fport.toNat →
      ∀ key bit, (key, bit) = (if s.fport.toNat % 256 = 0 then (s.nwkSKey, 0) else (s.appSKey, 1)) →
      (s.keyctl.getLsbD bit = false → exec .payloadXor s = .next (s.failed 0x22 .missingKeyError))
      ∧ (s.keyctl.getLsbD bit = true → ∃ t, exec .payloadXor s = .next t
        ∧ t = { s.succeeded 0x22 with olen := s.ilen, mem := t.mem }
        ∧ (∀ i, i < s.ilen.toNat → Memory.read t.mem (0x200 + i)
            = some (s.readByte (0x100 + i)
                ^^^ byteAt (keystreamBytes key.bytes s.dir s.devaddr s.fcnt s.ilen.toNat) i))
        ∧ Memory.sameOutside s.mem t.mem 0x200 s.ilen.toNat))

/-- `43_payload_cipher.md` section 3, involution (R104): PAYLOAD_XOR, COPY, PAYLOAD_XOR gives the first
input back. -/
def Obligations.PayloadXorIsAnInvolution : Prop :=
  ∀ s s1 : State, exec .payloadXor s = .next s1 → s1.status.err = false →
    ∃ s2 s3, exec .copy s1 = .next s2 ∧ exec .payloadXor s2 = .next s3 ∧ s3.status.err = false
      ∧ s3.olen = s.ilen ∧ Memory.holds s3.mem 0x200 (s.input s.ilen.toNat)

/-! ## MIC -/

/-- Rules R105 and R106: the subkeys are doublings of 128-bit integers, byte 0 most significant, and
the tag is the last link of the chain `X` over the blocks of the message, the last block whole
under K1, or padded with 0x80 and zeros under K2. -/
def Obligations.CmacFollowsItsAlgorithm : Prop :=
  (∀ b : Bytes, b.length = 16 → (dbl b).length = 16
      ∧ bigEndian (dbl b)
        = (2 * bigEndian b % 2 ^ 128) ^^^ (if 0x80 ≤ (byteAt b 0).toNat then 0x87 else 0))
    ∧ ∀ (key msg : Bytes) (n : Nat) (X : Nat → Bytes),
      n = (if msg.length = 0 then 1 else (msg.length + 15) / 16) →
      X 0 = List.replicate 16 0x00 →
      (∀ i, i + 1 < n → X (i + 1) = aes128 key (xorBytes (X i) ((msg.drop (16 * i)).take 16))) →
      let k1 := dbl (aes128 key (List.replicate 16 0x00))
      let last := msg.drop (16 * (n - 1))
      (msg.length ≠ 0 ∧ msg.length % 16 = 0 →
        aesCmac key msg = aes128 key (xorBytes (X (n - 1)) (xorBytes last k1)))
      ∧ (msg.length = 0 ∨ msg.length % 16 ≠ 0 →
        aesCmac key msg = aes128 key (xorBytes (X (n - 1))
          (xorBytes (last ++ 0x80 :: List.replicate (15 - last.length) 0x00) (dbl k1))))

/-- Rules R50 and R109: CMAC for each key select; the tag goes to OBUF, its first four bytes read
little-endian to MIC (rule R107). -/
def Obligations.CmacFollowsItsRule : Prop :=
  encode (.cmac .nwks) = 0x00000030 ∧ encode (.cmac .apps) = 0x00000230
    ∧ encode (.cmac .app) = 0x00000430
    ∧ ∀ s : State,
      exec (.cmac .reserved) s = .next (s.failed 0x30 .illegalCommand)
      ∧ ∀ k key bit, (k, key, bit)
          ∈ [(KSel.nwks, s.nwkSKey, 0), (.apps, s.appSKey, 1), (.app, s.appKey, 2)] →
        (256 < s.ilen.toNat → exec (.cmac k) s = .next (s.failed 0x30 .sizeError))
        ∧ (s.ilen.toNat ≤ 256 → s.keyctl.getLsbD bit = false →
            exec (.cmac k) s = .next (s.failed 0x30 .missingKeyError))
        ∧ (s.ilen.toNat ≤ 256 → s.keyctl.getLsbD bit = true → ∃ t, exec (.cmac k) s = .next t
          ∧ t = { s.succeeded 0x30 with
              olen := 16
              mic := readLE32 (aesCmac key.bytes (s.input s.ilen.toNat)) 0
              mem := t.mem }
          ∧ (aesCmac key.bytes (s.input s.ilen.toNat)).length = 16
          ∧ Memory.holds t.mem 0x200 (aesCmac key.bytes (s.input s.ilen.toNat))
          ∧ Memory.sameOutside s.mem t.mem 0x200 16)

/-- Rule R110: MIC_JOIN. -/
def Obligations.MicJoinFollowsItsRule : Prop :=
  encode .micJoin = 0x00000031 ∧ ∀ s : State,
    (256 < s.ilen.toNat → exec .micJoin s = .next (s.failed 0x31 .sizeError))
    ∧ (s.ilen.toNat ≤ 256 → s.keyctl.getLsbD 2 = false →
        exec .micJoin s = .next (s.failed 0x31 .missingKeyError))
    ∧ (s.ilen.toNat ≤ 256 → s.keyctl.getLsbD 2 = true →
        exec .micJoin s = .next { s.succeeded 0x31 with
          mic := readLE32 (aesCmac s.appKey.bytes (s.input s.ilen.toNat)) 0 })

/-- Rules R108 and R111: MIC_DATA over B0, written out byte by byte, and the message. -/
def Obligations.MicDataFollowsItsRule : Prop :=
  encode .micData = 0x00000032 ∧ ∀ s : State,
    (256 < s.ilen.toNat → exec .micData s = .next (s.failed 0x32 .sizeError))
    ∧ (s.ilen.toNat = 256 → exec .micData s = .next (s.failed 0x32 .rangeError))
    ∧ (s.ilen.toNat ≤ 255 → s.keyctl.getLsbD 0 = false →
        exec .micData s = .next (s.failed 0x32 .missingKeyError))
    ∧ (s.ilen.toNat ≤ 255 → s.keyctl.getLsbD 0 = true →
        exec .micData s = .next { s.succeeded 0x32 with
          mic := readLE32 (aesCmac s.nwkSKey.bytes
            ([0x49, 0x00, 0x00, 0x00, 0x00, BitVec.ofNat 8 s.dir.toNat,
              BitVec.ofNat 8 s.devaddr.toNat, BitVec.ofNat 8 (s.devaddr.toNat / 256),
              BitVec.ofNat 8 (s.devaddr.toNat / 65536), BitVec.ofNat 8 (s.devaddr.toNat / 16777216),
              BitVec.ofNat 8 s.fcnt.toNat, BitVec.ofNat 8 (s.fcnt.toNat / 256), 0x00, 0x00, 0x00,
              BitVec.ofNat 8 s.ilen.toNat] ++ s.input s.ilen.toNat)) 0 })

/-- Rules R51 and R112: VERIFY_JOIN, strict and not. -/
def Obligations.VerifyJoinFollowsItsRule : Prop :=
  encode (.verifyJoin false) = 0x00000033 ∧ encode (.verifyJoin true) = 0x00000133
    ∧ ∀ (s : State) (strict : Bool),
      (256 < s.ilen.toNat → exec (.verifyJoin strict) s = .next (s.failed 0x33 .sizeError))
      ∧ (s.ilen.toNat ≤ 256 → s.keyctl.getLsbD 2 = false →
          exec (.verifyJoin strict) s = .next (s.failed 0x33 .missingKeyError))
      ∧ (s.ilen.toNat ≤ 256 → s.keyctl.getLsbD 2 = true →
        let mic := readLE32 (aesCmac s.appKey.bytes (s.input s.ilen.toNat)) 0
        (mic = s.micIn → exec (.verifyJoin strict) s = .next { s.succeeded 0x33 with
          mic := mic, status := { (s.succeeded 0x33).status with micok := true } })
        ∧ (mic ≠ s.micIn → strict = false →
          exec (.verifyJoin strict) s = .next { s.succeeded 0x33 with
            mic := mic, status := { (s.succeeded 0x33).status with micok := false } })
        ∧ (mic ≠ s.micIn → strict = true →
          exec (.verifyJoin strict) s = .next (s.failed 0x33 .integrityError)))

/-- Rules R51 and R113: VERIFY_DATA, strict and not; its MIC is the one MIC_DATA computes on the same
state (rule R111). -/
def Obligations.VerifyDataFollowsItsRule : Prop :=
  encode (.verifyData false) = 0x00000034 ∧ encode (.verifyData true) = 0x00000134
    ∧ ∀ (s : State) (strict : Bool),
      (256 < s.ilen.toNat → exec (.verifyData strict) s = .next (s.failed 0x34 .sizeError))
      ∧ (s.ilen.toNat = 256 → exec (.verifyData strict) s = .next (s.failed 0x34 .rangeError))
      ∧ (s.ilen.toNat ≤ 255 → s.keyctl.getLsbD 0 = false →
          exec (.verifyData strict) s = .next (s.failed 0x34 .missingKeyError))
      ∧ (s.ilen.toNat ≤ 255 → s.keyctl.getLsbD 0 = true →
        ∃ t, exec .micData s = .next t ∧ t.status.err = false
        ∧ (t.mic = s.micIn → exec (.verifyData strict) s = .next { s.succeeded 0x34 with
            mic := t.mic, status := { (s.succeeded 0x34).status with micok := true } })
        ∧ (t.mic ≠ s.micIn → strict = false →
          exec (.verifyData strict) s = .next { s.succeeded 0x34 with
            mic := t.mic, status := { (s.succeeded 0x34).status with micok := false } })
        ∧ (t.mic ≠ s.micIn → strict = true →
          exec (.verifyData strict) s = .next (s.failed 0x34 .integrityError)))

/-- `44_mic_engine.md` section 3, determinism (R114): two completions on the same operands write the
same MIC, whatever else the states hold. -/
def Obligations.MicDependsOnItsOperandsAlone : Prop :=
  ∀ s t s' t' : State, t.ilen = s.ilen → t.keyctl = s.keyctl →
    t.input s.ilen.toNat = s.input s.ilen.toNat →
    (t.appKey = s.appKey → exec .micJoin s = .next s' → exec .micJoin t = .next t' →
      s'.status.err = false → t'.mic = s'.mic ∧ t'.status.err = false)
    ∧ (t.nwkSKey = s.nwkSKey → t.dir = s.dir → t.devaddr = s.devaddr → t.fcnt = s.fcnt →
      exec .micData s = .next s' → exec .micData t = .next t' →
      s'.status.err = false → t'.mic = s'.mic ∧ t'.status.err = false)
end

