-- ==== Sys2Proof/Laws/Memory.lean ====
section
/-! SUPPORT. The laws of the memory: a read after a write, what a write leaves alone, and that every memory operation keeps the canonical form. -/

namespace Sys2Proof.Machine

/-! ## One byte -/

@[simp] theorem Memory.read_nil (a : Nat) : Memory.read [] a = none := rfl

theorem Memory.read_write (m : Memory) (a x : Nat) (b : Byte) :
    Memory.read (Memory.write m a b) x = if x = a then some b else Memory.read m x := by
  induction m with
  | nil => simp [Memory.write, Memory.read, eq_comm]
  | cons c m ih =>
    simp only [Memory.write]
    split
    · simp only [Memory.read, eq_comm]
    · split
      · next h => simp only [Memory.read, eq_comm, h]; split <;> simp_all
      · next h1 h2 =>
        simp only [Memory.read, ih]
        split
        · next h => subst h; rw [if_neg (by omega)]
        · rfl

@[simp] theorem Memory.read_write_same (m : Memory) (a : Nat) (b : Byte) :
    Memory.read (Memory.write m a b) a = some b := by
  simp [Memory.read_write]

theorem Memory.read_write_other {m : Memory} {a x : Nat} {b : Byte} (h : x ≠ a) :
    Memory.read (Memory.write m a b) x = Memory.read m x := by
  simp [Memory.read_write, h]

theorem Memory.read_erase (m : Memory) (a x : Nat) :
    Memory.read (Memory.erase m a) x = if x = a then none else Memory.read m x := by
  induction m with
  | nil => simp [Memory.erase]
  | cons c m ih =>
    simp only [Memory.erase] at ih ⊢
    rw [List.filter_cons]
    by_cases h : c.1 = a
    · simp only [h, bne_self_eq_false, Bool.false_eq_true, ↓reduceIte, ih, Memory.read]
      split
      · rfl
      · next hx => rw [if_neg (by omega)]
    · simp only [bne_iff_ne, ne_eq, h, not_false_eq_true, ↓reduceIte, Memory.read, ih]
      split
      · next hc => subst hc; rw [if_neg h]
      · rfl

/-- Two copies of a byte: the copied byte, or no byte, and nothing else (rule R56). -/
theorem Memory.read_copyByte (m : Memory) (src dst x : Nat) :
    Memory.read (Memory.copyByte m src dst) x
      = if x = dst then Memory.read m src else Memory.read m x := by
  simp only [Memory.copyByte]
  split
  · next b h => rw [Memory.read_write, h]
  · next h => rw [Memory.read_erase, h]

/-! ## Byte sequences -/

theorem Memory.read_writeBytes_outside (m : Memory) (a x : Nat) (b : Bytes)
    (h : x < a ∨ a + b.length ≤ x) :
    Memory.read (Memory.writeBytes m a b) x = Memory.read m x := by
  induction b generalizing m a with
  | nil => rfl
  | cons c b ih =>
    simp only [List.length_cons] at h
    rw [Memory.writeBytes, ih _ _ (by omega), Memory.read_write_other (by omega)]

theorem Memory.read_writeBytes_inside (m : Memory) (a i : Nat) (b : Bytes) (h : i < b.length) :
    Memory.read (Memory.writeBytes m a b) (a + i) = b[i]? := by
  induction b generalizing m a i with
  | nil => simp at h
  | cons c b ih =>
    rw [Memory.writeBytes]
    cases i with
    | zero =>
      rw [Memory.read_writeBytes_outside _ _ _ _ (by omega)]
      simp
    | succ i =>
      have := ih (Memory.write m a c) (a + 1) i (by simpa using h)
      rw [show a + (i + 1) = a + 1 + i by omega, this]
      simp

theorem Memory.holds_writeBytes (m : Memory) (a : Nat) (b : Bytes) :
    Memory.holds (Memory.writeBytes m a b) a b :=
  fun i h => Memory.read_writeBytes_inside m a i b h

theorem Memory.sameOutside_writeBytes (m : Memory) (a : Nat) (b : Bytes) :
    Memory.sameOutside m (Memory.writeBytes m a b) a b.length :=
  fun x h => Memory.read_writeBytes_outside m a x b h

theorem Memory.writeBytes_append (m : Memory) (a : Nat) (b c : Bytes) :
    Memory.writeBytes m a (b ++ c) = Memory.writeBytes (Memory.writeBytes m a b) (a + b.length) c := by
  induction b generalizing m a with
  | nil => rfl
  | cons x b ih =>
    simp only [List.cons_append, Memory.writeBytes, ih, List.length_cons]
    congr 1
    omega

/-- A copy between buffers `src` and `dst` of which `dst` lies below: each copied byte, and nothing
else (rule R56). -/
theorem Memory.read_copyBytes (m : Memory) (src dst n x : Nat) (h : dst < src) :
    Memory.read (Memory.copyBytes m src dst n) x
      = if dst ≤ x ∧ x < dst + n then Memory.read m (src + (x - dst)) else Memory.read m x := by
  induction n generalizing x with
  | zero => rw [Memory.copyBytes, if_neg (by omega)]
  | succ n ih =>
    rw [Memory.copyBytes, Memory.read_copyByte, ih, ih]
    by_cases hx : x = dst + n
    · subst hx
      rw [if_pos rfl, if_neg (by omega), if_pos (by omega)]
      congr 1
      omega
    · rw [if_neg hx]
      by_cases hin : dst ≤ x ∧ x < dst + n
      · rw [if_pos hin, if_pos (by omega)]
      · rw [if_neg hin, if_neg (by omega)]

/-! ## The canonical form -/

theorem Memory.mem_write {m : Memory} {a : Nat} {b : Byte} {c : Host.Cell}
    (h : c ∈ Memory.write m a b) : c.1 = a ∨ c ∈ m := by
  induction m with
  | nil => simp_all [Memory.write]
  | cons d m ih =>
    simp only [Memory.write] at h
    split at h
    · simp only [List.mem_cons] at h ⊢
      rcases h with rfl | h
      · exact .inl rfl
      · exact .inr h
    · split at h
      · simp only [List.mem_cons] at h ⊢
        rcases h with rfl | h
        · exact .inl rfl
        · exact .inr (.inr h)
      · simp only [List.mem_cons] at h ⊢
        rcases h with rfl | h
        · exact .inr (.inl rfl)
        · rcases ih h with h | h
          · exact .inl h
          · exact .inr (.inr h)

theorem Memory.sorted_write {m : Memory} (a : Nat) (b : Byte)
    (h : m.Pairwise (fun c d => c.1 < d.1)) :
    (Memory.write m a b).Pairwise (fun c d => c.1 < d.1) := by
  induction m with
  | nil => simp [Memory.write]
  | cons c m ih =>
    rw [List.pairwise_cons] at h
    simp only [Memory.write]
    split
    · next hlt =>
      refine List.pairwise_cons.2 ⟨fun d hd => ?_, List.pairwise_cons.2 h⟩
      rcases List.mem_cons.1 hd with rfl | hd
      · exact hlt
      · have := h.1 d hd; simp only; omega
    · split
      · next heq => exact List.pairwise_cons.2 ⟨fun d hd => by have := h.1 d hd; simp only; omega, h.2⟩
      · refine List.pairwise_cons.2 ⟨fun d hd => ?_, ih h.2⟩
        rcases Memory.mem_write hd with hd | hd
        · omega
        · exact h.1 d hd

theorem Memory.wf_nil : Memory.wf [] := by
  simp [Memory.wf]

theorem Memory.wf_write {m : Memory} {a : Nat} (b : Byte) (h : Memory.wf m)
    (ha : Memory.storable a = true) : Memory.wf (Memory.write m a b) := by
  refine ⟨Memory.sorted_write a b h.1, fun c hc => ?_⟩
  rcases Memory.mem_write hc with hc | hc
  · rw [hc]; exact ha
  · exact h.2 c hc

theorem Memory.wf_erase {m : Memory} (a : Nat) (h : Memory.wf m) : Memory.wf (Memory.erase m a) :=
  ⟨List.Pairwise.filter _ h.1, fun c hc => h.2 c (List.mem_filter.1 hc).1⟩

theorem Memory.wf_writeBytes {m : Memory} {a : Nat} (b : Bytes) (h : Memory.wf m)
    (ha : ∀ i, i < b.length → Memory.storable (a + i) = true) :
    Memory.wf (Memory.writeBytes m a b) := by
  induction b generalizing m a with
  | nil => exact h
  | cons c b ih =>
    rw [Memory.writeBytes]
    refine ih (Memory.wf_write c h (by simpa using ha 0 (by simp))) fun i hi => ?_
    have := ha (i + 1) (by simp only [List.length_cons]; omega)
    rwa [show a + 1 + i = a + (i + 1) by omega]

theorem Memory.wf_copyByte {m : Memory} {src dst : Nat} (h : Memory.wf m)
    (hd : Memory.storable dst = true) : Memory.wf (Memory.copyByte m src dst) := by
  simp only [Memory.copyByte]
  split
  · exact Memory.wf_write _ h hd
  · exact Memory.wf_erase _ h

theorem Memory.wf_copyBytes {m : Memory} {src dst n : Nat} (h : Memory.wf m)
    (hd : ∀ i, i < n → Memory.storable (dst + i) = true) :
    Memory.wf (Memory.copyBytes m src dst n) := by
  induction n with
  | zero => exact h
  | succ n ih => exact Memory.wf_copyByte (ih fun i hi => hd i (by omega)) (hd n (by omega))

theorem clistAddr_eq (j : Nat) : clistAddr j = 0x400 + 0x20 * j := by
  simp only [clistAddr, Config.clistBase, Config.clistStride]

/-- The bytes of IBUF and OBUF are storable (rule R28). -/
theorem Memory.storable_buffer {a : Nat} (h1 : 0x100 ≤ a) (h2 : a < 0x300) :
    Memory.storable a = true := by
  simp [Memory.storable, h1, h2]

/-- The bytes of a CLIST entry that are stored: CID, and the five slots (rule R30). -/
theorem Memory.storable_clist {j o : Nat} (hj : j < 15) (ho : o = 0 ∨ 4 ≤ o ∧ o < 0x18) :
    Memory.storable (clistAddr j + o) = true := by
  have h1 : clistAddr j + o - 0x400 = 0x20 * j + o := by rw [clistAddr_eq]; omega
  have h2 : 0x400 ≤ clistAddr j + o := by rw [clistAddr_eq]; omega
  have h3 : clistAddr j + o < 0x5E0 := by rw [clistAddr_eq]; omega
  have h4 : (0x20 * j + o) % 0x20 = o := by omega
  simp only [Memory.storable, h1, h4, h2, h3]
  rcases ho with rfl | ho
  · simp
  · simp [ho]

/-! ## CLIST entries -/

@[simp] theorem le32_length (v : Word) : (le32 v).length = 4 := rfl

theorem Memory.wf_writeEntry {m : Memory} {j : Nat} (e : Entry) (h : Memory.wf m) (hj : j < 15) :
    Memory.wf (Memory.writeEntry m j e) := by
  refine Memory.wf_writeBytes _ (Memory.wf_write _ h ?_) fun i hi => ?_
  · simpa using Memory.storable_clist hj (.inl rfl)
  · simp only [List.length_append, le32_length] at hi
    rw [Nat.add_assoc]
    exact Memory.storable_clist hj (.inr (by omega))

theorem Memory.wf_writeEntries {m : Memory} {j : Nat} (es : List Entry) (h : Memory.wf m)
    (hj : j + es.length ≤ 15) : Memory.wf (Memory.writeEntries m j es) := by
  induction es generalizing m j with
  | nil => exact h
  | cons e es ih =>
    simp only [List.length_cons] at hj
    rw [Memory.writeEntries]
    exact ih (m := Memory.writeEntry m j e) (j := j + 1) (Memory.wf_writeEntry e h (by omega))
      (by omega)

/-- What is no stored byte of `CLIST[j]` reads as before (rule R31). -/
theorem Memory.read_writeEntry_outside (m : Memory) (j x : Nat) (e : Entry)
    (h : ¬ Memory.entryByte x j (j + 1)) :
    Memory.read (Memory.writeEntry m j e) x = Memory.read m x := by
  have hj := clistAddr_eq j
  rw [Memory.entryByte] at h
  rw [Memory.writeEntry, Memory.read_writeBytes_outside, Memory.read_write_other]
  · rw [hj]; omega
  · rw [hj]; simp only [List.length_append, le32_length]; omega

/-- What is no stored byte of the written entries reads as before (rule R31). -/
theorem Memory.read_writeEntries_outside (m : Memory) (j x : Nat) (es : List Entry)
    (h : ¬ Memory.entryByte x j (j + es.length)) :
    Memory.read (Memory.writeEntries m j es) x = Memory.read m x := by
  induction es generalizing m j with
  | nil => rfl
  | cons e es ih =>
    rw [Memory.entryByte, List.length_cons] at h
    rw [Memory.writeEntries, ih, Memory.read_writeEntry_outside]
    · rw [Memory.entryByte]; omega
    · rw [Memory.entryByte]; omega

theorem Memory.holdsEntry_writeEntry (m : Memory) (j : Nat) (e : Entry) :
    Memory.holdsEntry (Memory.writeEntry m j e) j e := by
  have hj := clistAddr_eq j
  refine ⟨?_, ?_⟩
  · rw [Memory.writeEntry, Memory.read_writeBytes_outside _ _ _ _ (by rw [hj]; omega), hj]
    simp
  · have : e.slots.flatMap le32
        = le32 e.f0 ++ le32 e.f1 ++ le32 e.f2 ++ le32 e.f3 ++ le32 e.f4 := by
      simp [Entry.slots]
    rw [this]
    exact Memory.holds_writeBytes _ _ _

theorem Memory.holdsEntry_congr {m m' : Memory} {j : Nat} {e : Entry}
    (h : ∀ x, 0x400 + 0x20 * j ≤ x → x < 0x400 + 0x20 * j + 0x20 →
      Memory.read m' x = Memory.read m x)
    (he : Memory.holdsEntry m j e) : Memory.holdsEntry m' j e := by
  refine ⟨(h _ (by omega) (by omega)).trans he.1, fun i hi => ?_⟩
  have hl : (e.slots.flatMap le32).length = 20 := rfl
  rw [h _ (by omega) (by omega)]
  exact he.2 i hi

/-- Every entry of a written list stands in CLIST, in order (rule R31). -/
theorem Memory.holdsEntry_writeEntries (m : Memory) (j i : Nat) (es : List Entry) (e : Entry)
    (h : es[i]? = some e) : Memory.holdsEntry (Memory.writeEntries m j es) (j + i) e := by
  induction es generalizing m j i with
  | nil => simp at h
  | cons d es ih =>
    rw [Memory.writeEntries]
    cases i with
    | zero =>
      simp only [List.getElem?_cons_zero, Option.some.injEq] at h
      subst h
      refine Memory.holdsEntry_congr (fun x h1 h2 => ?_) (Memory.holdsEntry_writeEntry m j d)
      exact Memory.read_writeEntries_outside _ _ _ _ (by rw [Memory.entryByte]; omega)
    | succ i =>
      have := ih (Memory.writeEntry m j d) (j + 1) i (by simpa using h)
      rwa [show j + 1 + i = j + (i + 1) by omega] at this

end Sys2Proof.Machine
end

