-- ==== Sys2Proof/Laws/State.lean ====
section
/-! SUPPORT. One lemma per field per named update of State and of STATUS, so that no proof unfolds a record update. -/

namespace Sys2Proof.Machine

variable (s : State) (st : Status)

/-! ### `issue` -/

@[simp] theorem State.issue_cmd (w : Word) : (s.issue w).cmd = w := rfl
@[simp] theorem State.issue_status (w : Word) : (s.issue w).status = s.status.issue := rfl
@[simp] theorem State.issue_ilen (w : Word) : (s.issue w).ilen = s.ilen := rfl
@[simp] theorem State.issue_olen (w : Word) : (s.issue w).olen = s.olen := rfl
@[simp] theorem State.issue_mhdr (w : Word) : (s.issue w).mhdr = s.mhdr := rfl
@[simp] theorem State.issue_devaddr (w : Word) : (s.issue w).devaddr = s.devaddr := rfl
@[simp] theorem State.issue_fctrl (w : Word) : (s.issue w).fctrl = s.fctrl := rfl
@[simp] theorem State.issue_fcnt (w : Word) : (s.issue w).fcnt = s.fcnt := rfl
@[simp] theorem State.issue_fport (w : Word) : (s.issue w).fport = s.fport := rfl
@[simp] theorem State.issue_dir (w : Word) : (s.issue w).dir = s.dir := rfl
@[simp] theorem State.issue_mic (w : Word) : (s.issue w).mic = s.mic := rfl
@[simp] theorem State.issue_micIn (w : Word) : (s.issue w).micIn = s.micIn := rfl
@[simp] theorem State.issue_ccount (w : Word) : (s.issue w).ccount = s.ccount := rfl
@[simp] theorem State.issue_keyctl (w : Word) : (s.issue w).keyctl = s.keyctl := rfl
@[simp] theorem State.issue_nwkSKey (w : Word) : (s.issue w).nwkSKey = s.nwkSKey := rfl
@[simp] theorem State.issue_appSKey (w : Word) : (s.issue w).appSKey = s.appSKey := rfl
@[simp] theorem State.issue_appKey (w : Word) : (s.issue w).appKey = s.appKey := rfl
@[simp] theorem State.issue_mem (w : Word) : (s.issue w).mem = s.mem := rfl
@[simp] theorem State.issue_pend (w : Word) : (s.issue w).pend = some w := rfl
@[simp] theorem State.issue_busData (w : Word) : (s.issue w).busData = s.busData := rfl
@[simp] theorem State.issue_draws (w : Word) : (s.issue w).draws = s.draws := rfl
@[simp] theorem State.issue_inputs (w : Word) : (s.issue w).inputs = s.inputs := rfl

/-! ### `finish` -/

@[simp] theorem State.finish_cmd (opc : BitVec 8) (k : Option ErrKind) :
    (s.finish opc k).cmd = s.cmd := rfl
@[simp] theorem State.finish_status (opc : BitVec 8) (k : Option ErrKind) :
    (s.finish opc k).status = s.status.finish opc k := rfl
@[simp] theorem State.finish_ilen (opc : BitVec 8) (k : Option ErrKind) :
    (s.finish opc k).ilen = s.ilen := rfl
@[simp] theorem State.finish_olen (opc : BitVec 8) (k : Option ErrKind) :
    (s.finish opc k).olen = s.olen := rfl
@[simp] theorem State.finish_mhdr (opc : BitVec 8) (k : Option ErrKind) :
    (s.finish opc k).mhdr = s.mhdr := rfl
@[simp] theorem State.finish_devaddr (opc : BitVec 8) (k : Option ErrKind) :
    (s.finish opc k).devaddr = s.devaddr := rfl
@[simp] theorem State.finish_fctrl (opc : BitVec 8) (k : Option ErrKind) :
    (s.finish opc k).fctrl = s.fctrl := rfl
@[simp] theorem State.finish_fcnt (opc : BitVec 8) (k : Option ErrKind) :
    (s.finish opc k).fcnt = s.fcnt := rfl
@[simp] theorem State.finish_fport (opc : BitVec 8) (k : Option ErrKind) :
    (s.finish opc k).fport = s.fport := rfl
@[simp] theorem State.finish_dir (opc : BitVec 8) (k : Option ErrKind) :
    (s.finish opc k).dir = s.dir := rfl
@[simp] theorem State.finish_mic (opc : BitVec 8) (k : Option ErrKind) :
    (s.finish opc k).mic = s.mic := rfl
@[simp] theorem State.finish_micIn (opc : BitVec 8) (k : Option ErrKind) :
    (s.finish opc k).micIn = s.micIn := rfl
@[simp] theorem State.finish_ccount (opc : BitVec 8) (k : Option ErrKind) :
    (s.finish opc k).ccount = s.ccount := rfl
@[simp] theorem State.finish_keyctl (opc : BitVec 8) (k : Option ErrKind) :
    (s.finish opc k).keyctl = s.keyctl := rfl
@[simp] theorem State.finish_nwkSKey (opc : BitVec 8) (k : Option ErrKind) :
    (s.finish opc k).nwkSKey = s.nwkSKey := rfl
@[simp] theorem State.finish_appSKey (opc : BitVec 8) (k : Option ErrKind) :
    (s.finish opc k).appSKey = s.appSKey := rfl
@[simp] theorem State.finish_appKey (opc : BitVec 8) (k : Option ErrKind) :
    (s.finish opc k).appKey = s.appKey := rfl
@[simp] theorem State.finish_mem (opc : BitVec 8) (k : Option ErrKind) :
    (s.finish opc k).mem = s.mem := rfl
@[simp] theorem State.finish_pend (opc : BitVec 8) (k : Option ErrKind) :
    (s.finish opc k).pend = none := rfl
@[simp] theorem State.finish_busData (opc : BitVec 8) (k : Option ErrKind) :
    (s.finish opc k).busData = s.busData := rfl
@[simp] theorem State.finish_draws (opc : BitVec 8) (k : Option ErrKind) :
    (s.finish opc k).draws = s.draws + 1 := rfl
@[simp] theorem State.finish_inputs (opc : BitVec 8) (k : Option ErrKind) :
    (s.finish opc k).inputs = s.inputs := rfl

/-! ### `succeeded` -/

@[simp] theorem State.succeeded_cmd (opc : BitVec 8) : (s.succeeded opc).cmd = s.cmd := rfl
@[simp] theorem State.succeeded_status (opc : BitVec 8) :
    (s.succeeded opc).status = { s.status with done := true, err := false, ecode := none, lastop := opc } := rfl
@[simp] theorem State.succeeded_ilen (opc : BitVec 8) : (s.succeeded opc).ilen = s.ilen := rfl
@[simp] theorem State.succeeded_olen (opc : BitVec 8) : (s.succeeded opc).olen = s.olen := rfl
@[simp] theorem State.succeeded_mhdr (opc : BitVec 8) : (s.succeeded opc).mhdr = s.mhdr := rfl
@[simp] theorem State.succeeded_devaddr (opc : BitVec 8) :
    (s.succeeded opc).devaddr = s.devaddr := rfl
@[simp] theorem State.succeeded_fctrl (opc : BitVec 8) : (s.succeeded opc).fctrl = s.fctrl := rfl
@[simp] theorem State.succeeded_fcnt (opc : BitVec 8) : (s.succeeded opc).fcnt = s.fcnt := rfl
@[simp] theorem State.succeeded_fport (opc : BitVec 8) : (s.succeeded opc).fport = s.fport := rfl
@[simp] theorem State.succeeded_dir (opc : BitVec 8) : (s.succeeded opc).dir = s.dir := rfl
@[simp] theorem State.succeeded_mic (opc : BitVec 8) : (s.succeeded opc).mic = s.mic := rfl
@[simp] theorem State.succeeded_micIn (opc : BitVec 8) : (s.succeeded opc).micIn = s.micIn := rfl
@[simp] theorem State.succeeded_ccount (opc : BitVec 8) : (s.succeeded opc).ccount = s.ccount := rfl
@[simp] theorem State.succeeded_keyctl (opc : BitVec 8) : (s.succeeded opc).keyctl = s.keyctl := rfl
@[simp] theorem State.succeeded_nwkSKey (opc : BitVec 8) :
    (s.succeeded opc).nwkSKey = s.nwkSKey := rfl
@[simp] theorem State.succeeded_appSKey (opc : BitVec 8) :
    (s.succeeded opc).appSKey = s.appSKey := rfl
@[simp] theorem State.succeeded_appKey (opc : BitVec 8) : (s.succeeded opc).appKey = s.appKey := rfl
@[simp] theorem State.succeeded_mem (opc : BitVec 8) : (s.succeeded opc).mem = s.mem := rfl
@[simp] theorem State.succeeded_pend (opc : BitVec 8) : (s.succeeded opc).pend = none := rfl
@[simp] theorem State.succeeded_busData (opc : BitVec 8) :
    (s.succeeded opc).busData = s.busData := rfl
@[simp] theorem State.succeeded_draws (opc : BitVec 8) :
    (s.succeeded opc).draws = s.draws + 1 := rfl
@[simp] theorem State.succeeded_inputs (opc : BitVec 8) : (s.succeeded opc).inputs = s.inputs := rfl

/-! ### `output` -/

@[simp] theorem State.output_cmd (b : Bytes) : (s.output b).cmd = s.cmd := rfl
@[simp] theorem State.output_status (b : Bytes) : (s.output b).status = s.status := rfl
@[simp] theorem State.output_ilen (b : Bytes) : (s.output b).ilen = s.ilen := rfl
@[simp] theorem State.output_olen (b : Bytes) : (s.output b).olen = BitVec.ofNat 9 b.length := rfl
@[simp] theorem State.output_mhdr (b : Bytes) : (s.output b).mhdr = s.mhdr := rfl
@[simp] theorem State.output_devaddr (b : Bytes) : (s.output b).devaddr = s.devaddr := rfl
@[simp] theorem State.output_fctrl (b : Bytes) : (s.output b).fctrl = s.fctrl := rfl
@[simp] theorem State.output_fcnt (b : Bytes) : (s.output b).fcnt = s.fcnt := rfl
@[simp] theorem State.output_fport (b : Bytes) : (s.output b).fport = s.fport := rfl
@[simp] theorem State.output_dir (b : Bytes) : (s.output b).dir = s.dir := rfl
@[simp] theorem State.output_mic (b : Bytes) : (s.output b).mic = s.mic := rfl
@[simp] theorem State.output_micIn (b : Bytes) : (s.output b).micIn = s.micIn := rfl
@[simp] theorem State.output_ccount (b : Bytes) : (s.output b).ccount = s.ccount := rfl
@[simp] theorem State.output_keyctl (b : Bytes) : (s.output b).keyctl = s.keyctl := rfl
@[simp] theorem State.output_nwkSKey (b : Bytes) : (s.output b).nwkSKey = s.nwkSKey := rfl
@[simp] theorem State.output_appSKey (b : Bytes) : (s.output b).appSKey = s.appSKey := rfl
@[simp] theorem State.output_appKey (b : Bytes) : (s.output b).appKey = s.appKey := rfl
@[simp] theorem State.output_mem (b : Bytes) :
    (s.output b).mem = s.mem.writeBytes Config.obufBase b := rfl
@[simp] theorem State.output_pend (b : Bytes) : (s.output b).pend = s.pend := rfl
@[simp] theorem State.output_busData (b : Bytes) : (s.output b).busData = s.busData := rfl
@[simp] theorem State.output_draws (b : Bytes) : (s.output b).draws = s.draws := rfl
@[simp] theorem State.output_inputs (b : Bytes) : (s.output b).inputs = s.inputs := rfl

/-! ### `hostRead` -/

@[simp] theorem State.hostRead_cmd (r : WindowReg) : (s.hostRead r).cmd = s.cmd := rfl
@[simp] theorem State.hostRead_status (r : WindowReg) : (s.hostRead r).status = s.status := rfl
@[simp] theorem State.hostRead_ilen (r : WindowReg) : (s.hostRead r).ilen = s.ilen := rfl
@[simp] theorem State.hostRead_olen (r : WindowReg) : (s.hostRead r).olen = s.olen := rfl
@[simp] theorem State.hostRead_mhdr (r : WindowReg) : (s.hostRead r).mhdr = s.mhdr := rfl
@[simp] theorem State.hostRead_devaddr (r : WindowReg) : (s.hostRead r).devaddr = s.devaddr := rfl
@[simp] theorem State.hostRead_fctrl (r : WindowReg) : (s.hostRead r).fctrl = s.fctrl := rfl
@[simp] theorem State.hostRead_fcnt (r : WindowReg) : (s.hostRead r).fcnt = s.fcnt := rfl
@[simp] theorem State.hostRead_fport (r : WindowReg) : (s.hostRead r).fport = s.fport := rfl
@[simp] theorem State.hostRead_dir (r : WindowReg) : (s.hostRead r).dir = s.dir := rfl
@[simp] theorem State.hostRead_mic (r : WindowReg) : (s.hostRead r).mic = s.mic := rfl
@[simp] theorem State.hostRead_micIn (r : WindowReg) : (s.hostRead r).micIn = s.micIn := rfl
@[simp] theorem State.hostRead_ccount (r : WindowReg) : (s.hostRead r).ccount = s.ccount := rfl
@[simp] theorem State.hostRead_keyctl (r : WindowReg) : (s.hostRead r).keyctl = s.keyctl := rfl
@[simp] theorem State.hostRead_nwkSKey (r : WindowReg) : (s.hostRead r).nwkSKey = s.nwkSKey := rfl
@[simp] theorem State.hostRead_appSKey (r : WindowReg) : (s.hostRead r).appSKey = s.appSKey := rfl
@[simp] theorem State.hostRead_appKey (r : WindowReg) : (s.hostRead r).appKey = s.appKey := rfl
@[simp] theorem State.hostRead_mem (r : WindowReg) : (s.hostRead r).mem = s.mem := rfl
@[simp] theorem State.hostRead_pend (r : WindowReg) : (s.hostRead r).pend = s.pend := rfl
@[simp] theorem State.hostRead_busData (r : WindowReg) :
    (s.hostRead r).busData = some (s.readReg r) := rfl
@[simp] theorem State.hostRead_draws (r : WindowReg) : (s.hostRead r).draws = s.draws + 1 := rfl
@[simp] theorem State.hostRead_inputs (r : WindowReg) : (s.hostRead r).inputs = s.inputs := rfl

/-! ### `withIssued` -/

@[simp] theorem State.withIssued_cmd (w : Word) : (s.withIssued w).cmd = w := rfl
@[simp] theorem State.withIssued_status (w : Word) : (s.withIssued w).status = s.status.issue := rfl
@[simp] theorem State.withIssued_ilen (w : Word) : (s.withIssued w).ilen = s.ilen := rfl
@[simp] theorem State.withIssued_olen (w : Word) : (s.withIssued w).olen = s.olen := rfl
@[simp] theorem State.withIssued_mhdr (w : Word) : (s.withIssued w).mhdr = s.mhdr := rfl
@[simp] theorem State.withIssued_devaddr (w : Word) : (s.withIssued w).devaddr = s.devaddr := rfl
@[simp] theorem State.withIssued_fctrl (w : Word) : (s.withIssued w).fctrl = s.fctrl := rfl
@[simp] theorem State.withIssued_fcnt (w : Word) : (s.withIssued w).fcnt = s.fcnt := rfl
@[simp] theorem State.withIssued_fport (w : Word) : (s.withIssued w).fport = s.fport := rfl
@[simp] theorem State.withIssued_dir (w : Word) : (s.withIssued w).dir = s.dir := rfl
@[simp] theorem State.withIssued_mic (w : Word) : (s.withIssued w).mic = s.mic := rfl
@[simp] theorem State.withIssued_micIn (w : Word) : (s.withIssued w).micIn = s.micIn := rfl
@[simp] theorem State.withIssued_ccount (w : Word) : (s.withIssued w).ccount = s.ccount := rfl
@[simp] theorem State.withIssued_keyctl (w : Word) : (s.withIssued w).keyctl = s.keyctl := rfl
@[simp] theorem State.withIssued_nwkSKey (w : Word) : (s.withIssued w).nwkSKey = s.nwkSKey := rfl
@[simp] theorem State.withIssued_appSKey (w : Word) : (s.withIssued w).appSKey = s.appSKey := rfl
@[simp] theorem State.withIssued_appKey (w : Word) : (s.withIssued w).appKey = s.appKey := rfl
@[simp] theorem State.withIssued_mem (w : Word) : (s.withIssued w).mem = s.mem := rfl
@[simp] theorem State.withIssued_pend (w : Word) : (s.withIssued w).pend = some w := rfl
@[simp] theorem State.withIssued_busData (w : Word) : (s.withIssued w).busData = s.busData := rfl
@[simp] theorem State.withIssued_draws (w : Word) : (s.withIssued w).draws = s.draws := rfl
@[simp] theorem State.withIssued_inputs (w : Word) :
    (s.withIssued w).inputs = .engine :: s.inputs := rfl

/-! ### `resetBlock` -/

@[simp] theorem State.resetBlock_cmd : (s.resetBlock).cmd = State.reset.cmd := rfl
@[simp] theorem State.resetBlock_status : (s.resetBlock).status = State.reset.status := rfl
@[simp] theorem State.resetBlock_ilen : (s.resetBlock).ilen = State.reset.ilen := rfl
@[simp] theorem State.resetBlock_olen : (s.resetBlock).olen = State.reset.olen := rfl
@[simp] theorem State.resetBlock_mhdr : (s.resetBlock).mhdr = State.reset.mhdr := rfl
@[simp] theorem State.resetBlock_devaddr : (s.resetBlock).devaddr = State.reset.devaddr := rfl
@[simp] theorem State.resetBlock_fctrl : (s.resetBlock).fctrl = State.reset.fctrl := rfl
@[simp] theorem State.resetBlock_fcnt : (s.resetBlock).fcnt = State.reset.fcnt := rfl
@[simp] theorem State.resetBlock_fport : (s.resetBlock).fport = State.reset.fport := rfl
@[simp] theorem State.resetBlock_dir : (s.resetBlock).dir = State.reset.dir := rfl
@[simp] theorem State.resetBlock_mic : (s.resetBlock).mic = State.reset.mic := rfl
@[simp] theorem State.resetBlock_micIn : (s.resetBlock).micIn = State.reset.micIn := rfl
@[simp] theorem State.resetBlock_ccount : (s.resetBlock).ccount = State.reset.ccount := rfl
@[simp] theorem State.resetBlock_keyctl : (s.resetBlock).keyctl = State.reset.keyctl := rfl
@[simp] theorem State.resetBlock_nwkSKey : (s.resetBlock).nwkSKey = State.reset.nwkSKey := rfl
@[simp] theorem State.resetBlock_appSKey : (s.resetBlock).appSKey = State.reset.appSKey := rfl
@[simp] theorem State.resetBlock_appKey : (s.resetBlock).appKey = State.reset.appKey := rfl
@[simp] theorem State.resetBlock_mem : (s.resetBlock).mem = State.reset.mem := rfl
@[simp] theorem State.resetBlock_pend : (s.resetBlock).pend = State.reset.pend := rfl
@[simp] theorem State.resetBlock_busData : (s.resetBlock).busData = s.busData := rfl
@[simp] theorem State.resetBlock_draws : (s.resetBlock).draws = s.draws + 1 := rfl
@[simp] theorem State.resetBlock_inputs : (s.resetBlock).inputs = s.inputs := rfl

/-! ### STATUS -/

@[simp] theorem Status.issue_done : (st.issue).done = false := rfl
@[simp] theorem Status.issue_err : (st.issue).err = false := rfl
@[simp] theorem Status.issue_micok : (st.issue).micok = st.micok := rfl
@[simp] theorem Status.issue_ecode : (st.issue).ecode = none := rfl
@[simp] theorem Status.issue_werr : (st.issue).werr = st.werr := rfl
@[simp] theorem Status.issue_lastop : (st.issue).lastop = st.lastop := rfl

@[simp] theorem Status.setWerr_done : (st.setWerr).done = st.done := rfl
@[simp] theorem Status.setWerr_err : (st.setWerr).err = st.err := rfl
@[simp] theorem Status.setWerr_micok : (st.setWerr).micok = st.micok := rfl
@[simp] theorem Status.setWerr_ecode : (st.setWerr).ecode = st.ecode := rfl
@[simp] theorem Status.setWerr_werr : (st.setWerr).werr = true := rfl
@[simp] theorem Status.setWerr_lastop : (st.setWerr).lastop = st.lastop := rfl

@[simp] theorem Status.finish_done (opc : BitVec 8) (k : Option ErrKind) :
    (st.finish opc k).done = true := rfl
@[simp] theorem Status.finish_err (opc : BitVec 8) (k : Option ErrKind) :
    (st.finish opc k).err = k.isSome := rfl
@[simp] theorem Status.finish_micok (opc : BitVec 8) (k : Option ErrKind) :
    (st.finish opc k).micok = if k = some .integrityError then false else st.micok := rfl
@[simp] theorem Status.finish_ecode (opc : BitVec 8) (k : Option ErrKind) :
    (st.finish opc k).ecode = k := rfl
@[simp] theorem Status.finish_werr (opc : BitVec 8) (k : Option ErrKind) :
    (st.finish opc k).werr = st.werr := rfl
@[simp] theorem Status.finish_lastop (opc : BitVec 8) (k : Option ErrKind) :
    (st.finish opc k).lastop = opc := rfl

@[simp] theorem Status.writeOneClear_done (v : Word) :
    (st.writeOneClear v).done = (st.done && !v.getLsbD 1) := rfl
@[simp] theorem Status.writeOneClear_err (v : Word) :
    (st.writeOneClear v).err = (st.err && !v.getLsbD 2) := rfl
@[simp] theorem Status.writeOneClear_micok (v : Word) : (st.writeOneClear v).micok = st.micok := rfl
@[simp] theorem Status.writeOneClear_ecode (v : Word) : (st.writeOneClear v).ecode = st.ecode := rfl
@[simp] theorem Status.writeOneClear_werr (v : Word) :
    (st.writeOneClear v).werr = (st.werr && !v.getLsbD 8) := rfl
@[simp] theorem Status.writeOneClear_lastop (v : Word) :
    (st.writeOneClear v).lastop = st.lastop := rfl

/-- A completion with success is `succeeded`. -/
theorem State.finish_none (opc : BitVec 8) : s.finish opc none = s.succeeded opc := rfl

/-- A completion with the error `k` is `failed`. -/
theorem State.finish_some (opc : BitVec 8) (k : ErrKind) :
    s.finish opc (some k) = s.failed opc k := by
  cases k <;> rfl

end Sys2Proof.Machine
end

