-- ==== Sys2Proof/Laws/Ops.lean ====
section
/-! SUPPORT. What each shared operation can do, said once: the completion of an operation, its length and key checks, and the reads of the buffers. -/

namespace Sys2Proof.Machine

/-! ## Completion -/

@[simp] theorem complete_ok (opc : BitVec 8) (s s' : State) :
    complete opc s (.ok s') = .next (s'.succeeded opc) := rfl

@[simp] theorem complete_error (opc : BitVec 8) (s : State) (k : ErrKind) :
    complete opc s (.error k) = .next (s.failed opc k) := by
  simp [complete, State.finish_some]

/-- All that a completion can do (rules R121, R122). -/
theorem complete_cases {opc : BitVec 8} {s t : State} {r : Except ErrKind State}
    (h : complete opc s r = .next t) :
    (∃ s', r = .ok s' ∧ t = s'.succeeded opc) ∨ (∃ k, r = .error k ∧ t = s.failed opc k) := by
  cases r with
  | ok s' => exact .inl ⟨s', rfl, by simpa using h.symm⟩
  | error k => exact .inr ⟨k, rfl, by simpa using h.symm⟩

/-- A completion always answers a next state. -/
theorem complete_next (opc : BitVec 8) (s : State) (r : Except ErrKind State) :
    ∃ t, complete opc s r = .next t := by
  cases r <;> simp

@[simp] theorem completeOutput_ok (opc : BitVec 8) (s : State) (b : Bytes) :
    completeOutput opc s (.ok b) = .next ((s.output b).succeeded opc) := rfl

@[simp] theorem completeOutput_error (opc : BitVec 8) (s : State) (k : ErrKind) :
    completeOutput opc s (.error k) = .next (s.failed opc k) :=
  complete_error opc s k

/-! ## Checks -/

theorem State.checkedLen_ok {s : State} (h : s.ilen.toNat ≤ 256) :
    s.checkedLen = .ok s.ilen.toNat := by
  unfold State.checkedLen
  exact if_neg (by simp only [State.inputLen, Config.bufSize]; omega)

theorem State.checkedLen_error {s : State} (h : 256 < s.ilen.toNat) :
    s.checkedLen = .error .sizeError := by
  unfold State.checkedLen
  exact if_pos (by simp only [State.inputLen, Config.bufSize]; omega)

/-- All that the length check can do (rule R125). -/
theorem State.checkedLen_cases (s : State) :
    (s.ilen.toNat ≤ 256 ∧ s.checkedLen = .ok s.ilen.toNat)
      ∨ (256 < s.ilen.toNat ∧ s.checkedLen = .error .sizeError) := by
  by_cases h : s.ilen.toNat ≤ 256
  · exact .inl ⟨h, State.checkedLen_ok h⟩
  · exact .inr ⟨by omega, State.checkedLen_error (by omega)⟩

theorem State.requireKey_present {s : State} {k : KeyId} (h : s.keyPresent k = true) :
    s.requireKey k = .ok (s.keyWords k).bytes := by
  simp [State.requireKey, h]

theorem State.requireKey_absent {s : State} {k : KeyId} (h : s.keyPresent k = false) :
    s.requireKey k = .error .missingKeyError := by
  simp [State.requireKey, h]

/-! ## Reads -/

theorem State.readByte_of_read {s : State} {a : Nat} {b : Byte} (h : Memory.read s.mem a = some b) :
    s.readByte a = b := by
  simp [State.readByte, h]

/-- What a byte reads as depends on its own address in memory and on the draw alone. -/
theorem State.readByte_congr {s t : State} {a : Nat}
    (h : Memory.read t.mem a = Memory.read s.mem a) (hd : t.draws = s.draws) :
    t.readByte a = s.readByte a := by
  simp [State.readByte, h, hd]

@[simp] theorem State.readBytes_length (s : State) (a n : Nat) : (s.readBytes a n).length = n := by
  simp [State.readBytes]

theorem State.readBytes_getElem? (s : State) (a n i : Nat) (h : i < n) :
    (s.readBytes a n)[i]? = some (s.readByte (a + i)) := by
  simp [State.readBytes, h]

/-- A buffer that holds `b` reads as `b`. -/
theorem State.readBytes_of_holds {s : State} {a : Nat} {b : Bytes} (h : Memory.holds s.mem a b) :
    s.readBytes a b.length = b := by
  apply List.ext_getElem?
  intro i
  by_cases hi : i < b.length
  · rw [State.readBytes_getElem? _ _ _ _ hi]
    have h' := h i hi
    rw [List.getElem?_eq_getElem hi] at h' ⊢
    rw [State.readByte_of_read h']
  · rw [List.getElem?_eq_none (by simp; omega), List.getElem?_eq_none (by omega)]

@[simp] theorem State.input_length (s : State) (n : Nat) : (s.input n).length = n := by
  simp [State.input]

@[simp] theorem State.readEntries_length (s : State) (n : Nat) : (s.readEntries n).length = n := by
  simp [State.readEntries]

theorem byteAt_of_lt {b : Bytes} {i : Nat} (h : i < b.length) : byteAt b i = b[i] := by
  simp [byteAt, h]

theorem getElem?_eq_byteAt {b : Bytes} {i : Nat} (h : i < b.length) : b[i]? = some (byteAt b i) := by
  simp [byteAt, h]

@[simp] theorem le16_length (v : BitVec 16) : (le16 v).length = 2 := rfl

@[simp] theorem le24_length (v : BitVec 24) : (le24 v).length = 3 := rfl

/-! ## Byte-wise exclusive-or (rule R4) -/

@[simp] theorem xorBytes_length (a b : Bytes) : (xorBytes a b).length = min a.length b.length := by
  simp [xorBytes]

theorem xorBytes_cancel {a b : Bytes} (h : a.length ≤ b.length) : xorBytes (xorBytes a b) b = a := by
  induction a generalizing b with
  | nil => simp [xorBytes]
  | cons x a ih =>
    cases b with
    | nil => simp at h
    | cons y b =>
      have := ih (b := b) (by simpa using h)
      simp only [xorBytes, List.zipWith_cons_cons] at this ⊢
      rw [this, BitVec.xor_assoc, BitVec.xor_self, BitVec.xor_zero]

end Sys2Proof.Machine
end

