-- ==== Sys2Proof/Laws/Aes.lean ====
section
/-! SUPPORT. The lengths of what the ciphers return (rules R95, R100, R106). -/

namespace Sys2Proof.Machine

@[simp] theorem matrix_length (f : Nat → Nat → Byte) : (matrix f).length = 16 := by
  simp [matrix]

/-- The entry `s[r][c]` of a matrix is the function's (rule R95). -/
theorem cell_matrix (f : Nat → Nat → Byte) (r c : Nat) (hr : r < 4) (hc : c < 4) :
    cell (matrix f) r c = f r c := by
  have h1 : r + 4 * c < 16 := by omega
  have h2 : (r + 4 * c) % 4 = r := by omega
  have h3 : (r + 4 * c) / 4 = c := by omega
  simp [cell, byteAt, matrix, h1, h2, h3]

@[simp] theorem aes128_length (key block : Bytes) : (aes128 key block).length = 16 := by
  simp [aes128, addRoundKey]

@[simp] theorem contextBlock_length (first : Byte) (dir : BitVec 1) (devaddr : Word)
    (fcnt : BitVec 16) (last : Byte) : (contextBlock first dir devaddr fcnt last).length = 16 := rfl

/-- The blocks of a keystream before it is cut are 16 bytes each. -/
theorem keystreamBlocks_length (key : Bytes) (f : Nat → Bytes) (k : Nat) :
    ((List.range k).flatMap fun i => aes128 key (f i)).length = 16 * k := by
  induction k with
  | zero => rfl
  | succ k ih =>
    rw [List.range_succ, List.flatMap_append, List.length_append, ih]
    simp
    omega

@[simp] theorem keystreamBytes_length (key : Bytes) (dir : BitVec 1) (devaddr : Word)
    (fcnt : BitVec 16) (n : Nat) : (keystreamBytes key dir devaddr fcnt n).length = n := by
  rw [keystreamBytes, List.length_take, keystreamBlocks_length, blockCount]
  omega

@[simp] theorem intBlock_length (v : BitVec 128) : (intBlock v).length = 16 := by
  simp [intBlock]

@[simp] theorem dbl_length (b : Bytes) : (dbl b).length = 16 := by
  simp [dbl]

@[simp] theorem aesCmac_length (key msg : Bytes) : (aesCmac key msg).length = 16 := by
  simp [aesCmac]

end Sys2Proof.Machine
end

