-- ==== Sys2Proof/Laws/Bits.lean ====
section
/-! SUPPORT. The numbers that concatenations, fields and bytes of words stand for. -/

namespace Sys2Proof.Machine

/-- A concatenation as a number. -/
theorem toNat_append_eq {m n : Nat} (x : BitVec m) (y : BitVec n) :
    (x ++ y).toNat = x.toNat * 2 ^ n + y.toNat := by
  rw [BitVec.toNat_append, ← Nat.shiftLeft_add_eq_or_of_lt y.isLt, Nat.shiftLeft_eq]

/-- A field as a number. -/
theorem toNat_field {m : Nat} (x : BitVec m) (lo n : Nat) :
    (x.extractLsb' lo n).toNat = x.toNat / 2 ^ lo % 2 ^ n := by
  rw [BitVec.extractLsb'_toNat, Nat.shiftRight_eq_div_pow]

/-- Byte `k` of an integer as a number (rule R3). -/
theorem toNat_leByte {n : Nat} (v : BitVec n) (k : Nat) :
    (leByte v k).toNat = v.toNat / 256 ^ k % 256 := by
  have h : (2 : Nat) ^ 8 = 256 := by decide
  rw [leByte, toNat_field, Nat.pow_mul, h]

/-- Byte `k` of an integer, from its number (rule R3). -/
theorem leByte_eq {n : Nat} (v : BitVec n) (k : Nat) :
    leByte v k = BitVec.ofNat 8 (v.toNat / 256 ^ k) := by
  apply BitVec.eq_of_toNat_eq
  rw [toNat_leByte, BitVec.toNat_ofNat]

/-- A bus word as the sum of its bytes (rules R3, R41). -/
theorem toNat_readLE32 (b : Bytes) (o : Nat) :
    (readLE32 b o).toNat = (byteAt b o).toNat + 256 * (byteAt b (o + 1)).toNat
      + 65536 * (byteAt b (o + 2)).toNat + 16777216 * (byteAt b (o + 3)).toNat := by
  simp only [readLE32, toNat_append_eq]
  omega

theorem toNat_readLE24 (b : Bytes) (o : Nat) :
    (readLE24 b o).toNat = (byteAt b o).toNat + 256 * (byteAt b (o + 1)).toNat
      + 65536 * (byteAt b (o + 2)).toNat := by
  simp only [readLE24, toNat_append_eq]
  omega

theorem toNat_readLE16 (b : Bytes) (o : Nat) :
    (readLE16 b o).toNat = (byteAt b o).toNat + 256 * (byteAt b (o + 1)).toNat := by
  simp only [readLE16, toNat_append_eq]
  omega

theorem toNat_readWord (s : State) (a : Nat) :
    (s.readWord a).toNat = (s.readByte a).toNat + 256 * (s.readByte (a + 1)).toNat
      + 65536 * (s.readByte (a + 2)).toNat + 16777216 * (s.readByte (a + 3)).toNat := by
  simp only [State.readWord, toNat_append_eq]
  omega

end Sys2Proof.Machine
end

