-- ==== Sys2Proof/Laws/Codec.lean ====
section
/-! SUPPORT. The MAC command codec: ids, body lengths, and what a decode of a stream can do. -/

namespace Sys2Proof.Machine

theorem CmdId.ofByte_byte (c : CmdId) : CmdId.ofByte c.byte = some c := by
  cases c <;> rfl

theorem CmdId.byte_of_ofByte {b : Byte} {c : CmdId} (h : CmdId.ofByte b = some c) : b = c.byte := by
  simp only [CmdId.ofByte] at h
  repeat' split at h
  all_goals simp_all [CmdId.byte]
  all_goals subst h; rfl

theorem bodyBytes_length (c : CmdId) (sh : Shape) (e : Entry) :
    (bodyBytes c sh e).length = bodySize c sh := by
  cases c <;> cases sh <;> rfl

@[simp] theorem decodeBody_cid (c : CmdId) (sh : Shape) (b : Bytes) :
    (decodeBody c sh b).cid = c.byte := by
  cases c <;> cases sh <;> rfl

/-- The bound on the number of commands does not matter once it reaches the stream's length. -/
theorem decodeStreamUpTo_bound (sh : Shape) (n : Nat) (s : Bytes) (h : s.length ≤ n) :
    decodeStreamUpTo sh n s = decodeStreamUpTo sh s.length s := by
  suffices H : ∀ k n m (s : Bytes), s.length ≤ k → s.length ≤ n → s.length ≤ m →
      decodeStreamUpTo sh n s = decodeStreamUpTo sh m s from
    H s.length n s.length s (Nat.le_refl _) h (Nat.le_refl _)
  intro k
  induction k with
  | zero =>
    intro n m s hk _ _
    have : s = [] := List.length_eq_zero_iff.1 (by omega)
    subst this
    simp [decodeStreamUpTo]
  | succ k ih =>
    intro n m s hk hn hm
    cases s with
    | nil => simp [decodeStreamUpTo]
    | cons b s =>
      simp only [List.length_cons] at hk hn hm
      cases n with
      | zero => omega
      | succ n =>
        cases m with
        | zero => omega
        | succ m =>
          simp only [decodeStreamUpTo]
          cases CmdId.ofByte b with
          | none => rfl
          | some c =>
            simp only
            split
            · rfl
            · rw [ih n m (s.drop (bodySize c sh)) (by simp; omega) (by simp; omega)
                (by simp; omega)]

/-- A decode of a bounded stream gives at most as many commands as the stream has bytes. -/
theorem decodeStreamUpTo_length {sh : Shape} {n : Nat} {s : Bytes} {cmds : List Entry}
    (h : decodeStreamUpTo sh n s = .ok cmds) : cmds.length ≤ s.length := by
  induction n generalizing s cmds with
  | zero =>
    cases s with
    | nil => simp [decodeStreamUpTo] at h; simp [← h]
    | cons b s => simp [decodeStreamUpTo] at h
  | succ n ih =>
    cases s with
    | nil => simp [decodeStreamUpTo] at h; simp [← h]
    | cons b s =>
      simp only [decodeStreamUpTo] at h
      cases hc : CmdId.ofByte b with
      | none => simp [hc] at h
      | some c =>
        simp only [hc] at h
        split at h
        · simp at h
        · cases hr : decodeStreamUpTo sh n (s.drop (bodySize c sh)) with
          | error k => simp [hr] at h
          | ok es =>
            have := ih hr
            simp only [hr, Except.ok.injEq] at h
            subst h
            simp only [List.length_drop] at this
            simp only [List.length_cons]
            omega

/-- All that a successful decode of a stream can be: of the first command, its body, and the rest
(rule R89). -/
theorem decodeStream_cons_ok {sh : Shape} {cid : Byte} {rest : Bytes} {es : List Entry} :
    decodeStream sh (cid :: rest) = .ok es ↔
      ∃ c es', CmdId.ofByte cid = some c ∧ bodySize c sh ≤ rest.length
        ∧ decodeStream sh (rest.drop (bodySize c sh)) = .ok es'
        ∧ es = decodeBody c sh (rest.take (bodySize c sh)) :: es' := by
  simp only [decodeStream, List.length_cons, decodeStreamUpTo]
  cases CmdId.ofByte cid with
  | none => simp
  | some c =>
    simp only [Option.some.injEq, exists_and_left, exists_eq_left']
    rw [decodeStreamUpTo_bound sh rest.length _ (by simp)]
    by_cases h : bodySize c sh > rest.length
    · rw [if_pos h]
      exact ⟨nofun, fun ⟨hk, _⟩ => absurd h (Nat.not_lt.2 hk)⟩
    · rw [if_neg h]
      cases decodeStreamUpTo sh (rest.drop (bodySize c sh)).length (rest.drop (bodySize c sh)) with
      | error k => simp
      | ok es' => simp [Nat.le_of_not_lt h, eq_comm]

/-- One entry's encoding: its id byte and a body of the shape's size (rule R90). -/
theorem encodeEntry_ok {sh : Shape} {e : Entry} {b : Bytes} (h : encodeEntry sh e = .ok b) :
    ∃ c, CmdId.ofByte e.cid = some c ∧ e.inRange (slotKinds c sh) = true
      ∧ b = e.cid :: bodyBytes c sh e := by
  simp only [encodeEntry] at h
  cases hc : CmdId.ofByte e.cid with
  | none => simp [hc] at h
  | some c =>
    refine ⟨c, rfl, ?_⟩
    simp only [hc, encodeBody] at h
    split at h
    · simp at h
    · next hb =>
      split at hb
      · next hr => simp_all
      · simp at hb

end Sys2Proof.Machine
end

