-- ==== Sys2Proof/Laws/Decode.lean ====
section
/-! SUPPORT. The fields of a command word, and of the words the encoder writes (rules R48 to R51). -/

namespace Sys2Proof

theorem opcField_commandWord (opc : BitVec 8) (st : Bool) (k : BitVec 2) :
    opcField (commandWord opc st k) = opc := by
  apply BitVec.eq_of_getLsbD_eq
  intro i hi
  simp only [opcField, commandWord, BitVec.getLsbD_extractLsb', BitVec.getLsbD_append]
  simp [hi]

theorem strictField_commandWord (opc : BitVec 8) (st : Bool) (k : BitVec 2) :
    strictField (commandWord opc st k) = st := by
  simp only [strictField, commandWord, BitVec.getLsbD_append]
  simp

theorem kselField_commandWord (opc : BitVec 8) (st : Bool) (k : BitVec 2) :
    kselField (commandWord opc st k) = k := by
  apply BitVec.eq_of_getLsbD_eq
  intro i hi
  simp only [kselField, commandWord, BitVec.getLsbD_extractLsb', BitVec.getLsbD_append]
  have h1 : ¬ 9 + i < 8 := by omega
  have h2 : 9 + i - 8 - 1 = i := by omega
  have h3 : ¬ 9 + i - 8 < 1 := by omega
  simp [hi, h1, h2, h3]

theorem rsvdField_commandWord (opc : BitVec 8) (st : Bool) (k : BitVec 2) :
    rsvdField (commandWord opc st k) = 0 := by
  apply BitVec.eq_of_getLsbD_eq
  intro i hi
  simp only [rsvdField, commandWord, BitVec.getLsbD_extractLsb', BitVec.getLsbD_append]
  have h1 : ¬ 11 + i < 8 := by omega
  have h2 : ¬ 11 + i - 8 < 1 := by omega
  have h3 : ¬ 11 + i - 8 - 1 < 2 := by omega
  simp [h1, h2, h3]

/-- A word is its four fields. -/
theorem word_eq_fields (w : Word) :
    w = rsvdField w ++ kselField w ++ BitVec.ofBool (strictField w) ++ opcField w := by
  apply BitVec.eq_of_getLsbD_eq
  intro i hi
  simp only [rsvdField, kselField, strictField, opcField, BitVec.getLsbD_append,
    BitVec.getLsbD_extractLsb', BitVec.getLsbD_ofBool]
  by_cases h1 : i < 8
  · simp [h1]
  · by_cases h2 : i - 8 < 1
    · have h : i = 8 := by omega
      subst h
      simp
    · by_cases h3 : i - 8 - 1 < 2
      · have h : 9 + (i - 8 - 1) = i := by omega
        simp [h1, h2, h3, h]
      · have h : 11 + (i - 8 - 1 - 2) = i := by omega
        have h4 : i - 8 - 1 - 2 < 21 := by omega
        simp [h1, h2, h3, h, h4]

theorem KSel.ofBits_bits (k : KSel) : KSel.ofBits k.bits = k := by
  cases k <;> rfl

theorem KSel.bits_ofBits (b : BitVec 2) : (KSel.ofBits b).bits = b := by
  revert b
  decide

/-- A word that decodes has the opcode of its instruction (rule R49). -/
theorem opcode_of_decode {w : Word} {i : Instr} (h : decode w = .ok i) : i.opcode = opcField w := by
  simp only [decode] at h
  split at h
  · simp at h
  · split at h
    all_goals first
      | (next ho =>
          rw [ho]
          simp only [decodePlain, decodeKeyed, decodeStrict] at h
          repeat' split at h
          all_goals first
            | (cases h; rfl)
            | simp at h)
      | simp at h

end Sys2Proof
end

