-- ==== Sys2Proof/Laws/Exec.lean ====
section
/-! SUPPORT. What an operation can do at its completion, said once for all of them: it ends with success, and then it has written nothing but the registers and buffers an operation can write, or with an error that its row of rule R118 marks, and then nothing but STATUS. -/

namespace Sys2Proof.Machine

/-- `s'` differs from `s` only in what some operation writes on success: neither CMD, PEND, MIC_IN,
KEYCTL, a key, nor a field of the model's own, and of STATUS nothing but MICOK. -/
def State.committed (s s' : State) : Prop :=
  s' = { s with
    status := { s.status with micok := s'.status.micok }
    ilen := s'.ilen, olen := s'.olen, mhdr := s'.mhdr, devaddr := s'.devaddr, fctrl := s'.fctrl
    fcnt := s'.fcnt, fport := s'.fport, dir := s'.dir, mic := s'.mic, ccount := s'.ccount
    mem := s'.mem }

/-- The two ways an operation's body can end. -/
def bodyEnds (i : Instr) (s : State) (r : Except ErrKind State) : Prop :=
  (∃ s', r = .ok s' ∧ s.committed s'
      ∧ (s'.status.micok = s.status.micok ∨ ∃ strict, i = .verifyJoin strict ∨ i = .verifyData strict))
    ∨ ∃ k, k ∈ raises i ∧ r = .error k

theorem bodyEnds_map {α : Type} {i : Instr} {s : State} {r : Except ErrKind α} (f : α → State)
    (hk : ∀ k, r = .error k → k ∈ raises i)
    (hf : ∀ a, s.committed (f a) ∧ (f a).status.micok = s.status.micok) :
    bodyEnds i s (r.map f) := by
  cases r with
  | error k => exact .inr ⟨k, hk k rfl, rfl⟩
  | ok a => exact .inl ⟨f a, rfl, (hf a).1, .inl (hf a).2⟩

/-! ## The error kinds of the shared parts -/

theorem checkedLen_kinds {s : State} {k : ErrKind} (h : s.checkedLen = .error k) :
    k = .sizeError := by
  rcases s.checkedLen_cases with ⟨_, h'⟩ | ⟨_, h'⟩ <;> simp_all

theorem requireKey_kinds {s : State} {k : ErrKind} {id : KeyId} (h : s.requireKey id = .error k) :
    k = .missingKeyError := by
  simp only [State.requireKey] at h
  split at h <;> simp_all

theorem selectedKey_kinds {s : State} {k : ErrKind} {sel : KSel}
    (h : s.selectedKey sel = .error k) : k = .missingKeyError ∨ k = .illegalCommand := by
  simp only [State.selectedKey] at h
  split at h
  · simp_all
  · exact .inl (requireKey_kinds h)

theorem decodeStreamUpTo_kinds {sh : Shape} {n : Nat} {b : Bytes} {k : ErrKind}
    (h : decodeStreamUpTo sh n b = .error k) : k = .unknownCommandError := by
  induction n generalizing b with
  | zero =>
    cases b with
    | nil => simp [decodeStreamUpTo] at h
    | cons x b => simpa [decodeStreamUpTo, eq_comm] using h
  | succ n ih =>
    cases b with
    | nil => simp [decodeStreamUpTo] at h
    | cons x b =>
      simp only [decodeStreamUpTo] at h
      split at h
      · simpa [eq_comm] using h
      · split at h
        · simpa [eq_comm] using h
        · split at h
          · next hr => exact ih (hr.trans h)
          · simp at h

theorem encodeEntry_kinds {sh : Shape} {e : Entry} {k : ErrKind}
    (h : encodeEntry sh e = .error k) : k = .unknownCommandError ∨ k = .rangeError := by
  simp only [encodeEntry, encodeBody] at h
  split at h
  · simp_all
  · split at h
    · next hb => split at hb <;> simp_all
    · simp at h

theorem encodeStream_kinds {sh : Shape} {es : List Entry} {k : ErrKind}
    (h : encodeStream sh es = .error k) : k = .unknownCommandError ∨ k = .rangeError := by
  induction es with
  | nil => simp [encodeStream] at h
  | cons e es ih =>
    simp only [encodeStream] at h
    split at h
    · next hr => exact (Except.error.inj h) ▸ encodeEntry_kinds hr
    · split at h
      · next hr => exact ih (hr.trans h)
      · simp at h

theorem except_map_error {ε α β : Type} {r : Except ε α} {f : α → β} {k : ε}
    (h : r.map f = .error k) : r = .error k := by
  cases r <;> simp_all [Except.map]

theorem joinMic_kinds {s : State} {k : ErrKind} (h : joinMic s = .error k) :
    k = .sizeError ∨ k = .missingKeyError := by
  simp only [joinMic] at h
  split at h
  · next hr => exact .inl ((Except.error.inj h) ▸ checkedLen_kinds hr)
  · exact .inr (requireKey_kinds (except_map_error h))

theorem dataMic_kinds {s : State} {k : ErrKind} (h : dataMic s = .error k) :
    k = .sizeError ∨ k = .rangeError ∨ k = .missingKeyError := by
  simp only [dataMic] at h
  split at h
  · next hr => exact .inl ((Except.error.inj h) ▸ checkedLen_kinds hr)
  · split at h
    · simp_all
    · exact .inr (.inr (requireKey_kinds (except_map_error h)))

theorem portKeystream_kinds {s : State} {k : ErrKind} (h : portKeystream s = .error k) :
    k = .sizeError ∨ k = .consistencyError ∨ k = .missingKeyError := by
  simp only [portKeystream] at h
  split at h
  · next hr => exact .inl ((Except.error.inj h) ▸ checkedLen_kinds hr)
  · split at h
    · split at h <;> simp_all
    · exact .inr (.inr (requireKey_kinds (except_map_error h)))

theorem parseFrame_kinds {m : Bytes} {k : ErrKind} (h : parseFrame m = .error k) :
    k ∈ raises .frameDec := by
  simp only [parseFrame] at h
  repeat' split at h
  all_goals simp_all [raises]
  next hr => simp [decodeStreamUpTo_kinds hr]

theorem verify_ends {i : Instr} {s : State} {strict : Bool} {r : Except ErrKind Word}
    (hk : ∀ k, r = .error k → k ∈ raises i) (hi : .integrityError ∈ raises i)
    (hv : ∃ strict, i = .verifyJoin strict ∨ i = .verifyData strict) :
    bodyEnds i s (r.bind (verify s strict)) := by
  cases r with
  | error k => exact .inr ⟨k, hk k rfl, rfl⟩
  | ok m =>
    simp only [Except.bind, verify]
    split
    · exact .inr ⟨_, hi, rfl⟩
    · exact .inl ⟨_, rfl, rfl, .inr hv⟩

/-! ## Every operation -/

theorem exec_body (i : Instr) (s : State) :
    ∃ r, exec i s = complete i.opcode s r ∧ bodyEnds i s r := by
  cases i with
  | nop => exact ⟨_, rfl, .inl ⟨s, rfl, rfl, .inl rfl⟩⟩
  | copy => exact ⟨.ok (copyBody s), rfl, .inl ⟨_, rfl, rfl, .inl rfl⟩⟩
  | mhdrDec =>
    refine ⟨_, rfl, bodyEnds_map _ (fun k h => ?_) fun a => ⟨rfl, rfl⟩⟩
    simp only [mhdrDecByte] at h
    split at h
    · next hr => simp [raises, ← Except.error.inj h, checkedLen_kinds hr]
    · split at h <;> simp_all [raises]
  | mhdrEnc => exact ⟨.ok (s.output [s.mhdr]), rfl, .inl ⟨_, rfl, rfl, .inl rfl⟩⟩
  | frameDec =>
    refine ⟨_, rfl, bodyEnds_map _ (fun k h => ?_) fun a => ⟨rfl, rfl⟩⟩
    simp only [frameDecFrame] at h
    split at h
    · next hr => simp [raises, ← Except.error.inj h, checkedLen_kinds hr]
    · exact parseFrame_kinds h
  | frameEnc =>
    refine ⟨_, rfl, bodyEnds_map _ (fun k h => ?_) fun a => ⟨rfl, rfl⟩⟩
    simp only [frameEncBytes] at h
    split at h
    · next hr => simp [raises, ← Except.error.inj h, checkedLen_kinds hr]
    · split at h
      · simp [raises, ← Except.error.inj h]
      · split at h
        · simp [raises, ← Except.error.inj h]
        · split at h
          · next hr =>
            rcases encodeStream_kinds hr with h' | h' <;> simp [raises, ← Except.error.inj h, h']
          · repeat' split at h
            all_goals simp_all [raises]
  | cmdDec =>
    refine ⟨_, rfl, bodyEnds_map _ (fun k h => ?_) fun a => ⟨rfl, rfl⟩⟩
    simp only [cmdDecList] at h
    split at h
    · next hr => simp [raises, ← Except.error.inj h, checkedLen_kinds hr]
    · split at h
      · simp [raises, ← Except.error.inj h]
      · simp [raises, decodeStreamUpTo_kinds h]
  | cmdEnc =>
    refine ⟨_, rfl, bodyEnds_map _ (fun k h => ?_) fun a => ⟨rfl, rfl⟩⟩
    simp only [cmdEncBytes] at h
    split at h
    · next hr =>
      rcases encodeStream_kinds hr with h' | h' <;> simp [raises, ← Except.error.inj h, h']
    · split at h
      · simp [raises, ← Except.error.inj h]
      · simp at h
  | aesEnc sel =>
    refine ⟨_, rfl, bodyEnds_map _ (fun k h => ?_) fun a => ⟨rfl, rfl⟩⟩
    simp only [aesEncBytes] at h
    split at h
    · simp [raises, ← Except.error.inj h]
    · split at h
      · next hr => simp [raises, ← Except.error.inj h, checkedLen_kinds hr]
      · split at h
        · simp [raises, ← Except.error.inj h]
        · rcases selectedKey_kinds (except_map_error h) with h' | h' <;> simp [raises, h']
  | keystream =>
    refine ⟨_, rfl, bodyEnds_map _ (fun k h => ?_) fun a => ⟨rfl, rfl⟩⟩
    rcases portKeystream_kinds h with h' | h' | h' <;> simp [raises, h']
  | payloadXor =>
    refine ⟨_, rfl, bodyEnds_map _ (fun k h => ?_) fun a => ⟨rfl, rfl⟩⟩
    rcases portKeystream_kinds (except_map_error h) with h' | h' | h' <;> simp [raises, h']
  | cmac sel =>
    refine ⟨_, rfl, bodyEnds_map _ (fun k h => ?_) fun a => ⟨rfl, rfl⟩⟩
    simp only [cmacTag] at h
    split at h
    · simp [raises, ← Except.error.inj h]
    · split at h
      · next hr => simp [raises, ← Except.error.inj h, checkedLen_kinds hr]
      · rcases selectedKey_kinds (except_map_error h) with h' | h' <;> simp [raises, h']
  | micJoin =>
    refine ⟨_, rfl, bodyEnds_map _ (fun k h => ?_) fun a => ⟨rfl, rfl⟩⟩
    rcases joinMic_kinds h with h' | h' <;> simp [raises, h']
  | micData =>
    refine ⟨_, rfl, bodyEnds_map _ (fun k h => ?_) fun a => ⟨rfl, rfl⟩⟩
    rcases dataMic_kinds h with h' | h' | h' <;> simp [raises, h']
  | verifyJoin strict =>
    refine ⟨_, rfl, verify_ends (fun k h => ?_) (by simp [raises]) ⟨strict, .inl rfl⟩⟩
    rcases joinMic_kinds h with h' | h' <;> simp [raises, h']
  | verifyData strict =>
    refine ⟨_, rfl, verify_ends (fun k h => ?_) (by simp [raises]) ⟨strict, .inr rfl⟩⟩
    rcases dataMic_kinds h with h' | h' | h' <;> simp [raises, h']

/-- All that an operation can do (rules R118, R121 to R123). -/
theorem exec_cases (i : Instr) (s : State) :
    (∃ s', exec i s = .next (s'.succeeded i.opcode) ∧ s.committed s'
        ∧ (s'.status.micok = s.status.micok
            ∨ ∃ strict, i = .verifyJoin strict ∨ i = .verifyData strict))
      ∨ ∃ k, k ∈ raises i ∧ exec i s = .next (s.failed i.opcode k) := by
  obtain ⟨r, hr, ⟨s', rfl, h⟩ | ⟨k, hk, rfl⟩⟩ := exec_body i s
  · exact .inl ⟨s', by rw [hr, complete_ok], h⟩
  · exact .inr ⟨k, hk, by rw [hr, complete_error]⟩

end Sys2Proof.Machine
end

