-- ==== Sys2Proof/Laws/PerInstr.lean ====
section
/-! SUPPORT. What holds of every instruction, one lemma for each constructor: the family `WordFields` says which fields the word of an instruction has (rules R48 to R51). -/

namespace Sys2Proof.Laws.WordFields

/-- The word of `i` has the opcode of `i`, its STRICT and KSEL bits, and zero reserved bits. -/
def Statement (i : Instr) : Prop :=
  opcField (encode i) = i.opcode ∧ strictField (encode i) = i.strictBit
    ∧ kselField (encode i) = i.kselBits ∧ rsvdField (encode i) = 0

theorem ofCommandWord (i : Instr) : Statement i :=
  ⟨opcField_commandWord _ _ _, strictField_commandWord _ _ _, kselField_commandWord _ _ _,
    rsvdField_commandWord _ _ _⟩

theorem nop : Statement .nop := ofCommandWord _
theorem mhdrDec : Statement .mhdrDec := ofCommandWord _
theorem mhdrEnc : Statement .mhdrEnc := ofCommandWord _
theorem frameDec : Statement .frameDec := ofCommandWord _
theorem frameEnc : Statement .frameEnc := ofCommandWord _
theorem copy : Statement .copy := ofCommandWord _
theorem cmdDec : Statement .cmdDec := ofCommandWord _
theorem cmdEnc : Statement .cmdEnc := ofCommandWord _
theorem aesEnc (ksel : KSel) : Statement (.aesEnc ksel) := ofCommandWord _
theorem keystream : Statement .keystream := ofCommandWord _
theorem payloadXor : Statement .payloadXor := ofCommandWord _
theorem cmac (ksel : KSel) : Statement (.cmac ksel) := ofCommandWord _
theorem micJoin : Statement .micJoin := ofCommandWord _
theorem micData : Statement .micData := ofCommandWord _
theorem verifyJoin (strict : Bool) : Statement (.verifyJoin strict) := ofCommandWord _
theorem verifyData (strict : Bool) : Statement (.verifyData strict) := ofCommandWord _

end Sys2Proof.Laws.WordFields
end

