-- ==== Sys2Proof/Laws/Step.lean ====
section
/-! SUPPORT. What one step can do, by the move it makes: the engine's completion, a host access, a poll, a reset; and the host's write of each kind of window word. -/

namespace Sys2Proof.Machine

/-! ## The engine -/

/-- The completion of a word that decodes (rule R121). -/
theorem completeWord_ok {w : Word} {i : Instr} (s : State) (h : decode w = .ok i) :
    completeWord w s = exec i s := by
  simp [completeWord, h]

/-- The completion of a word that does not decode (rule R120). -/
theorem completeWord_error {w : Word} {e : DecodeError} (s : State) (h : decode w = .error e) :
    completeWord w s = .next (s.failed (opcField w) .illegalCommand) := by
  simp [completeWord, h]

theorem engineStep_none {s : State} (h : s.pend = none) : engineStep s = .next s := by
  simp [engineStep, h]

theorem engineStep_some {s : State} {w : Word} (h : s.pend = some w) :
    engineStep s = completeWord w s := by
  simp [engineStep, h]

/-- All that a completion of a pending word can do, legal or not (rules R120 to R123). -/
theorem completeWord_cases (w : Word) (s : State) :
    (∃ i s', decode w = .ok i ∧ completeWord w s = .next (s'.succeeded (opcField w))
        ∧ s.committed s'
        ∧ (s'.status.micok = s.status.micok
            ∨ ∃ strict, i = .verifyJoin strict ∨ i = .verifyData strict))
    ∨ ∃ k, completeWord w s = .next (s.failed (opcField w) k)
        ∧ (k = .illegalCommand ∨ ∃ i, decode w = .ok i ∧ k ∈ raises i) := by
  cases hd : decode w with
  | error e => exact .inr ⟨_, completeWord_error s hd, .inl rfl⟩
  | ok i =>
    rw [completeWord_ok s hd, ← opcode_of_decode hd]
    obtain ⟨s', h1, h2, h3⟩ | ⟨k, hk, h⟩ := exec_cases i s
    · exact .inl ⟨i, s', rfl, h1, h2, h3⟩
    · exact .inr ⟨k, h, .inr ⟨i, rfl, hk⟩⟩

/-! ## One move -/

theorem step_nil {s : State} (h : s.inputs = []) : step s = engineStep s := by
  simp [step, nextMove, h]

theorem step_cons {s : State} {i : Input} {rest : List Input} (h : s.inputs = i :: rest) :
    step s = inputStep i { s with inputs := rest } := by
  simp [step, nextMove, h]

theorem step_nil_some {s : State} {w : Word} (h : s.inputs = []) (hp : s.pend = some w) :
    step s = completeWord w s := by
  rw [step_nil h, engineStep_some hp]

theorem step_engine {s : State} {rest : List Input} (h : s.inputs = .engine :: rest) :
    step s = engineStep { s with inputs := rest } := step_cons h

theorem step_engine_some {s : State} {w : Word} {rest : List Input}
    (h : s.inputs = .engine :: rest) (hp : s.pend = some w) :
    step s = completeWord w { s with inputs := rest } := by
  rw [step_engine h, engineStep_some (s := { s with inputs := rest }) hp]

theorem step_reset {s : State} {rest : List Input} (h : s.inputs = .reset :: rest) :
    step s = .next { s with inputs := rest }.resetBlock := step_cons h

theorem step_wait_done {s : State} {rest : List Input} (h : s.inputs = .wait :: rest)
    (hd : s.status.done = true) : step s = .next ({ s with inputs := rest }.hostRead .status) := by
  rw [step_cons h]
  simp [inputStep, waitStep, hd]

theorem step_wait_poll {s : State} {rest : List Input} (h : s.inputs = .wait :: rest)
    (hd : s.status.done = false) : step s = engineStep s := by
  rw [step_cons h]
  have : { s with inputs := .wait :: rest } = s := by rw [← h]
  simp [inputStep, waitStep, hd, this]

/-- An admitted read (rules R35, R37). -/
theorem step_read {s : State} {off : Nat} {rest : List Input}
    (h : s.inputs = .host ⟨off, .word, .read⟩ :: rest) (h4 : off % 4 = 0) (h8 : off < 0x800) :
    step s = .next ({ s with inputs := rest }.hostRead (windowReg off)) := by
  rw [step_cons h]
  simp [inputStep, hostAccess, Access.admitted, h4, h8, Config.windowSize]

/-- An admitted write (rules R35, R136). -/
theorem step_write {s : State} {off : Nat} {v : Word} {rest : List Input}
    (h : s.inputs = .host ⟨off, .word, .write v⟩ :: rest) (h4 : off % 4 = 0) (h8 : off < 0x800) :
    step s = .next ({ s with inputs := rest }.hostWrite (windowReg off) v) := by
  rw [step_cons h]
  simp [inputStep, hostAccess, Access.admitted, h4, h8, Config.windowSize]

/-- An access that is not admitted (rule R35). -/
theorem step_refused {s : State} {a : Access} {rest : List Input}
    (h : s.inputs = .host a :: rest) (ha : a.admitted = false) :
    step s = .refused .busError := by
  rw [step_cons h]
  simp [inputStep, hostAccess, ha]

/-- A write while BUSY = 0, or to a word that is not guarded, is accepted (rule R136). -/
theorem hostWrite_accepted {s : State} {r : WindowReg} (v : Word)
    (h : s.pend = none ∨ r.guarded = false) : s.hostWrite r v = s.writeReg r v := by
  rcases h with h | h <;> simp [State.hostWrite, State.busy, h]

/-- A write to a guarded word while BUSY = 1 is dropped (rule R136). -/
theorem hostWrite_dropped {s : State} {r : WindowReg} (v : Word)
    (h : s.pend ≠ none) (hr : r.guarded = true) :
    s.hostWrite r v = { s with status := s.status.setWerr } := by
  have : s.pend.isSome = true := by cases hp : s.pend <;> simp_all
  simp [State.hostWrite, State.busy, this, hr]

/-- A write that the block accepts, as a step (rules R36, R136). -/
theorem step_write_accepted {s : State} {off : Nat} {v : Word} {rest : List Input}
    (h : s.inputs = .host ⟨off, .word, .write v⟩ :: rest) (h4 : off % 4 = 0) (h8 : off < 0x800)
    (ha : s.pend = none ∨ (windowReg off).guarded = false) :
    step s = .next ({ s with inputs := rest }.writeReg (windowReg off) v) := by
  rw [step_write h h4 h8, hostWrite_accepted (s := { s with inputs := rest }) v ha]

/-- A write that the block drops, as a step (rule R136). -/
theorem step_write_dropped {s : State} {off : Nat} {v : Word} {rest : List Input}
    (h : s.inputs = .host ⟨off, .word, .write v⟩ :: rest) (h4 : off % 4 = 0) (h8 : off < 0x800)
    (hp : s.pend ≠ none) (hg : (windowReg off).guarded = true) :
    step s = .next { s with inputs := rest, status := s.status.setWerr } := by
  rw [step_write h h4 h8, hostWrite_dropped (s := { s with inputs := rest }) v hp hg]

/-! ## Runs -/

theorem run_succ (M : Host.Core) (k : Nat) (s t : M.State) (h : M.step s = .next t) :
    M.run (k + 1) s = M.run k t := by
  simp [Host.Core.run, h]

theorem run_step {s t : State} (k : Nat) (h : step s = .next t) :
    Host.Core.run Sys2Proof.core (k + 1) s = Host.Core.run Sys2Proof.core k t :=
  run_succ Sys2Proof.core k s t h

/-! ## The window -/

theorem clistReg_eq {off : Nat} (h : 0x400 ≤ off) :
    clistReg off = if off % 0x20 = 0 then .clistCid off
      else if off % 0x20 < 0x18 then .clistSlot off else .reserved := by
  have : (off - 0x400) % 0x20 = off % 0x20 := by omega
  simp only [clistReg, Config.clistBase, Config.clistStride, this]

/-- Every offset that is not one of the fourteen control registers lies in a range. -/
theorem windowReg_of_ge {off : Nat} (h : 0x038 ≤ off) :
    windowReg off =
      if 0x040 ≤ off ∧ off < 0x050 then .key .nwks (off % 0x10 / 4)
      else if 0x050 ≤ off ∧ off < 0x060 then .key .apps (off % 0x10 / 4)
      else if 0x060 ≤ off ∧ off < 0x070 then .key .app (off % 0x10 / 4)
      else if 0x100 ≤ off ∧ off < 0x200 then .ibuf off
      else if 0x200 ≤ off ∧ off < 0x300 then .obuf off
      else if 0x400 ≤ off ∧ off < 0x5E0 then
        if off % 0x20 = 0 then .clistCid off
        else if off % 0x20 < 0x18 then .clistSlot off else .reserved
      else .reserved := by
  by_cases h4 : 0x400 ≤ off
  · rw [← clistReg_eq h4]
    unfold windowReg
    split
    all_goals first | rfl | omega
  · simp only [h4, false_and, if_false]
    unfold windowReg
    split
    all_goals first | omega | simp only [h4, false_and, if_false]

theorem windowReg_ibuf {off : Nat} (h1 : 0x100 ≤ off) (h2 : off < 0x200) :
    windowReg off = .ibuf off := by
  rw [windowReg_of_ge (by omega), if_neg (by omega), if_neg (by omega), if_neg (by omega),
    if_pos ⟨h1, h2⟩]

theorem windowReg_obuf {off : Nat} (h1 : 0x200 ≤ off) (h2 : off < 0x300) :
    windowReg off = .obuf off := by
  rw [windowReg_of_ge (by omega), if_neg (by omega), if_neg (by omega), if_neg (by omega),
    if_neg (by omega), if_pos ⟨h1, h2⟩]

theorem windowReg_clistCid {off : Nat} (h1 : 0x400 ≤ off) (h2 : off < 0x5E0)
    (h3 : off % 0x20 = 0) : windowReg off = .clistCid off := by
  rw [windowReg_of_ge (by omega), if_neg (by omega), if_neg (by omega), if_neg (by omega),
    if_neg (by omega), if_neg (by omega), if_pos ⟨h1, h2⟩, if_pos h3]

theorem windowReg_clistSlot {off : Nat} (h1 : 0x400 ≤ off) (h2 : off < 0x5E0)
    (h3 : 4 ≤ off % 0x20) (h4 : off % 0x20 < 0x18) : windowReg off = .clistSlot off := by
  rw [windowReg_of_ge (by omega), if_neg (by omega), if_neg (by omega), if_neg (by omega),
    if_neg (by omega), if_neg (by omega), if_pos ⟨h1, h2⟩, if_neg (by omega), if_pos h4]

theorem windowReg_key {k : KeyId} {j : Nat} (hj : j < 4) :
    windowReg (k.base + 4 * j) = .key k j := by
  have : j = 0 ∨ j = 1 ∨ j = 2 ∨ j = 3 := by omega
  rcases this with rfl | rfl | rfl | rfl <;> cases k <;> rfl

/-- A reserved word (`10_state.md` section 2.1, rule R30). -/
theorem windowReg_reserved {off : Nat} (h : reservedOffset off) : windowReg off = .reserved := by
  rw [reservedOffset] at h
  rw [windowReg_of_ge (by omega), if_neg (by omega), if_neg (by omega), if_neg (by omega),
    if_neg (by omega), if_neg (by omega)]
  split
  · rw [if_neg (by omega), if_neg (by omega)]
  · rfl

end Sys2Proof.Machine
end

