-- ==== Sys2Proof/Tests/Slice0.lean ====
section
/-! SUPPORT. Tests of the model on the spec's own worked examples (`95_test_vectors.md` and the examples inside the operation rules), decode tests on words written out from `30_encoding.md`, and for each obligation with hypotheses a witness that meets them. -/

-- One theorem after another: each in a thread of its own is more threads than the memory limit allows.
set_option Elab.async false

namespace Sys2Proof.Tests

open Sys2Proof Sys2Proof.Machine

/-! ## Small states -/

/-- The next state of a result. -/
def nextOf (r : Result) : Option State :=
  match r with
  | .next s => some s
  | .fault _ => none
  | .refused _ => none

/-- Reset with these bytes in IBUF and their number in ILEN. -/
def input (b : Bytes) : State :=
  { State.reset with mem := Memory.writeBytes [] 0x100 b, ilen := BitVec.ofNat 9 b.length }

/-- The key of 16 bytes given as one hex number, byte 0 first. -/
def key (v : BitVec 128) : KeyWords :=
  { w0 := readLE32 (intBlock v) 0, w1 := readLE32 (intBlock v) 4
    w2 := readLE32 (intBlock v) 8, w3 := readLE32 (intBlock v) 12 }

/-- The entries of a decoded stream. -/
def entriesOf (r : Except ErrKind (List Entry)) : Option (List Entry) :=
  match r with
  | .ok es => some es
  | .error _ => none

/-- The OLEN output bytes of a state, written or not. -/
def output (s : State) : List (Option Byte) :=
  (List.range s.olen.toNat).map fun i => Memory.read s.mem (0x200 + i)

/-- Reset with a word pending. -/
def busy (w : Word) : State := { State.reset with cmd := w, pend := some w }

/-- Reset with moves to come. -/
def moves (l : List Input) : State := { State.reset with inputs := l }

/-- A word write at a window offset. -/
def wr (off : Nat) (v : Word) : Input := .host ⟨off, .word, .write v⟩

/-- A word read at a window offset. -/
def rd (off : Nat) : Input := .host ⟨off, .word, .read⟩

/-! ## Well-formedness -/

theorem test_aes_enc_reserved_key_select_refused : Instr.wellFormed (.aesEnc .reserved) = false := by
  decide

theorem test_cmac_reserved_key_select_refused : Instr.wellFormed (.cmac .reserved) = false := by
  decide

/-! ## Decoding: RSVD (21 bits), KSEL (2), STRICT (1), OPC (8), from rules R48 and R49 -/

theorem test_decode_control :
    decode 0b000000000000000000000_00_0_00000000#32 = .ok .nop
      ∧ decode 0b000000000000000000000_00_0_00001111#32 = .ok .copy := ⟨rfl, rfl⟩

theorem test_decode_header :
    decode 0b000000000000000000000_00_0_00000001#32 = .ok .mhdrDec
      ∧ decode 0b000000000000000000000_00_0_00000010#32 = .ok .mhdrEnc
      ∧ decode 0b000000000000000000000_00_0_00000011#32 = .ok .frameDec
      ∧ decode 0b000000000000000000000_00_0_00000100#32 = .ok .frameEnc := ⟨rfl, rfl, rfl, rfl⟩

theorem test_decode_commands :
    decode 0b000000000000000000000_00_0_00010000#32 = .ok .cmdDec
      ∧ decode 0b000000000000000000000_00_0_00010001#32 = .ok .cmdEnc := ⟨rfl, rfl⟩

theorem test_decode_cipher :
    decode 0b000000000000000000000_00_0_00100000#32 = .ok (.aesEnc .nwks)
      ∧ decode 0b000000000000000000000_01_0_00100000#32 = .ok (.aesEnc .apps)
      ∧ decode 0b000000000000000000000_10_0_00100000#32 = .ok (.aesEnc .app)
      ∧ decode 0b000000000000000000000_00_0_00100001#32 = .ok .keystream
      ∧ decode 0b000000000000000000000_00_0_00100010#32 = .ok .payloadXor :=
  ⟨rfl, rfl, rfl, rfl, rfl⟩

theorem test_decode_mic :
    decode 0b000000000000000000000_00_0_00110000#32 = .ok (.cmac .nwks)
      ∧ decode 0b000000000000000000000_01_0_00110000#32 = .ok (.cmac .apps)
      ∧ decode 0b000000000000000000000_10_0_00110000#32 = .ok (.cmac .app)
      ∧ decode 0b000000000000000000000_00_0_00110001#32 = .ok .micJoin
      ∧ decode 0b000000000000000000000_00_0_00110010#32 = .ok .micData
      ∧ decode 0b000000000000000000000_00_0_00110011#32 = .ok (.verifyJoin false)
      ∧ decode 0b000000000000000000000_00_1_00110011#32 = .ok (.verifyJoin true)
      ∧ decode 0b000000000000000000000_00_0_00110100#32 = .ok (.verifyData false)
      ∧ decode 0b000000000000000000000_00_1_00110100#32 = .ok (.verifyData true) :=
  ⟨rfl, rfl, rfl, rfl, rfl, rfl, rfl, rfl, rfl⟩

/-- One word for each clause of rule R52. -/
theorem test_decode_illegal :
    decode 0b000000000000000000001_00_0_00000000#32 = .error .reservedBits
      ∧ decode 0b000000000000000000000_00_0_00000101#32 = .error .reservedOpcode
      ∧ decode 0b000000000000000000000_11_0_00100000#32 = .error .kselReserved
      ∧ decode 0b000000000000000000000_01_0_00100001#32 = .error .kselNotTaken
      ∧ decode 0b000000000000000000000_00_1_00000000#32 = .error .strictNotTaken :=
  ⟨rfl, rfl, rfl, rfl, rfl⟩

/-- Every row of the opcode table, KSEL and STRICT 0, is the row's instruction. -/
theorem test_table_rows :
    [0x00, 0x01, 0x02, 0x03, 0x04, 0x0F, 0x10, 0x11, 0x20, 0x21, 0x22, 0x30, 0x31, 0x32, 0x33,
        0x34].map (decodeTableWord 32)
      = [some .nop, some .mhdrDec, some .mhdrEnc, some .frameDec, some .frameEnc, some .copy,
        some .cmdDec, some .cmdEnc, some (.aesEnc .nwks), some .keystream, some .payloadXor,
        some (.cmac .nwks), some .micJoin, some .micData, some (.verifyJoin false),
        some (.verifyData false)] := by
  decide

/-! ## Operations -/

/-- `95_test_vectors.md` V1.1: NOP from reset, issued and completed, reads back STATUS 0x00000002. -/
theorem test_nop_status :
    (nextOf (step (State.reset.withFetchWord 32 0x00000000))).map (·.readReg .status)
      = some 0x00000002 := by
  decide

/-- V1.2: NOP with STRICT is illegal. -/
theorem test_illegal_word_status :
    (nextOf (step (State.reset.withFetchWord 32 0x00000100))).map
        (fun s => (s.readReg .status, s.cmd)) = some (0x00000076, 0x00000100) := by
  decide

/-- V1.3 (rule R56): COPY of the one output byte 0x40. -/
theorem test_copy :
    (nextOf (exec .copy { State.reset with mem := [(0x200, 0x40)], olen := 1 })).map
        (fun s => (Memory.read s.mem 0x100, s.ilen, s.olen))
      = some (some 0x40, 1, 1) := by
  decide

/-- `95_test_vectors.md` S1 (rule R62). -/
theorem test_mhdr_dec :
    (nextOf (exec .mhdrDec (input [0x40]))).map (fun s => (s.mhdr, s.readReg .status))
      = some (0x40, 0x00010002) := by
  decide

/-- V1.5: MHDR_DEC of no byte is SizeError. -/
theorem test_mhdr_dec_size :
    (nextOf (exec .mhdrDec State.reset)).map (·.readReg .status) = some 0x00010016 := by
  decide

/-- S1 (rule R63). -/
theorem test_mhdr_enc :
    (nextOf (exec .mhdrEnc { State.reset with mhdr := 0x40 })).map
        (fun s => (output s, s.readReg .status)) = some ([some 0x40], 0x00020002) := by
  decide

/-- The example of rule R64. -/
theorem test_frame_dec :
    (nextOf (exec .frameDec (input [0x40, 0x04, 0x03, 0x02, 0x01, 0x00, 0x01, 0x00]))).map
        (fun s => [s.mhdr.toNat, s.devaddr.toNat, s.fctrl.toNat, s.fcnt.toNat, s.fport.toNat,
          s.dir.toNat, s.ccount.toNat, s.olen.toNat])
      = some [0x40, 0x01020304, 0x00, 1, 0x000, 0, 0, 0] := by
  decide

/-- `95_test_vectors.md` S3: an unknown id in the options. -/
theorem test_frame_dec_unknown_id :
    (nextOf (exec .frameDec
        (input [0x40, 0x04, 0x03, 0x02, 0x01, 0x01, 0x01, 0x00, 0x09]))).map
        (fun s => (s.readReg .status, s.mhdr, s.devaddr, s.ccount))
      = some (0x00030036, 0, 0, 0) := by
  decide

/-- The example of rule R65. -/
theorem test_frame_enc :
    (nextOf (exec .frameEnc
        { input [0xAA] with
          mhdr := 0x40, devaddr := 0x01020304, fctrl := 0x80, fcnt := 1, fport := 0x101 })).map
        (fun s => (output s, s.fctrl, s.dir))
      = some ([0x40, 0x04, 0x03, 0x02, 0x01, 0x80, 0x01, 0x00, 0x01, 0xAA].map some, 0x80, 0) := by
  decide

/-- The example of rule R92. -/
theorem test_cmd_dec :
    (nextOf (exec .cmdDec (input [0x02, 0x06]))).map
        (fun s => (s.ccount, Memory.read s.mem 0x400, Memory.read s.mem 0x420))
      = some (2, some 0x02, some 0x06) := by
  decide

/-- `95_test_vectors.md` S2: 16 bytes as a stream. -/
theorem test_cmd_dec_range :
    (nextOf (exec .cmdDec (input (List.replicate 16 0x02)))).map (·.readReg .status)
      = some 0x00100026 := by
  decide

/-- The example of rule R93. -/
theorem test_cmd_enc :
    (nextOf (exec .cmdEnc
        { State.reset with
          dir := 1, ccount := 1
          mem := Memory.writeEntry [] 0 ⟨0x06, 254, 0xFFFFFFFB, 0, 0, 0⟩ })).map output
      = some ([0x06, 0xFE, 0x25].map some) := by
  decide +kernel

/-- The examples of rules R77, R81, R84, R85: streams and their slots. -/
theorem test_command_bodies :
    entriesOf (decodeStream .req [0x05, 0x23, 0x18, 0x4F, 0x84]) = some [⟨0x05, 2, 3, 867100000, 0, 0⟩]
      ∧ entriesOf (decodeStream .req [0x07, 0x03, 0x18, 0x4F, 0x84, 0x50])
        = some [⟨0x07, 3, 867100000, 5, 0, 0⟩]
      ∧ entriesOf (decodeStream .ans [0x06, 0x80, 0x3F]) = some [⟨0x06, 128, 0xFFFFFFE1, 0, 0, 0⟩]
      ∧ entriesOf (decodeStream .req [0x03, 0x52, 0x07, 0x00, 0x01])
        = some [⟨0x03, 5, 2, 7, 0, 1⟩] := by
  decide +kernel

/-- Rule R96: the checks the rule names for its table. -/
theorem test_sbox : sbox 0x00 = 0x63 ∧ sbox 0x53 = 0xED ∧ sbox 0xFF = 0x16 := by
  decide

/-- The example of rule R101 (FIPS-197 Appendix C.1). -/
theorem test_aes_enc :
    (nextOf (exec (.aesEnc .app)
        { input (intBlock 0x00112233445566778899aabbccddeeff) with
          keyctl := 4, appKey := key 0x000102030405060708090a0b0c0d0e0f })).map output
      = some ((intBlock 0x69c4e0d86a7b0430d8cdb78070b4c55a).map some) := by
  decide +kernel

/-- The sample frame's keystream: the example of rule R103 gives the plaintext "test", so the
keystream is `[95 43 78 76] ⊕ [74 65 73 74]`. -/
theorem test_keystream :
    (nextOf (exec .keystream
        { State.reset with
          ilen := 4, devaddr := 0x49BE7DF1, fcnt := 2, fport := 0x101, keyctl := 2
          appSKey := key 0xec925802ae430ca77fd3dd73cb2cc588 })).map output
      = some ([0xE1, 0x26, 0x0B, 0x02].map some) := by
  decide +kernel

/-- The example of rule R103. -/
theorem test_payload_xor :
    (nextOf (exec .payloadXor
        { input [0x95, 0x43, 0x78, 0x76] with
          devaddr := 0x49BE7DF1, fcnt := 2, fport := 0x101, keyctl := 2
          appSKey := key 0xec925802ae430ca77fd3dd73cb2cc588 })).map output
      = some ([0x74, 0x65, 0x73, 0x74].map some) := by
  decide +kernel

/-- The example of rule R109: the empty message. -/
theorem test_cmac :
    (nextOf (exec (.cmac .nwks)
        { State.reset with keyctl := 1, nwkSKey := key 0x2b7e151628aed2a6abf7158809cf4f3c })).map
        (fun s => (output s, s.mic))
      = some ((intBlock 0xbb1d6929e95937287fa37d129b756746).map some, 0x29691DBB) := by
  decide +kernel

/-- The example of rule R110: a message of one whole block. -/
theorem test_mic_join :
    (nextOf (exec .micJoin
        { input (intBlock 0x6bc1bee22e409f96e93d7e117393172a) with
          keyctl := 4, appKey := key 0x2b7e151628aed2a6abf7158809cf4f3c })).map (·.mic)
      = some 0xB4160A07 := by
  decide +kernel

/-- The sample frame of `95_test_vectors.md` without its MIC, and its NwkSKey. -/
def sample : State :=
  { input [0x40, 0xF1, 0x7D, 0xBE, 0x49, 0x00, 0x02, 0x00, 0x01, 0x95, 0x43, 0x78, 0x76] with
    devaddr := 0x49BE7DF1, fcnt := 2, keyctl := 1
    nwkSKey := key 0x44024241ed4ce9a68c6a8bc055233fd3 }

/-- The example of rule R111. -/
theorem test_mic_data : (nextOf (exec .micData sample)).map (·.mic) = some 0x0DFF112B := by
  decide +kernel

/-- Rule R113 on the sample frame: the frame's own MIC verifies. -/
theorem test_verify_data :
    (nextOf (exec (.verifyData true) { sample with micIn := 0x0DFF112B })).map
        (fun s => (s.readReg .status, s.mic)) = some (0x0034000A, 0x0DFF112B) := by
  decide +kernel

/-- Rules R113 and R122 on the sample frame: another MIC is IntegrityError under STRICT. -/
theorem test_verify_data_strict_mismatch :
    (nextOf (exec (.verifyData true) { sample with micIn := 0x0DFF112A })).map
        (fun s => (s.readReg .status, s.mic)) = some (0x00340066, 0) := by
  decide +kernel

/-- Rule R112: a mismatch without STRICT writes MIC and leaves MICOK 0 (the tag is R110's example). -/
theorem test_verify_join_mismatch :
    (nextOf (exec (.verifyJoin false)
        { input (intBlock 0x6bc1bee22e409f96e93d7e117393172a) with
          keyctl := 4, appKey := key 0x2b7e151628aed2a6abf7158809cf4f3c })).map
        (fun s => (s.readReg .status, s.mic)) = some (0x00330002, 0xB4160A07) := by
  decide +kernel

/-! ## Witnesses

One theorem for each obligation with hypotheses: states and operands that meet them, clause by
clause, at the boundaries of the ranges. `err` is the error an operation ends with. -/

/-- The ECODE of the next state of a result: `some none` for a success. -/
def err (r : Result) : Option (Option ErrKind) := (nextOf r).map (·.status.ecode)

/-- Reset with this ILEN, and nothing written to IBUF. -/
def len (n : BitVec 9) : State := { State.reset with ilen := n }

/-- Reset with every key present. -/
def keyed (n : BitVec 9) : State := { len n with keyctl := 7 }

/-- The ends of the reserved opcode ranges. -/
theorem witness_IllegalWordsIssueAndEndWithIllegalCommand_opcodes :
    ∀ w ∈ [0x05#32, 0x0E#32, 0x12#32, 0x1F#32, 0x23#32, 0x2F#32, 0x35#32, 0xFF#32],
      illegalWord w := by
  simp [illegalWord]

/-- A reserved bit, the reserved KSEL, and KSEL and STRICT where they are not taken. -/
theorem witness_IllegalWordsIssueAndEndWithIllegalCommand_fields :
    ∀ w ∈ [0x800#32, 0x620#32, 0x630#32, 0x600#32, 0x221#32, 0x100#32, 0x120#32],
      illegalWord w := by
  simp [illegalWord]

theorem witness_IllegalWordsIssueAndEndWithIllegalCommand :
    (moves [wr 0 0x05]).pend = none
      ∧ err (step (busy 0x05)) = some (some .illegalCommand)
      ∧ err (step { busy 0x05 with inputs := [.engine] }) = some (some .illegalCommand) := by
  decide

theorem witness_StepRunsThePendingInstruction :
    (busy 0x01).pend = some 0x01 ∧ decode 0x01 = .ok .mhdrDec
      ∧ err (step (busy 0x01)) = some (some .sizeError)
      ∧ err (step { busy 0x01 with inputs := [.engine] }) = some (some .sizeError)
      ∧ err (step { busy 0x01 with inputs := [.wait] }) = some (some .sizeError) :=
  ⟨rfl, rfl, by decide, by decide, by decide⟩

theorem witness_IssuedInstructionRunsNext :
    Instr.wellFormed (.verifyData true) = true
      ∧ err (step (State.reset.withFetchWord 32 (encode (.verifyData true)).toNat))
        = some (some .missingKeyError) := by
  decide

theorem witness_WriteToCmdIssues :
    (nextOf (step (moves [wr 0x000 0x0F]))).map (fun t => (t.cmd, t.pend, t.status.werr))
        = some (0x0F, some 0x0F, false)
      ∧ (nextOf (step { busy 0x01 with inputs := [wr 0x000 0x0F] })).map
          (fun t => (t.cmd, t.pend, t.status.werr)) = some (0x01, some 0x01, true) := by
  decide

/-- A success, an error of another kind with MICOK 1 before it, and an IntegrityError. -/
theorem witness_CompletionUpdatesStatus :
    err (step (busy 0x00)) = some none
      ∧ (nextOf (step { busy 0x01 with status := { Status.reset with micok := true } })).map
          (fun t => (t.status.ecode, t.status.micok)) = some (some .sizeError, true)
      ∧ (nextOf (step
          { busy 0x133 with micIn := 1, keyctl := 4, status := { Status.reset with micok := true } })).map
          (fun t => (t.status.ecode, t.status.micok)) = some (some .integrityError, false) := by
  decide +kernel

theorem witness_ErrorsWriteOnlyStatus :
    ∃ t, exec .mhdrDec State.reset = .next t ∧ t.status.err = true := ⟨_, rfl, rfl⟩

theorem witness_OperationsRaiseOnlyTheirKinds :
    ∃ t, exec .micJoin State.reset = .next t ∧ t.status.ecode = some .missingKeyError :=
  ⟨_, rfl, rfl⟩

theorem witness_LongInputIsSizeError :
    (∀ i ∈ [Instr.mhdrDec, .frameDec, .frameEnc, .cmdDec, .aesEnc .app, .keystream, .payloadXor,
        .cmac .nwks, .micJoin, .micData, .verifyJoin true, .verifyData false],
      i.wellFormed = true ∧ ignoresLength i = false
        ∧ err (exec i (len 257)) = some (some .sizeError))
      ∧ ∀ i ∈ [Instr.nop, .copy, .mhdrEnc, .cmdEnc],
        ignoresLength i = true ∧ err (exec i (len 511)) = some none := by
  decide

theorem witness_StatusWordAndItsWrites :
    (nextOf (step { moves [wr 0x004 0x106] with
        status := { Status.reset with done := true, err := true, werr := true } })).map
      (fun t => (t.status.done, t.status.err, t.status.werr)) = some (false, false, false) := by
  decide

theorem witness_WriteErrorIsSticky :
    (nextOf (step { moves [wr 0x004 0x100] with status := { Status.reset with werr := true } })).map
        (·.status.werr) = some false
      ∧ (nextOf (step { moves [.reset] with status := { Status.reset with werr := true } })).map
        (·.status.werr) = some false := by
  decide

theorem witness_PendingOperationIsEventuallyCompleted :
    ∃ s : State, s.pend = some 0x00 ∧ s.hostOnly ∧ s.inputs.length = 2 :=
  ⟨{ busy 0x00 with inputs := [rd 0x7FC, wr 0x008 5] }, rfl, by
    intro i hi
    simp only [List.mem_cons, List.not_mem_nil, or_false] at hi
    rcases hi with rfl | rfl
    · exact ⟨_, rfl, rfl⟩
    · exact ⟨_, rfl, rfl⟩, rfl⟩

theorem witness_AdmittedScheduleNeverStops :
    (moves [.wait, .engine, .reset, rd 0x7FC, wr 0x7FC 1]).admitted := by
  unfold State.admitted
  decide

theorem witness_WaitEndsWithDone :
    (nextOf (step { moves [.wait] with status := { Status.reset with done := true } })).map
        (fun t => (t.busData, t.inputs)) = some (some 2, [])
      ∧ (nextOf (step (moves [.wait]))).map (·.inputs) = some [.wait]
      ∧ (nextOf (step { busy 0x00 with inputs := [.wait] })).map
        (fun t => (t.status.done, t.inputs)) = some (true, [.wait]) := by
  decide

theorem witness_BadAccessesAreRefused :
    (∀ a ∈ [(⟨0x000, .byte, .read⟩ : Access), ⟨0x000, .half, .write 1⟩, ⟨0x002, .word, .read⟩,
        ⟨0x7FD, .word, .read⟩, ⟨0x800, .word, .write 1⟩],
      nextOf (step (moves [.host a])) = none)
      ∧ ∀ a ∈ [(⟨0x000, .word, .write 1⟩ : Access), ⟨0x7FC, .word, .read⟩],
        (nextOf (step (moves [.host a]))).map (·.inputs) = some [] := by
  decide

/-- Every guarded register and the ends of every range. -/
theorem witness_WritesWhileBusyAreDropped :
    ∀ off ∈ [0x000, 0x008, 0x010, 0x014, 0x018, 0x01C, 0x020, 0x024, 0x02C, 0x030, 0x034, 0x040,
        0x06C, 0x100, 0x1FC, 0x400, 0x414, 0x5C0, 0x5D4],
      guardedOffset off ∧ off % 4 = 0 ∧ off < 0x800
        ∧ (nextOf (step { busy 0 with inputs := [wr off 0xFF] })).map
          (fun t => (t.status.werr, t.mem.length)) = some (true, 0) := by
  unfold guardedOffset
  decide

/-- The offsets that are not guarded, and STATUS. -/
theorem witness_WritesWhileBusyAreDropped_others :
    (∀ off ∈ [0x00C, 0x028, 0x038, 0x03C, 0x070, 0x0FC, 0x200, 0x2FC, 0x300, 0x3FC, 0x418, 0x41C,
          0x5DC, 0x5E0, 0x7FC],
        ¬ guardedOffset off ∧ off ≠ 0x004 ∧ off % 4 = 0 ∧ off < 0x800
          ∧ (nextOf (step { busy 0 with inputs := [wr off 0xFF] })).map (·.status.werr)
            = some false)
      ∧ (nextOf (step
          { busy 0 with
            inputs := [wr 0x004 0x100], status := { Status.reset with werr := true } })).map
          (·.status.werr) = some false := by
  unfold guardedOffset
  decide

theorem witness_ReservedAndReadOnlyWords :
    ∀ off ∈ [0x038, 0x03C, 0x070, 0x0FC, 0x300, 0x3FC, 0x418, 0x41C, 0x5D8, 0x5DC, 0x5E0, 0x7FC],
      reservedOffset off ∧ off % 4 = 0
        ∧ (nextOf (step (moves [rd off]))).map (·.busData) = some (some 0)
        ∧ (nextOf (step (moves [wr off 0xFF]))).map (·.mem) = some [] := by
  unfold reservedOffset
  decide

theorem witness_ReservedAndReadOnlyWords_others :
    (∀ off ∈ [0x040, 0x06C],
        (nextOf (step { moves [rd off] with nwkSKey := ⟨1, 1, 1, 1⟩, appKey := ⟨1, 1, 1, 1⟩ })).map
          (·.busData) = some (some 0))
      ∧ (∀ off ∈ [0x008, 0x00C, 0x010, 0x018, 0x01C, 0x020, 0x024, 0x030, 0x034],
        (nextOf (step (moves [rd off]))).map (·.busData) = some (some 0))
      ∧ ∀ off ∈ [0x00C, 0x028, 0x200, 0x2FC],
        (nextOf (step (moves [wr off 0xFF]))).map (fun t => (t.olen, t.mic, t.mem.length))
          = some (0, 0, 0) := by
  decide

/-- All ones written to each register, with FCTRL[3:0] = 5 before. -/
theorem witness_RegisterWritesStoreTheirBits :
    [0x008, 0x010, 0x014, 0x018, 0x01C, 0x020, 0x024, 0x02C, 0x030, 0x034].map (fun off =>
        (nextOf (step { moves [wr off 0xFFFFFFFF] with fctrl := 0x05 })).map fun t =>
          [t.ilen.toNat, t.mhdr.toNat, t.devaddr.toNat, t.fctrl.toNat, t.fcnt.toNat, t.fport.toNat,
            t.dir.toNat, t.micIn.toNat, t.ccount.toNat, t.keyctl.toNat])
      = [[0x1FF, 0, 0, 5, 0, 0, 0, 0, 0, 0], [0, 0xFF, 0, 5, 0, 0, 0, 0, 0, 0],
        [0, 0, 0xFFFFFFFF, 5, 0, 0, 0, 0, 0, 0], [0, 0, 0, 0xF5, 0, 0, 0, 0, 0, 0],
        [0, 0, 0, 5, 0xFFFF, 0, 0, 0, 0, 0], [0, 0, 0, 5, 0, 0x1FF, 0, 0, 0, 0],
        [0, 0, 0, 5, 0, 0, 1, 0, 0, 0], [0, 0, 0, 5, 0, 0, 0, 0xFFFFFFFF, 0, 0],
        [0, 0, 0, 5, 0, 0, 0, 0, 15, 0], [0, 0, 0, 5, 0, 0, 0, 0, 0, 7]].map some := by
  decide

theorem witness_KeyWordWritesReplaceFourBytes :
    (nextOf (step (moves [wr (0x040 + 4 * 0) 0x04030201]))).map
        (fun t => (t.nwkSKey.bytes.take 5, t.appSKey, t.appKey))
      = some ([1, 2, 3, 4, 0], KeyWords.zero, KeyWords.zero)
      ∧ (nextOf (step (moves [wr (0x050 + 4 * 3) 0x04030201]))).map
        (fun t => (t.nwkSKey, t.appSKey.bytes.drop 11, t.appKey))
      = some (KeyWords.zero, [0, 1, 2, 3, 4], KeyWords.zero)
      ∧ (nextOf (step (moves [wr (0x060 + 4 * 3) 0x04030201]))).map
        (fun t => (t.nwkSKey, t.appSKey, t.appKey.bytes.drop 11))
      = some (KeyWords.zero, KeyWords.zero, [0, 1, 2, 3, 4]) := by
  decide

theorem witness_BufferWordsReadBack :
    (∀ off ∈ [0x100, 0x1FC, 0x404, 0x414, 0x5C4, 0x5D4],
      ((0x100 ≤ off ∧ off < 0x200)
        ∨ (0x400 ≤ off ∧ off < 0x5E0 ∧ 4 ≤ off % 0x20 ∧ off % 0x20 < 0x18))
        ∧ (nextOf (step (moves [wr off 0x04030201, rd off]))).map (·.mem)
          = some [(off, 1), (off + 1, 2), (off + 2, 3), (off + 3, 4)])
      ∧ ∀ off ∈ [0x400, 0x5C0], 0x400 ≤ off ∧ off < 0x5E0 ∧ off % 0x20 = 0
        ∧ (nextOf (step (moves [wr off 0x04030201, rd off]))).map (·.mem) = some [(off, 1)] := by
  decide

theorem witness_HostReadsReturnTheCurrentValue :
    (∀ off ∈ [0x000, 0x004, 0x008, 0x00C, 0x010, 0x014, 0x018, 0x01C, 0x020, 0x024, 0x028, 0x02C,
        0x030, 0x034], off % 4 = 0 ∧ off < 0x800
          ∧ (nextOf (step (moves [rd off]))).map (·.busData) = some (some 0))
      ∧ ∀ off ∈ [0x100, 0x2FC, 0x404, 0x5D4], off % 4 = 0 ∧ off < 0x800
        ∧ (nextOf (step { moves [rd off] with
            mem := [(off, 1), (off + 1, 2), (off + 2, 3), (off + 3, 4)] })).map (·.busData)
          = some (some 0x04030201) := by
  decide

/-- Words of which a byte is written and another is not (an output of 2 bytes; the last byte of a slot),
and a written CID byte, read while busy. -/
theorem witness_HostReadsReturnTheCurrentValue_bytes :
    [(0x2FC, 1), (0x2FC, 2), (0x5D4, 2), (0x5D4, 3)].map (fun p =>
        Memory.read [(0x2FC, 1), (0x2FD, 2), (0x5D7, 4)] (p.1 + p.2)) = [some 2, none, none, some 4]
      ∧ (∀ off ∈ [0x2FC, 0x5D4], off % 4 = 0 ∧ off < 0x800
        ∧ (nextOf (step { moves [rd off] with
            mem := [(0x2FC, 1), (0x2FD, 2), (0x5D7, 4)] })).map (·.inputs) = some [])
      ∧ (nextOf (step { busy 0x11 with inputs := [rd 0x400], mem := [(0x400, 0xFF)] })).map (·.busData)
        = some (some 0xFF)
      ∧ (nextOf (step { busy 0x11 with inputs := [rd 0x5C0], mem := [(0x5C0, 6)] })).map (·.busData)
        = some (some 6) := by
  decide

/-- A read of a key word, a refused access, and an operation that reads no key, on two keys. -/
theorem witness_KeysLeaveOnlyThroughTheirOperations :
    (moves [rd 0x040]).sameButKeys { moves [rd 0x040] with nwkSKey := ⟨1, 2, 3, 4⟩ }
      ∧ nextOf (step { moves [.host ⟨0x041, .word, .read⟩] with nwkSKey := ⟨1, 2, 3, 4⟩ }) = none
      ∧ keyless .frameEnc = true := ⟨rfl, by decide, rfl⟩

theorem witness_ResetGivesTheResetState :
    (nextOf (step { busy 0x0F with
        ilen := 3, nwkSKey := ⟨1, 2, 3, 4⟩, mem := [(0x100, 1)], inputs := [.reset] })).map
      (fun t => (t.pend, t.nwkSKey, t.mem.length)) = some (none, KeyWords.zero, 0) := by
  decide

/-- The last key word, buffer words and CLIST words of the map. -/
theorem witness_RegisterNamesMeetTheirRegisters :
    windowReg (RegName.key .app 3).offset = .key .app 3
      ∧ windowReg (RegName.ibuf (4 * 63)).offset = .ibuf 0x1FC
      ∧ windowReg (RegName.obuf (4 * 63)).offset = .obuf 0x2FC
      ∧ windowReg (RegName.clistCid 14).offset = .clistCid 0x5C0
      ∧ windowReg (RegName.clistSlot 14 4).offset = .clistSlot 0x5D4 := by
  decide

/-- No byte, a word and a byte (whose word is padded with three zero bytes), and the whole buffer. -/
theorem witness_WrbufStoresItsBytes :
    (HostLine.wrbuf []).expand = []
      ∧ (HostLine.wrbuf [1, 2, 3, 4, 5]).expand = [wr 0x100 0x04030201, wr 0x104 5]
      ∧ (HostLine.wrbuf (List.replicate 256 0)).expand.length = 64 := by
  decide +kernel

/-- A busy state with written output meets the invariant, and has a step. -/
theorem witness_StepKeepsTheInvariant :
    ∃ s t : State, s.pend = some 0x0F ∧ s.cmd = 0x0F ∧ s.olen = 1 ∧ s.Inv ∧ step s = .next t :=
  ⟨{ busy 0x0F with mem := [(0x200, 0x40), (0x400, 0x02)], olen := 1 }, _, rfl, rfl, rfl,
    { mem_wf := by decide
      olen_le := by decide
      output_written := by decide
      slot_whole := by
        have h : ∀ j, j < 15 → ∀ k, k < 5 → ∀ b, b < 4 →
            Memory.read [(0x200, 0x40), (0x400, 0x02)] (0x404 + 0x20 * j + 4 * k + b) = none := by
          decide +kernel
        intro j k hj hk b hb
        have h0 := h j hj k hk 0 (by decide)
        rw [Nat.add_zero] at h0
        change (Memory.read [(0x200, 0x40), (0x400, 0x02)] (0x404 + 0x20 * j + 4 * k + b)).isSome
          = (Memory.read [(0x200, 0x40), (0x400, 0x02)] (0x404 + 0x20 * j + 4 * k)).isSome
        rw [h j hj k hk b hb, h0]
      pending := fun w h => ⟨by simpa [busy] using h, rfl, rfl, rfl⟩
      err_code := by decide
      integrity := by decide }, rfl⟩

theorem witness_NopWritesOnlyStatus :
    (0x100#32).toNat % 256 = 0x00 ∧ 0x100#32 ≠ 0x00000000 ∧ (0x10F#32).toNat % 256 = 0x0F := by
  decide

theorem witness_CopyMovesOutputToInput :
    (nextOf (exec .copy
        { State.reset with olen := 2, ilen := 9, mem := [(0x101, 7), (0x200, 0x40)] })).map
      (fun t => (t.mem, t.ilen)) = some ([(0x100, 0x40), (0x200, 0x40)], 2) := by
  decide

theorem witness_MhdrDecReadsOneByte :
    err (exec .mhdrDec (len 257)) = some (some .sizeError)
      ∧ err (exec .mhdrDec (len 0)) = some (some .sizeError)
      ∧ err (exec .mhdrDec (input [0xFF])) = some none
      ∧ err (exec .mhdrDec { input [0xFF] with ilen := 256 }) = some none :=
  ⟨by decide, by decide, by decide, rfl⟩

/-- Each outcome of rule R64 in its order; the frame of rule R64's example, changed in one place. -/
theorem witness_FrameDecFollowsItsRule :
    err (exec .frameDec (len 257)) = some (some .sizeError)
      ∧ err (exec .frameDec (len 7)) = some (some .sizeError)
      ∧ err (exec .frameDec (input [0x41, 4, 3, 2, 1, 0, 1, 0])) = some (some .rangeError)
      ∧ err (exec .frameDec (input [0x20, 4, 3, 2, 1, 0, 1, 0])) = some (some .consistencyError)
      ∧ err (exec .frameDec (input [0xC0, 4, 3, 2, 1, 0, 1, 0])) = some (some .consistencyError)
      ∧ err (exec .frameDec (input [0x40, 4, 3, 2, 1, 1, 1, 0])) = some (some .sizeError)
      ∧ err (exec .frameDec (input [0x40, 4, 3, 2, 1, 1, 1, 0, 9]))
        = some (some .unknownCommandError)
      ∧ err (exec .frameDec (input [0x40, 4, 3, 2, 1, 0, 1, 0, 1])) = some (some .consistencyError)
      ∧ err (exec .frameDec (input [0xA0, 4, 3, 2, 1, 0, 1, 0])) = some none
      ∧ (nextOf (exec .frameDec (input [0x40, 4, 3, 2, 1, 1, 1, 0, 2, 1, 0xAA]))).map
          (fun t => (t.ccount, t.fport, output t)) = some (1, 0x101, [some 0xAA]) := by
  decide

/-- A state FRAME_ENC accepts, with `n` bytes of payload and FPort when `n` is not 0. -/
def frame (n : Nat) : State :=
  { input (List.replicate n 0xAA) with mhdr := 0x40, fport := if n = 0 then 0 else 0x101 }

/-- Each outcome of rule R65 in its order: the last two are a frame of 257 and of 256 bytes. -/
theorem witness_FrameEncFollowsItsRule :
    err (exec .frameEnc (len 257)) = some (some .sizeError)
      ∧ err (exec .frameEnc { frame 0 with mhdr := 0x43 }) = some (some .rangeError)
      ∧ err (exec .frameEnc { frame 0 with mhdr := 0x20 }) = some (some .consistencyError)
      ∧ err (exec .frameEnc { frame 0 with ccount := 1, mem := [(0x400, 9)] })
        = some (some .unknownCommandError)
      ∧ err (exec .frameEnc
          { frame 0 with
            ccount := 4
            mem := Memory.writeEntries [] 0 (List.replicate 4 ⟨3, 0, 0, 0, 0, 0⟩) })
        = some (some .rangeError)
      ∧ err (exec .frameEnc { frame 0 with fport := 0x100 }) = some (some .consistencyError)
      ∧ err (exec .frameEnc { frame 1 with fport := 0x001 }) = some (some .consistencyError)
      ∧ err (exec .frameEnc (frame 0)) = some none
      ∧ err (exec .frameEnc { len 248 with mhdr := 0x40, fport := 0x101 }) = some (some .sizeError)
      ∧ (exec .frameEnc { len 247 with mhdr := 0x40, fport := 0x101 } matches .next _) := by
  decide +kernel

/-- A frame with a command, FPort and payload. -/
theorem witness_FrameRoundTrip :
    (nextOf (exec .frameEnc
        { frame 0 with
          ilen := 1, fport := 0x101, ccount := 1
          mem := (0x100, 0xAA) :: Memory.writeEntry [] 0 ⟨0x04, 15, 7, 0, 0, 0⟩ })).map
      (fun t => (t.status.err, output t))
      = some (false, [0x40, 0, 0, 0, 0, 2, 0, 0, 0x04, 0x0F, 1, 0xAA].map some) := by
  decide +kernel

theorem witness_RegistryIsTheTable :
    CmdId.ofByte 0x00 = none ∧ CmdId.ofByte 0x01 = none ∧ CmdId.ofByte 0x09 = none
      ∧ CmdId.ofByte 0xFF = none := by
  decide

/-- An unknown id, a body cut short, an error further on, and a success. -/
theorem witness_CommandStreamDecodeFollowsItsRule :
    CmdId.ofByte 0x04 = some .dutyCycle
      ∧ entriesOf (decodeStream .req [0x09]) = none
      ∧ entriesOf (decodeStream .req [0x04]) = none
      ∧ entriesOf (decodeStream .req [0x04, 0x01, 0x01]) = none
      ∧ entriesOf (decodeStream .req [0x04, 0x01, 0x02])
        = some [⟨0x04, 1, 0, 0, 0, 0⟩, ⟨0x02, 0, 0, 0, 0, 0⟩] := by
  decide

/-- The error or the bytes of an encoding. -/
def bytesOf (r : Except ErrKind Bytes) : Option ErrKind × Bytes :=
  match r with
  | .ok b => (none, b)
  | .error k => (some k, [])

/-- An unknown id, a field out of range, an error further on, and a success. -/
theorem witness_CommandStreamEncodeFollowsItsRule :
    bytesOf (encodeStream .req [⟨0x09, 0, 0, 0, 0, 0⟩]) = (some .unknownCommandError, [])
      ∧ bytesOf (encodeStream .req [⟨0x04, 16, 0, 0, 0, 0⟩, ⟨0x09, 0, 0, 0, 0, 0⟩])
        = (some .rangeError, [])
      ∧ bytesOf (encodeStream .req [⟨0x04, 15, 0, 0, 0, 0⟩, ⟨0x09, 0, 0, 0, 0, 0⟩])
        = (some .unknownCommandError, [])
      ∧ bytesOf (encodeStream .req [⟨0x04, 15, 0, 0, 0, 0⟩, ⟨0x02, 1, 0, 0, 0, 0⟩])
        = (none, [0x04, 0x0F, 0x02]) := by
  decide

theorem witness_CommandStreamRoundTrip :
    bytesOf (encodeStream .ans [⟨0x06, 254, 0xFFFFFFE1, 9, 0, 0⟩]) = (none, [0x06, 0xFE, 0x3F]) := by
  decide

theorem witness_DecodedBodiesEncodeAgain :
    ([0x00, 0x00, 0x00, 0x7F] : Bytes).length = bodySize .linkADR .req
      ∧ bodyExact .linkADR .req [0x00, 0x00, 0x00, 0x7F]
      ∧ ¬ bodyExact .linkADR .req [0x00, 0x00, 0x00, 0x80]
      ∧ ¬ bodyExact .devStatus .ans [0x00, 0x20] ∧ bodyExact .devStatus .ans [0x00, 0x3F] := by
  unfold bodyExact
  decide

/-- A stream of two commands that decodes, whose first body is not exact: its commands are found at
its first byte and after its first command. -/
theorem witness_DecodedBodiesEncodeAgain_streams :
    entriesOf (decodeStream .req [0x04, 0xF1, 0x02])
        = some [⟨0x04, 1, 0, 0, 0, 0⟩, ⟨0x02, 0, 0, 0, 0, 0⟩]
      ∧ streamHasCommand .req [0x04, 0xF1, 0x02] .dutyCycle [0xF1]
      ∧ streamHasCommand .req [0x04, 0xF1, 0x02] .linkCheck []
      ∧ ¬ bodyExact .dutyCycle .req [0xF1] ∧ bodyExact .linkCheck .req [] :=
  ⟨by decide, ⟨[], [0x02], _, rfl, rfl, rfl⟩, ⟨[0x04, 0xF1], [], _, rfl, rfl, rfl⟩,
    by unfold bodyExact; decide, trivial⟩

theorem witness_CmdDecFollowsItsRule :
    err (exec .cmdDec (len 257)) = some (some .sizeError)
      ∧ err (exec .cmdDec (len 256)) = some (some .rangeError)
      ∧ err (exec .cmdDec (len 16)) = some (some .rangeError)
      ∧ err (exec .cmdDec (input [0x01])) = some (some .unknownCommandError)
      ∧ (nextOf (exec .cmdDec (input (List.replicate 15 0x02)))).map (·.ccount) = some 15
      ∧ err (exec .cmdDec (len 0)) = some none := by
  decide

theorem witness_CmdEncFollowsItsRule :
    err (exec .cmdEnc { len 0 with ccount := 1, mem := [(0x400, 1)] })
        = some (some .unknownCommandError)
      ∧ err (exec .cmdEnc
          { len 0 with
            ccount := 8
            mem := (List.range 8).flatMap fun j =>
              [(0x400 + 0x20 * j, 4), (0x404 + 0x20 * j, 15), (0x405 + 0x20 * j, 0),
                (0x406 + 0x20 * j, 0), (0x407 + 0x20 * j, 0)] })
        = some (some .rangeError)
      ∧ (nextOf (exec .cmdEnc
          { len 0 with
            ccount := 15
            mem := (List.range 15).map fun j => (0x400 + 0x20 * j, 2) })).map (·.olen)
        = some 15 := by
  decide +kernel

theorem witness_AesRoundsFollowTheirRules (key block : Bytes) :
    ∃ S : Nat → Bytes, S 0 = addRoundKey (keySchedule key) 0 block
      ∧ ∀ t, 1 ≤ t → t ≤ 9 → S t = addRoundKey (keySchedule key) t
        (mixColumns (shiftRows (subBytes (S (t - 1))))) :=
  ⟨fun t => aesRounds (keySchedule key) t block, rfl, fun t h _ => by
    obtain ⟨n, rfl⟩ : ∃ n, t = n + 1 := ⟨t - 1, by omega⟩
    rfl⟩

/-- The first words of FIPS-197's own expanded key are not given by the spec; the key of R101 is. -/
theorem witness_KeyExpansionFollowsItsRule :
    (intBlock 0x000102030405060708090a0b0c0d0e0f).length = 16
      ∧ (keySchedule (intBlock 0x000102030405060708090a0b0c0d0e0f))[3]?
        = some [0x0c, 0x0d, 0x0e, 0x0f] := by
  decide +kernel

theorem witness_AesEncFollowsItsRule :
    ∀ k ∈ [KSel.nwks, .apps, .app],
      err (exec (.aesEnc k) (keyed 257)) = some (some .sizeError)
      ∧ err (exec (.aesEnc k) (keyed 15)) = some (some .sizeError)
      ∧ err (exec (.aesEnc k) (keyed 17)) = some (some .sizeError)
      ∧ err (exec (.aesEnc k) (len 16)) = some (some .missingKeyError)
      ∧ err (exec (.aesEnc k) { input (List.replicate 16 0) with keyctl := 7 }) = some none := by
  decide +kernel

theorem witness_KeystreamIsTheEncryptedCounterBlocks :
    (keystreamBytes zeroBlock 0 0 0 0).length = 0 ∧ (keystreamBytes zeroBlock 0 0 0 17).length = 17
      ∧ (keystreamBytes zeroBlock 1 5 9 256).length = 256 := by
  decide +kernel

/-- Both ports, both ends of the length, FPort absent and present. -/
theorem witness_KeystreamFollowsItsRule :
    err (exec .keystream (keyed 257)) = some (some .sizeError)
      ∧ err (exec .keystream (keyed 256)) = some (some .consistencyError)
      ∧ err (exec .keystream (keyed 0)) = some none
      ∧ err (exec .keystream { keyed 0 with keyctl := 6, fport := 0x100 })
        = some (some .missingKeyError)
      ∧ err (exec .keystream { keyed 0 with keyctl := 5, fport := 0x1FF })
        = some (some .missingKeyError)
      ∧ err (exec .keystream { keyed 0 with keyctl := 1, fport := 0x100 }) = some none
      ∧ err (exec .keystream { keyed 256 with keyctl := 2, fport := 0x101 }) = some none := by
  decide +kernel

theorem witness_PayloadXorFollowsItsRule :
    err (exec .payloadXor (keyed 257)) = some (some .sizeError)
      ∧ err (exec .payloadXor (keyed 1)) = some (some .consistencyError)
      ∧ err (exec .payloadXor (keyed 0)) = some none
      ∧ err (exec .payloadXor { keyed 0 with keyctl := 6, fport := 0x100 })
        = some (some .missingKeyError)
      ∧ err (exec .payloadXor { keyed 0 with keyctl := 5, fport := 0x1FF })
        = some (some .missingKeyError)
      ∧ err (exec .payloadXor { input (List.replicate 17 0) with keyctl := 1, fport := 0x100 })
        = some none := by
  decide +kernel

theorem witness_PayloadXorIsAnInvolution :
    (nextOf (exec .payloadXor { input [1, 2, 3] with keyctl := 2, fport := 0x101 })).map
      (·.status.err) = some false := by
  decide +kernel

/-- A chain for a message of two blocks, and one for each of the two forms of the last block. -/
theorem witness_CmacFollowsItsAlgorithm :
    zeroBlock.length = 16
      ∧ (∀ key msg : Bytes, ∃ X : Nat → Bytes, X 0 = List.replicate 16 0x00 ∧ ∀ i,
        X (i + 1) = aes128 key (xorBytes (X i) ((msg.drop (16 * i)).take 16)))
      ∧ (List.replicate 32 (0 : Byte)).length % 16 = 0
      ∧ (List.replicate 17 (0 : Byte)).length % 16 ≠ 0 :=
  ⟨rfl, fun key msg => ⟨cmacChain key msg, rfl, fun _ => rfl⟩, by decide, by decide⟩

theorem witness_CmacFollowsItsRule :
    ∀ k ∈ [KSel.nwks, .apps, .app],
      err (exec (.cmac k) (keyed 257)) = some (some .sizeError)
      ∧ err (exec (.cmac k) (len 256)) = some (some .missingKeyError)
      ∧ err (exec (.cmac k) (keyed 0)) = some none := by
  decide +kernel

theorem witness_MicJoinFollowsItsRule :
    err (exec .micJoin (keyed 257)) = some (some .sizeError)
      ∧ err (exec .micJoin { keyed 256 with keyctl := 3 }) = some (some .missingKeyError)
      ∧ err (exec .micJoin { keyed 0 with keyctl := 4 }) = some none := by
  decide +kernel

theorem witness_MicDataFollowsItsRule :
    err (exec .micData (keyed 257)) = some (some .sizeError)
      ∧ err (exec .micData (keyed 256)) = some (some .rangeError)
      ∧ err (exec .micData { keyed 255 with keyctl := 6 }) = some (some .missingKeyError)
      ∧ err (exec .micData { keyed 0 with keyctl := 1 }) = some none := by
  decide +kernel

/-- The MIC of rule R109's example, right, and wrong under STRICT; `test_verify_join_mismatch` is the
mismatch without STRICT. -/
theorem witness_VerifyJoinFollowsItsRule :
    err (exec (.verifyJoin true) (keyed 257)) = some (some .sizeError)
      ∧ err (exec (.verifyJoin true) { keyed 256 with keyctl := 3 }) = some (some .missingKeyError)
      ∧ [0x29691DBB#32, 0x29691DBA#32].map (fun m => (nextOf (exec (.verifyJoin true)
            { State.reset with
              keyctl := 4, appKey := key 0x2b7e151628aed2a6abf7158809cf4f3c, micIn := m })).map
          fun t => (t.status.ecode, t.status.micok))
        = [some (none, true), some (some .integrityError, false)] := by
  decide +kernel

/-- A mismatch without STRICT; `test_verify_data` and `test_verify_data_strict_mismatch` are the
match and the mismatch under STRICT. -/
theorem witness_VerifyDataFollowsItsRule :
    err (exec (.verifyData true) (keyed 257)) = some (some .sizeError)
      ∧ err (exec (.verifyData true) (keyed 256)) = some (some .rangeError)
      ∧ err (exec (.verifyData true) { keyed 255 with keyctl := 6 }) = some (some .missingKeyError)
      ∧ (nextOf (exec (.verifyData false) { sample with micIn := 0x0DFF112A })).map
          (fun t => (t.status.ecode, t.status.micok)) = some (none, false) := by
  decide +kernel

/-- Two states that agree on the operands and differ in MIC_IN, OBUF and MHDR. -/
theorem witness_MicDependsOnItsOperandsAlone :
    let t : State := { sample with micIn := 7, olen := 1, mhdr := 9 }
    t.ilen = sample.ilen ∧ t.keyctl = sample.keyctl
      ∧ t.input sample.ilen.toNat = sample.input sample.ilen.toNat
      ∧ t.nwkSKey = sample.nwkSKey ∧ t.dir = sample.dir ∧ t.devaddr = sample.devaddr
      ∧ t.fcnt = sample.fcnt ∧ (nextOf (exec .micData sample)).map (·.status.err) = some false
      ∧ (nextOf (exec .micJoin { sample with keyctl := 4 })).map (·.status.err) = some false := by
  decide +kernel

end Sys2Proof.Tests
end

section
/-! PROOFS. The little-endian helpers undo each other (rule R3), and O46. -/

namespace Sys2Proof.Machine

theorem byteAt_le16 (v : BitVec 16) : ∀ {k : Nat}, k < 2 → byteAt (le16 v) k = leByte v k
  | 0, _ => rfl
  | 1, _ => rfl
  | _ + 2, h => absurd h (by omega)

theorem byteAt_le24 (v : BitVec 24) : ∀ {k : Nat}, k < 3 → byteAt (le24 v) k = leByte v k
  | 0, _ => rfl
  | 1, _ => rfl
  | 2, _ => rfl
  | _ + 3, h => absurd h (by omega)

theorem byteAt_le32 (v : Word) : ∀ {k : Nat}, k < 4 → byteAt (le32 v) k = leByte v k
  | 0, _ => rfl
  | 1, _ => rfl
  | 2, _ => rfl
  | 3, _ => rfl
  | _ + 4, h => absurd h (by omega)

/-- `LE16` undoes `le16` (rule R3): the base-256 digits of a number below 256² sum to it. -/
@[simp] theorem readLE16_le16 (v : BitVec 16) : readLE16 (le16 v) 0 = v := by
  apply BitVec.eq_of_toNat_eq
  have hv : v.toNat < 65536 := v.isLt
  rw [toNat_readLE16, byteAt_le16 v (by decide), byteAt_le16 v (by decide)]
  simp only [toNat_leByte]
  omega

/-- `LE24` undoes `le24` (rule R3): the base-256 digits of a number below 256³ sum to it. -/
@[simp] theorem readLE24_le24 (v : BitVec 24) : readLE24 (le24 v) 0 = v := by
  apply BitVec.eq_of_toNat_eq
  have hv : v.toNat < 16777216 := v.isLt
  rw [toNat_readLE24, byteAt_le24 v (by decide), byteAt_le24 v (by decide),
    byteAt_le24 v (by decide)]
  simp only [toNat_leByte]
  omega

/-- `LE32` undoes `le32` (rule R3): the base-256 digits of a number below 256⁴ sum to it. -/
@[simp] theorem readLE32_le32 (v : Word) : readLE32 (le32 v) 0 = v := by
  apply BitVec.eq_of_toNat_eq
  have hv : v.toNat < 4294967296 := v.isLt
  rw [toNat_readLE32, byteAt_le32 v (by decide), byteAt_le32 v (by decide),
    byteAt_le32 v (by decide), byteAt_le32 v (by decide)]
  simp only [toNat_leByte]
  omega

/-- Settles O46: the sums are the values of the concatenations, and each inverse writes the
base-256 digits that the sum puts together again. -/
theorem littleEndianHelpers : Obligations.LittleEndianHelpers :=
  ⟨fun b o => ⟨toNat_readLE16 b o, toNat_readLE24 b o, toNat_readLE32 b o⟩,
    fun v => ⟨le16_length v, readLE16_le16 v⟩,
    fun v => ⟨le24_length v, readLE24_le24 v⟩,
    fun v => ⟨le32_length v, readLE32_le32 v⟩⟩

end Sys2Proof.Machine
end

section
/-! PROOFS. Which host accesses are admitted (rule R35), that none touches the schedule, and O17. -/

namespace Sys2Proof.Machine

theorem Access.admitted_iff (a : Access) :
    a.admitted = true ↔ a.width = .word ∧ a.off % 4 = 0 ∧ a.off < 0x800 := by
  simp [Access.admitted, Config.windowSize, and_assoc]

@[simp] theorem State.writeKeyWord_inputs (s : State) (k : KeyId) (j : Nat) (v : Word) :
    (s.writeKeyWord k j v).inputs = s.inputs := by
  cases k <;> rfl

@[simp] theorem State.writeReg_inputs (s : State) (r : WindowReg) (v : Word) :
    (s.writeReg r v).inputs = s.inputs := by
  cases r with
  | cmd => exact s.issue_inputs v
  | key k j => exact s.writeKeyWord_inputs k j v
  | _ => rfl

@[simp] theorem State.hostWrite_inputs (s : State) (r : WindowReg) (v : Word) :
    (s.hostWrite r v).inputs = s.inputs := by
  unfold State.hostWrite
  split
  · rfl
  · exact s.writeReg_inputs r v

/-- An admitted access is answered, and the schedule goes on with the moves after it. -/
theorem step_admitted {s : State} {a : Access} {rest : List Input}
    (h : s.inputs = .host a :: rest) (ha : a.admitted = true) :
    ∃ t, step s = .next t ∧ t.inputs = rest := by
  obtain ⟨off, width, kind⟩ := a
  obtain ⟨rfl, h4, h8⟩ := (Access.admitted_iff _).mp ha
  cases kind with
  | read => exact ⟨_, step_read h h4 h8, State.hostRead_inputs _ _⟩
  | write v => exact ⟨_, step_write h h4 h8, State.hostWrite_inputs _ _ v⟩

/-- Settles O17: the first clause names the ways not to be admitted, the second the one way to be. -/
theorem badAccessesAreRefused : Obligations.BadAccessesAreRefused := by
  intro s a rest h
  constructor
  · intro hbad
    have ha : a.admitted = false := by
      rw [← Bool.not_eq_true, Access.admitted_iff]
      rintro ⟨hw, h4, h8⟩
      rcases hbad with hw' | h4' | h8'
      · exact hw' hw
      · exact h4' h4
      · exact Nat.not_le.mpr h8 h8'
    exact step_refused h ha
  · intro hw h4 h8
    exact step_admitted h ((Access.admitted_iff a).mpr ⟨hw, h4, h8⟩)

end Sys2Proof.Machine
end

section
/-! PROOFS. The words that the decoder rejects (rule R52), field by field, and O2. -/

namespace Sys2Proof

/-! ## The fields of a word as numbers (rule R48) -/

theorem toNat_opcField (w : Word) : (opcField w).toNat = w.toNat % 256 := by
  rw [opcField, Machine.toNat_field]
  omega

theorem kselField_eq_iff (w : Word) (k : BitVec 2) :
    kselField w = k ↔ w.toNat / 512 % 4 = k.toNat := by
  have hk : (kselField w).toNat = w.toNat / 512 % 4 := Machine.toNat_field w 9 2
  rw [← BitVec.toNat_inj, hk]

theorem strictField_iff (w : Word) : strictField w = true ↔ w.toNat / 256 % 2 = 1 := by
  simp [strictField, BitVec.getLsbD, Nat.testBit_eq_decide_div_mod_eq]

theorem rsvdField_eq_zero_iff (w : Word) : rsvdField w = 0 ↔ w.toNat / 2048 = 0 := by
  have hr : (rsvdField w).toNat = w.toNat / 2048 :=
    (Machine.toNat_field w 11 21).trans (Nat.mod_eq_of_lt (by omega))
  rw [← BitVec.toNat_inj, hr, BitVec.ofNat_eq_ofNat, BitVec.toNat_ofNat, Nat.zero_mod]

/-! ## What each class of opcode rejects (rule R52) -/

theorem ite_error_rejects_iff {p : Prop} [Decidable p] {d : DecodeError}
    {r : Except DecodeError Instr} :
    (∃ e, (if p then .error d else r) = .error e) ↔ p ∨ ∃ e, r = .error e := by
  by_cases h : p <;> simp [h]

theorem decodePlain_rejects_iff (w : Word) (i : Instr) :
    (∃ e, decodePlain w i = .error e) ↔ w.toNat / 512 % 4 ≠ 0 ∨ w.toNat / 256 % 2 = 1 := by
  rw [decodePlain, ite_error_rejects_iff, ite_error_rejects_iff, ne_eq, kselField_eq_iff,
    strictField_iff]
  simp

theorem decodeKeyed_rejects_iff (w : Word) (mk : KSel → Instr) :
    (∃ e, decodeKeyed w mk = .error e) ↔ w.toNat / 256 % 2 = 1 ∨ w.toNat / 512 % 4 = 3 := by
  rw [decodeKeyed, ite_error_rejects_iff, ite_error_rejects_iff, kselField_eq_iff, strictField_iff]
  simp

theorem decodeStrict_rejects_iff (w : Word) (mk : Bool → Instr) :
    (∃ e, decodeStrict w mk = .error e) ↔ w.toNat / 512 % 4 ≠ 0 := by
  rw [decodeStrict, ite_error_rejects_iff, ne_eq, kselField_eq_iff]
  simp

/-- The decoder rejects the words of rule R52's clauses and no other: one case for each row of the
opcode map, and one (the last) for the opcodes between the rows. -/
theorem decode_rejects_iff (w : Word) :
    (∃ e, decode w = .error e) ↔ Machine.illegalWord w := by
  have ho := toNat_opcField w
  rw [decode, ite_error_rejects_iff, ne_eq, rsvdField_eq_zero_iff, Machine.illegalWord]
  refine Decidable.or_congr_right' fun hr => ?_
  generalize opcField w = o at ho
  split
  case h_17 =>
    simp only [← BitVec.toNat_inj, BitVec.toNat_ofNat, ho, imp_false] at *
    simp only [Except.error.injEq, exists_eq', true_iff]
    omega
  all_goals
    simp only [BitVec.toNat_ofNat] at ho
    simp only [decodePlain_rejects_iff, decodeKeyed_rejects_iff, decodeStrict_rejects_iff]
    omega

end Sys2Proof

namespace Sys2Proof.Machine

/-- A write to CMD while BUSY = 0 issues its word, legal or not (rules R119, R120). -/
theorem step_issue {s : State} {w : Word} {rest : List Input}
    (h : s.inputs = .host ⟨0x000, .word, .write w⟩ :: rest) (hp : s.pend = none) :
    step s = .next ({ s with inputs := rest }.issue w) :=
  step_write_accepted h rfl (by decide) (.inl hp)

/-- Settles O2: an illegal word is one that does not decode, so its completion is rule R120's. -/
theorem illegalWordsIssueAndEndWithIllegalCommand :
    Obligations.IllegalWordsIssueAndEndWithIllegalCommand := by
  intro w
  refine ⟨decode_rejects_iff w, fun hw s => ?_⟩
  obtain ⟨e, he⟩ := (decode_rejects_iff w).mpr hw
  refine ⟨fun rest hp h => step_issue h hp, fun hp h => ?_, fun rest hp h => ?_⟩
  · rw [step_nil_some h hp]
    exact completeWord_error s he
  · rw [step_engine_some h hp]
    exact completeWord_error { s with inputs := rest } he

end Sys2Proof.Machine
end

section
/-! PROOFS. The one legal word of an opcode without fields (rule R52), the bytes that a copy moves
and those it leaves, O30 and O31. -/

namespace Sys2Proof.Machine

/-- Of the words of an opcode that takes neither KSEL nor STRICT, only the opcode itself, with every
field 0, is legal (rules R50, R52). -/
theorem illegalWord_of_opcode_without_fields {w : Word} (hksel : w.toNat % 256 ∉ [0x20, 0x30])
    (hstrict : w.toNat % 256 ∉ [0x33, 0x34]) (hne : w ≠ BitVec.ofNat 32 (w.toNat % 256)) :
    illegalWord w := by
  have hnat : w.toNat ≠ w.toNat % 256 := fun h =>
    hne (by rw [← h, BitVec.ofNat_toNat, BitVec.setWidth_eq])
  have hfield : w.toNat / 2048 ≠ 0 ∨ w.toNat / 512 % 4 ≠ 0 ∨ w.toNat / 256 % 2 = 1 := by omega
  simp only [List.mem_cons, List.not_mem_nil, or_false, not_or] at hksel hstrict
  unfold illegalWord
  rcases hfield with hrsvd | hk | hs
  · simp only [hrsvd, ne_eq, not_false_eq_true, true_or]
  · simp only [hk, hksel, ne_eq, not_false_eq_true, and_self, true_or, or_true]
  · simp only [hs, hstrict, ne_eq, not_false_eq_true, and_self, or_true]

theorem Memory.read_copyBytes_inside {src dst n i : Nat} (m : Memory) (h : dst < src) (hi : i < n) :
    Memory.read (Memory.copyBytes m src dst n) (dst + i) = Memory.read m (src + i) := by
  rw [Memory.read_copyBytes _ _ _ _ _ h, if_pos (by omega), Nat.add_sub_cancel_left]

theorem Memory.sameOutside_copyBytes {src dst : Nat} (m : Memory) (n : Nat) (h : dst < src) :
    Memory.sameOutside m (Memory.copyBytes m src dst n) dst n := by
  intro x hx
  rw [Memory.read_copyBytes _ _ _ _ _ h, if_neg (by omega)]

theorem exec_nop (s : State) : exec .nop s = .next (s.succeeded 0x00) :=
  complete_ok 0x00 s s

theorem exec_copy (s : State) : exec .copy s = .next ((copyBody s).succeeded 0x0F) :=
  complete_ok 0x0F s (copyBody s)

/-- Settles O30: opcode 0x00 takes no field, and NOP commits the state it ran on. -/
theorem nopWritesOnlyStatus : Obligations.NopWritesOnlyStatus := by
  refine ⟨rfl, fun w hopc hne => ?_, exec_nop⟩
  exact illegalWord_of_opcode_without_fields (by simp [hopc]) (by simp [hopc]) (by rwa [hopc])

/-- Settles O31: opcode 0x0F takes no field, and COPY commits a copy from OBUF down to IBUF, which
leaves unwritten what was unwritten there. The copy runs upwards, so it is right also where OLEN
exceeds the distance of the two buffers. -/
theorem copyMovesOutputToInput : Obligations.CopyMovesOutputToInput := by
  refine ⟨rfl, fun w hopc hne => ?_, fun s => ?_⟩
  · exact illegalWord_of_opcode_without_fields (by simp [hopc]) (by simp [hopc]) (by rwa [hopc])
  · have hbelow : Config.ibufBase < Config.obufBase := by decide
    exact ⟨_, exec_copy s, rfl, fun i hi => Memory.read_copyBytes_inside s.mem hbelow hi,
      Memory.sameOutside_copyBytes s.mem s.olen.toNat hbelow⟩

end Sys2Proof.Machine
end

section
/-! PROOFS. The fields of MHDR, FCTRL and FPORT as numbers (rules R14, R16, R18), the completion of
an operation by the result of its checks, and what the reads and writes of IBUF and CLIST give. -/

namespace Sys2Proof.Machine

/-! ## The fields of the header bytes as numbers -/

theorem majorOf_eq_zero_iff (b : Byte) : majorOf b = 0 ↔ b.toNat % 4 = 0 := by
  have hb : (majorOf b).toNat = b.toNat % 4 := by rw [majorOf, toNat_field]; omega
  rw [← BitVec.toNat_inj, hb]
  rfl

theorem toNat_mtypeOf (b : Byte) : (mtypeOf b).toNat = b.toNat / 32 := by
  rw [mtypeOf, toNat_field]
  omega

theorem isDataType_mtypeOf_iff (b : Byte) :
    isDataType (mtypeOf b) = true ↔ b.toNat / 32 ∈ [2, 3, 4, 5] := by
  simp [isDataType, ← BitVec.toNat_inj, toNat_mtypeOf, or_assoc]

theorem dirOf_mtypeOf (b : Byte) : dirOf (mtypeOf b) = BitVec.ofNat 1 (b.toNat / 32) := by
  apply BitVec.eq_of_toNat_eq
  rw [dirOf, toNat_field, toNat_mtypeOf, BitVec.toNat_ofNat]
  omega

/-- Even message types carry Req commands, odd ones Ans commands (rules R61, R68). -/
theorem shapeOf_dirOf_mtypeOf (b : Byte) :
    shapeOf (dirOf (mtypeOf b)) = if b.toNat / 32 % 2 = 0 then .req else .ans := by
  have hdir : dirOf (mtypeOf b) = 0 ↔ b.toNat / 32 % 2 = 0 := by
    rw [dirOf_mtypeOf, ← BitVec.toNat_inj, BitVec.toNat_ofNat]
    rfl
  simp only [shapeOf, hdir]

theorem toNat_foptsLenOf (b : Byte) : (foptsLenOf b).toNat = b.toNat % 16 := by
  rw [foptsLenOf, toNat_field]
  omega

/-- FCtrl with its FOptsLen replaced (rule R65). -/
theorem flagsOf_append_ofNat (b : Byte) {n : Nat} (hn : n ≤ 15) :
    flagsOf b ++ BitVec.ofNat 4 n = BitVec.ofNat 8 (b.toNat / 16 * 16 + n) := by
  apply BitVec.eq_of_toNat_eq
  rw [toNat_append_eq, flagsOf, toNat_field, BitVec.toNat_ofNat, BitVec.toNat_ofNat]
  omega

theorem State.portPresent_iff (s : State) : s.portPresent = true ↔ 256 ≤ s.fport.toNat := by
  have hlt : s.fport.toNat < 512 := s.fport.isLt
  simp only [State.portPresent, BitVec.getLsbD, Nat.testBit_eq_decide_div_mod_eq,
    decide_eq_true_eq]
  omega

theorem State.port_eq (s : State) : s.port = BitVec.ofNat 8 s.fport.toNat := by
  apply BitVec.eq_of_toNat_eq
  rw [State.port, toNat_field, BitVec.toNat_ofNat]
  omega

/-- FPORT with PRESENT 1 (rule R18). -/
theorem present_append_port (b : Byte) : 1#1 ++ b = BitVec.ofNat 9 (256 + b.toNat) := by
  apply BitVec.eq_of_toNat_eq
  rw [toNat_append_eq, BitVec.toNat_ofNat, BitVec.toNat_ofNat]
  omega

/-! ## Completions, input bytes, and CLIST beside a buffer -/

theorem complete_map_ok {α : Type} {r : Except ErrKind α} {a : α} (opc : BitVec 8) (s : State)
    (f : α → State) (h : r = .ok a) :
    complete opc s (r.map f) = .next ((f a).succeeded opc) := by
  rw [h]
  exact complete_ok opc s (f a)

theorem complete_map_error {α : Type} {r : Except ErrKind α} {k : ErrKind} (opc : BitVec 8)
    (s : State) (f : α → State) (h : r = .error k) :
    complete opc s (r.map f) = .next (s.failed opc k) := by
  rw [h]
  exact complete_error opc s k

theorem byteAt_input (s : State) {n i : Nat} (h : i < n) :
    byteAt (s.input n) i = s.readByte (0x100 + i) := by
  have hi := s.readBytes_getElem? 0x100 n i h
  rwa [getElem?_eq_byteAt (by simpa using h), Option.some.injEq] at hi

theorem decodeStream_length {sh : Shape} {b : Bytes} {es : List Entry}
    (h : decodeStream sh b = .ok es) : es.length ≤ b.length :=
  decodeStreamUpTo_length h

/-- Bytes stored below CLIST leave its entries alone. -/
theorem Memory.holdsEntry_writeBytes {m : Memory} {a j : Nat} {b : Bytes} {e : Entry}
    (h : a + b.length ≤ 0x400) (he : Memory.holdsEntry m j e) :
    Memory.holdsEntry (Memory.writeBytes m a b) j e :=
  Memory.holdsEntry_congr
    (fun x hx _ => Memory.read_writeBytes_outside m a x b (.inr (by omega))) he

end Sys2Proof.Machine
end

section
/-! PROOFS. The checks of the header operations in numbers, in their order, what the operations
commit, O32, O33, O34 and O35. -/

namespace Sys2Proof.Machine

/-! ## MHDR_DEC and MHDR_ENC -/

theorem exec_mhdrDec_error {s : State} {k : ErrKind} (h : mhdrDecByte s = .error k) :
    exec .mhdrDec s = .next (s.failed 0x01 k) :=
  complete_map_error 0x01 s _ h

theorem exec_mhdrDec_ok {s : State} {b : Byte} (h : mhdrDecByte s = .ok b) :
    exec .mhdrDec s = .next ({ s with mhdr := b }.succeeded 0x01) :=
  complete_map_ok 0x01 s _ h

theorem exec_mhdrEnc (s : State) :
    exec .mhdrEnc s = .next ((s.output [s.mhdr]).succeeded 0x02) :=
  completeOutput_ok 0x02 s [s.mhdr]

theorem mhdrDecByte_long {s : State} (h : 256 < s.ilen.toNat) :
    mhdrDecByte s = .error .sizeError := by
  simp only [mhdrDecByte, State.checkedLen_error h]

theorem mhdrDecByte_empty {s : State} (h : s.ilen.toNat < 1) :
    mhdrDecByte s = .error .sizeError := by
  simp only [mhdrDecByte, State.checkedLen_ok (show s.ilen.toNat ≤ 256 by omega), h, ↓reduceIte]

theorem mhdrDecByte_ok {s : State} (h1 : 1 ≤ s.ilen.toNat) (h256 : s.ilen.toNat ≤ 256) :
    mhdrDecByte s = .ok (s.readByte 0x100) := by
  simp only [mhdrDecByte, State.checkedLen_ok h256, Nat.not_lt.mpr h1, ↓reduceIte,
    byteAt_input s h1]

/-- Settles O32: the two length checks, and past them the first input byte is IBUF[0]. -/
theorem mhdrDecReadsOneByte : Obligations.MhdrDecReadsOneByte := by
  refine ⟨rfl, fun s => ⟨fun h => ?_, fun h => ?_, fun h1 h256 => ?_⟩⟩
  · exact exec_mhdrDec_error (mhdrDecByte_long h)
  · exact exec_mhdrDec_error (mhdrDecByte_empty h)
  · exact exec_mhdrDec_ok (mhdrDecByte_ok h1 h256)

/-- Settles O33: the output is the one byte MHDR. -/
theorem mhdrEncWritesOneByte : Obligations.MhdrEncWritesOneByte :=
  ⟨rfl, fun s => ⟨_, exec_mhdrEnc s, rfl, Memory.read_write_same s.mem 0x200 s.mhdr,
    Memory.sameOutside_writeBytes s.mem 0x200 [s.mhdr]⟩⟩

/-! ## FRAME_DEC: its checks in their order (rule R64) -/

theorem exec_frameDec_error {s : State} {k : ErrKind} (h : frameDecFrame s = .error k) :
    exec .frameDec s = .next (s.failed 0x03 k) :=
  complete_map_error 0x03 s _ h

theorem exec_frameDec_ok {s : State} {f : Frame} (h : frameDecFrame s = .ok f) :
    exec .frameDec s = .next ((frameDecCommit s f).succeeded 0x03) :=
  complete_map_ok 0x03 s _ h

/-- The bytes of FOpts that the FCtrl of a message announces (rule R59). -/
def announcedOpts (m : Bytes) : Nat := (byteAt m 5).toNat % 16

/-- The commands in the FOpts of a message, read by its direction (rule R64). -/
def messageCommands (m : Bytes) : Except ErrKind (List Entry) :=
  decodeStream (if (byteAt m 0).toNat / 32 % 2 = 0 then .req else .ans)
    ((m.drop 8).take (announcedOpts m))

/-- The fields of a message that passes every check, its options decoded to `es` (rule R64). -/
def messageFrame (m : Bytes) (es : List Entry) : Frame :=
  { mhdr := byteAt m 0
    devaddr := readLE32 m 1
    fctrl := byteAt m 5
    fcnt := readLE16 m 6
    fport := if m.length - 8 - announcedOpts m = 0 then 0
      else BitVec.ofNat 9 (256 + (byteAt m (8 + announcedOpts m)).toNat)
    dir := BitVec.ofNat 1 ((byteAt m 0).toNat / 32)
    cmds := es
    payload := m.drop (9 + announcedOpts m) }

/-- Without FPort the payload is empty, as is what stands behind the end of the message. -/
theorem portAndPayload_eq (m : Bytes) (n : Nat) :
    portAndPayload m n =
      (if m.length - 8 - n = 0 then 0 else BitVec.ofNat 9 (256 + (byteAt m (8 + n)).toNat),
        m.drop (9 + n)) := by
  unfold portAndPayload
  split
  · rw [List.drop_eq_nil_of_le (by omega)]
  · rw [present_append_port]

/-- The checks of a message in numbers: MAJOR, MTYPE, FOptsLen, the options, the payload region. -/
theorem parseFrame_eq (m : Bytes) :
    parseFrame m =
      if m.length < 8 then .error .sizeError
      else if (byteAt m 0).toNat % 4 ≠ 0 then .error .rangeError
      else if (byteAt m 0).toNat / 32 ∉ [2, 3, 4, 5] then .error .consistencyError
      else if m.length < 8 + announcedOpts m then .error .sizeError
      else (messageCommands m).bind fun es =>
        if m.length - 8 - announcedOpts m = 1 then .error .consistencyError
        else .ok (messageFrame m es) := by
  simp only [parseFrame, messageCommands, messageFrame, announcedOpts, ne_eq, majorOf_eq_zero_iff,
    ← Bool.not_eq_true, isDataType_mtypeOf_iff, toNat_foptsLenOf, shapeOf_dirOf_mtypeOf,
    portAndPayload_eq]
  rw [dirOf_mtypeOf]
  generalize decodeStream _ _ = cmds
  cases cmds <;> rfl

theorem messageCommands_length {m : Bytes} {es : List Entry} (h : messageCommands m = .ok es) :
    es.length ≤ 15 := by
  have hopts : announcedOpts m < 16 := Nat.mod_lt _ (by decide)
  have hes := decodeStream_length h
  rw [List.length_take] at hes
  omega

theorem frameDecFrame_long {s : State} (h : 256 < s.ilen.toNat) :
    frameDecFrame s = .error .sizeError := by
  simp only [frameDecFrame, State.checkedLen_error h]

theorem frameDecFrame_eq_parseFrame {s : State} (h : s.ilen.toNat ≤ 256) :
    frameDecFrame s = parseFrame (s.input s.ilen.toNat) := by
  simp only [frameDecFrame, State.checkedLen_ok h]

/-! ## FRAME_DEC: the memory it commits -/

theorem frameDecCommit_holdsEntry (s : State) {f : Frame} {j : Nat} {e : Entry}
    (hpayload : f.payload.length ≤ 256) (h : f.cmds[j]? = some e) :
    Memory.holdsEntry (frameDecCommit s f).mem j e := by
  refine Memory.holdsEntry_writeBytes (by rw [Config.obufBase]; omega) ?_
  simpa using Memory.holdsEntry_writeEntries s.mem 0 j f.cmds e h

theorem frameDecCommit_read_outside (s : State) {f : Frame} {x : Nat}
    (hclist : ¬ Memory.entryByte x 0 f.cmds.length)
    (hobuf : x < 0x200 ∨ 0x200 + f.payload.length ≤ x) :
    Memory.read (frameDecCommit s f).mem x = Memory.read s.mem x :=
  (Memory.read_writeBytes_outside _ _ x _ hobuf).trans
    (Memory.read_writeEntries_outside s.mem 0 x f.cmds (by rwa [Nat.zero_add]))

/-- Settles O34: the checks of `parseFrame_eq` are the statement's, taken one after the other. The
payload ends below CLIST, so that it leaves the entries written before it alone. -/
theorem frameDecFollowsItsRule : Obligations.FrameDecFollowsItsRule := by
  refine ⟨rfl, fun s => ⟨fun h => ?_, fun h => ?_, fun h8 h256 => ?_⟩⟩
  · exact exec_frameDec_error (frameDecFrame_long h)
  · refine exec_frameDec_error ?_
    rw [frameDecFrame_eq_parseFrame (by omega), parseFrame_eq, State.input_length, if_pos h]
  intro m mhdr mt n r cmds
  have hm : m.length = s.ilen.toNat := s.input_length s.ilen.toNat
  have hframe := (frameDecFrame_eq_parseFrame h256).trans (parseFrame_eq m)
  rw [hm, if_neg (Nat.not_lt.mpr h8)] at hframe
  refine ⟨fun hmajor => ?_, fun hmajor htype => ?_, fun hmajor htype => ?_⟩
  · exact exec_frameDec_error (hframe.trans (if_pos hmajor))
  · rw [if_neg (Decidable.not_not.mpr hmajor)] at hframe
    exact exec_frameDec_error (hframe.trans (if_pos htype))
  rw [if_neg (Decidable.not_not.mpr hmajor), if_neg (Decidable.not_not.mpr htype)] at hframe
  refine ⟨fun hcut => ?_, fun hopts => ?_⟩
  · exact exec_frameDec_error (hframe.trans (if_pos hcut))
  rw [if_neg (show ¬ s.ilen.toNat < 8 + announcedOpts m from Nat.not_lt.mpr hopts)] at hframe
  refine ⟨fun k hcmds => ?_, fun es hcmds => ?_⟩
  · rw [show messageCommands m = .error k from hcmds] at hframe
    exact exec_frameDec_error hframe
  rw [show messageCommands m = .ok es from hcmds, Except.bind] at hframe
  refine ⟨fun hr => ?_, fun hr => ?_⟩
  · exact exec_frameDec_error (hframe.trans (if_pos hr))
  have hpayload : (m.drop (9 + n)).length = r - 1 := by
    rw [List.length_drop]
    omega
  refine ⟨_, exec_frameDec_ok (hframe.trans (if_neg hr)), ?_, messageCommands_length hcmds,
    fun j e hj => ?_, hpayload, Memory.holds_writeBytes _ _ _, fun x hclist hobuf => ?_⟩
  · have hregion : r = m.length - 8 - n := by rw [hm]
    rw [← hpayload, hregion]
    rfl
  · exact frameDecCommit_holdsEntry s (f := messageFrame m es)
      (show (m.drop (9 + n)).length ≤ 256 by omega) hj
  · rw [← hpayload] at hobuf
    exact frameDecCommit_read_outside s (f := messageFrame m es) hclist hobuf

/-! ## FRAME_ENC: its checks in their order (rule R65) -/

theorem exec_frameEnc_error {s : State} {k : ErrKind} (h : frameEncBytes s = .error k) :
    exec .frameEnc s = .next (s.failed 0x04 k) :=
  complete_map_error 0x04 s _ h

theorem exec_frameEnc_ok {s : State} {r : Bytes × Bytes} (h : frameEncBytes s = .ok r) :
    exec .frameEnc s = .next ((frameEncCommit s r).succeeded 0x04) :=
  complete_map_ok 0x04 s _ h

theorem frameEncBytes_long {s : State} (h : 256 < s.ilen.toNat) :
    frameEncBytes s = .error .sizeError := by
  simp only [frameEncBytes, State.checkedLen_error h]

/-- The options that FRAME_ENC encodes from CLIST, by the direction of MHDR (rule R65). -/
def State.listedOpts (s : State) : Except ErrKind Bytes :=
  encodeStream (if s.mhdr.toNat / 32 % 2 = 0 then .req else .ans) (s.readEntries s.ccount.toNat)

/-- The whole message around the options `fopts` (rule R65). -/
def State.message (s : State) (fopts : Bytes) : Bytes :=
  frameBytes s fopts (frameTail s s.ilen.toNat)

/-- The checks of FRAME_ENC in numbers: MAJOR, MTYPE, the options, FPort with a payload and only
with one, the message's length. -/
theorem frameEncBytes_eq {s : State} (h : s.ilen.toNat ≤ 256) :
    frameEncBytes s =
      if s.mhdr.toNat % 4 ≠ 0 then .error .rangeError
      else if s.mhdr.toNat / 32 ∉ [2, 3, 4, 5] then .error .consistencyError
      else s.listedOpts.bind fun fopts =>
        if 15 < fopts.length then .error .rangeError
        else if 256 ≤ s.fport.toNat ∧ s.ilen.toNat = 0 then .error .consistencyError
        else if ¬ 256 ≤ s.fport.toNat ∧ 0 < s.ilen.toNat then .error .consistencyError
        else if 256 < (s.message fopts).length then .error .sizeError
        else .ok (fopts, s.message fopts) := by
  simp only [frameEncBytes, State.checkedLen_ok h, ne_eq, majorOf_eq_zero_iff, ← Bool.not_eq_true,
    isDataType_mtypeOf_iff, shapeOf_dirOf_mtypeOf, State.portPresent_iff]
  rw [← State.listedOpts]
  cases s.listedOpts <;> rfl

/-- The message of rule R65 when FPort and a payload are both there or both absent. -/
theorem State.message_eq {s : State} {fopts : Bytes} (hfit : fopts.length ≤ 15)
    (hport : 256 ≤ s.fport.toNat ↔ 0 < s.ilen.toNat) :
    s.message fopts =
      [s.mhdr] ++ le32 s.devaddr ++ [BitVec.ofNat 8 (s.fctrl.toNat / 16 * 16 + fopts.length)]
        ++ le16 s.fcnt ++ fopts
        ++ (if 0 < s.ilen.toNat then BitVec.ofNat 8 s.fport.toNat :: s.input s.ilen.toNat
            else []) := by
  simp only [State.message, frameBytes, frameTail, flagsOf_append_ofNat _ hfit,
    State.portPresent_iff, hport, State.port_eq]

/-- Settles O35: the checks of `frameEncBytes_eq` are the statement's, taken one after the other. -/
theorem frameEncFollowsItsRule : Obligations.FrameEncFollowsItsRule := by
  refine ⟨rfl, fun s => ⟨fun h => ?_, fun h256 => ?_⟩⟩
  · exact exec_frameEnc_error (frameEncBytes_long h)
  intro mt present opts
  have hbytes := frameEncBytes_eq h256
  refine ⟨fun hmajor => ?_, fun hmajor htype => ?_, fun hmajor htype => ?_⟩
  · exact exec_frameEnc_error (hbytes.trans (if_pos hmajor))
  · rw [if_neg (Decidable.not_not.mpr hmajor)] at hbytes
    exact exec_frameEnc_error (hbytes.trans (if_pos htype))
  rw [if_neg (Decidable.not_not.mpr hmajor), if_neg (Decidable.not_not.mpr htype)] at hbytes
  refine ⟨fun k hopts => ?_, fun fopts hopts => ?_⟩
  · rw [show s.listedOpts = .error k from hopts] at hbytes
    exact exec_frameEnc_error hbytes
  rw [show s.listedOpts = .ok fopts from hopts, Except.bind] at hbytes
  refine ⟨fun hlong => ?_, fun hfit => ?_⟩
  · exact exec_frameEnc_error (hbytes.trans (if_pos hlong))
  rw [if_neg (Nat.not_lt.mpr hfit)] at hbytes
  refine ⟨fun hport hempty => ?_, fun hport hsome => ?_, fun hport => ?_⟩
  · exact exec_frameEnc_error (hbytes.trans (if_pos ⟨hport, hempty⟩))
  · rw [if_neg (fun h => hport h.1)] at hbytes
    exact exec_frameEnc_error (hbytes.trans (if_pos ⟨hport, hsome⟩))
  rw [if_neg (fun h => Nat.ne_of_gt (hport.mp h.1) h.2), if_neg (fun h => h.1 (hport.mpr h.2)),
    State.message_eq hfit hport] at hbytes
  intro fctrl out
  refine ⟨fun hlong => ?_, fun hout => ?_⟩
  · exact exec_frameEnc_error (hbytes.trans (if_pos hlong))
  refine ⟨_, exec_frameEnc_ok (hbytes.trans (if_neg (Nat.not_lt.mpr hout))), ?_,
    Memory.holds_writeBytes s.mem 0x200 out, Memory.sameOutside_writeBytes s.mem 0x200 out⟩
  have hfctrl : fctrl = flagsOf s.fctrl ++ BitVec.ofNat 4 fopts.length :=
    (flagsOf_append_ofNat s.fctrl hfit).symm
  rw [hfctrl, ← dirOf_mtypeOf]
  rfl

end Sys2Proof.Machine
end

section
/-! PROOFS. The ids outside the registry (rule R69), the codec of command streams by its first
command or entry (rules R89, R90), O38 and O39. -/

namespace Sys2Proof.Machine

theorem CmdId.ofByte_unknown {b : Byte} (h : b.toNat < 2 ∨ 8 < b.toNat) :
    CmdId.ofByte b = none := by
  cases hc : CmdId.ofByte b with
  | none => rfl
  | some c =>
    rw [CmdId.byte_of_ofByte hc] at h
    revert h
    cases c <;> decide

/-! ## Decoding (rule R89) -/

@[simp] theorem decodeStream_nil (sh : Shape) : decodeStream sh [] = .ok [] := rfl

theorem decodeStream_cons_unknown {cid : Byte} (sh : Shape) (rest : Bytes)
    (h : CmdId.ofByte cid = none) :
    decodeStream sh (cid :: rest) = .error .unknownCommandError := by
  simp only [decodeStream, List.length_cons, decodeStreamUpTo, h]

theorem decodeStream_cons_known {cid : Byte} {c : CmdId} (sh : Shape) (rest : Bytes)
    (h : CmdId.ofByte cid = some c) :
    decodeStream sh (cid :: rest) =
      if rest.length < bodySize c sh then .error .unknownCommandError
      else (decodeStream sh (rest.drop (bodySize c sh))).map
        (decodeBody c sh (rest.take (bodySize c sh)) :: ·) := by
  have hbound := decodeStreamUpTo_bound sh rest.length (rest.drop (bodySize c sh)) (by simp)
  simp only [decodeStream, List.length_cons, decodeStreamUpTo, h, hbound]
  generalize decodeStreamUpTo sh _ _ = r
  cases r <;> rfl

/-- Settles O38: the unknown id and the known one are the two cases of the first byte, and the
bound on the number of entries is `decodeStream_length`. -/
theorem commandStreamDecodeFollowsItsRule : Obligations.CommandStreamDecodeFollowsItsRule := by
  refine fun sh => ⟨decodeStream_nil sh, fun cid rest => ⟨fun h => ?_, fun c hc => ?_⟩,
    fun s es h => decodeStream_length h⟩
  · exact decodeStream_cons_unknown sh rest (CmdId.ofByte_unknown h)
  rw [decodeStream_cons_known sh rest hc]
  refine ⟨fun hcut => if_pos hcut, fun hbody => ?_⟩
  rw [if_neg (Nat.not_lt.mpr hbody)]
  refine ⟨fun k hk => ?_, fun es hes => ?_⟩
  · rw [hk]; rfl
  · rw [hes]; rfl

/-! ## Encoding (rule R90) -/

@[simp] theorem encodeStream_nil (sh : Shape) : encodeStream sh [] = .ok [] := rfl

theorem encodeStream_cons_unknown {e : Entry} (sh : Shape) (es : List Entry)
    (h : CmdId.ofByte e.cid = none) :
    encodeStream sh (e :: es) = .error .unknownCommandError := by
  simp only [encodeStream, encodeEntry, h]

theorem encodeStream_cons_known {e : Entry} {c : CmdId} (sh : Shape) (es : List Entry)
    (h : CmdId.ofByte e.cid = some c) :
    encodeStream sh (e :: es) =
      (encodeBody c sh e).bind fun b => (encodeStream sh es).map (e.cid :: b ++ ·) := by
  simp only [encodeStream, encodeEntry, h]
  cases encodeBody c sh e with
  | error k => rfl
  | ok b => cases encodeStream sh es <;> rfl

/-- Settles O39: the id of the first entry is looked at before its body, the body before the
rest. -/
theorem commandStreamEncodeFollowsItsRule : Obligations.CommandStreamEncodeFollowsItsRule := by
  refine fun sh => ⟨encodeStream_nil sh, fun e es => ⟨fun h => ?_, fun c hc => ?_⟩⟩
  · exact encodeStream_cons_unknown sh es (CmdId.ofByte_unknown h)
  rw [encodeStream_cons_known sh es hc]
  refine ⟨fun k hk => ?_, fun b hb => ?_⟩
  · rw [hk]; rfl
  rw [hb, Except.bind]
  refine ⟨fun k hk => ?_, fun bs hbs => ?_⟩
  · rw [hk]; rfl
  · rw [hbs]; rfl

end Sys2Proof.Machine
end

section
/-! PROOFS. The completion of CMD_DEC and CMD_ENC by the result of their checks, O44 and O45. -/

namespace Sys2Proof.Machine

/-- Direction 0 carries Req commands, direction 1 Ans commands (rule R68). -/
theorem shapeOf_eq (dir : BitVec 1) : shapeOf dir = if dir.toNat = 0 then .req else .ans := by
  simp only [shapeOf, ← BitVec.toNat_inj]
  rfl

/-! ## CMD_DEC (rule R92) -/

theorem exec_cmdDec_error {s : State} {k : ErrKind} (h : cmdDecList s = .error k) :
    exec .cmdDec s = .next (s.failed 0x10 k) :=
  complete_map_error 0x10 s _ h

theorem exec_cmdDec_ok {s : State} {es : List Entry} (h : cmdDecList s = .ok es) :
    exec .cmdDec s = .next ((cmdDecCommit s es).succeeded 0x10) :=
  complete_map_ok 0x10 s _ h

theorem cmdDecList_long {s : State} (h : 256 < s.ilen.toNat) :
    cmdDecList s = .error .sizeError := by
  simp only [cmdDecList, State.checkedLen_error h]

theorem cmdDecList_overOptions {s : State} (h15 : 15 < s.ilen.toNat) (h256 : s.ilen.toNat ≤ 256) :
    cmdDecList s = .error .rangeError := by
  simp only [cmdDecList, State.checkedLen_ok h256]
  exact if_pos h15

theorem cmdDecList_eq_decodeStream {s : State} (h : s.ilen.toNat ≤ 15) :
    cmdDecList s =
      decodeStream (if s.dir.toNat = 0 then .req else .ans) (s.input s.ilen.toNat) := by
  have h256 : s.ilen.toNat ≤ 256 := by omega
  simp only [cmdDecList, State.checkedLen_ok h256, shapeOf_eq]
  exact if_neg (Nat.not_lt.mpr h)

/-- Settles O44: the two length checks, then the stream's result; the input is at most 15 bytes
long, and so is the list of entries that the commit writes. -/
theorem cmdDecFollowsItsRule : Obligations.CmdDecFollowsItsRule := by
  refine ⟨rfl, fun s => ⟨fun h => ?_, fun h15 h256 => ?_, fun h15 => ?_⟩⟩
  · exact exec_cmdDec_error (cmdDecList_long h)
  · exact exec_cmdDec_error (cmdDecList_overOptions h15 h256)
  intro cmds
  have hlist : cmdDecList s = cmds := cmdDecList_eq_decodeStream h15
  refine ⟨fun k hk => exec_cmdDec_error (hlist.trans hk), fun es hes => ?_⟩
  have hlen : es.length ≤ 15 := by
    have hinput := decodeStream_length hes
    rw [State.input_length] at hinput
    exact Nat.le_trans hinput h15
  refine ⟨_, exec_cmdDec_ok (hlist.trans hes), rfl, hlen, fun j e hj => ?_, fun x hx => ?_⟩
  · have hentry := Memory.holdsEntry_writeEntries s.mem 0 j es e hj
    rwa [Nat.zero_add] at hentry
  · exact Memory.read_writeEntries_outside s.mem 0 x es (by rwa [Nat.zero_add])

/-! ## CMD_ENC (rule R93) -/

theorem exec_cmdEnc_error {s : State} {k : ErrKind} (h : cmdEncBytes s = .error k) :
    exec .cmdEnc s = .next (s.failed 0x11 k) :=
  complete_map_error 0x11 s _ h

theorem exec_cmdEnc_ok {s : State} {b : Bytes} (h : cmdEncBytes s = .ok b) :
    exec .cmdEnc s = .next ((s.output b).succeeded 0x11) :=
  complete_map_ok 0x11 s _ h

theorem cmdEncBytes_eq (s : State) :
    cmdEncBytes s =
      (encodeStream (if s.dir.toNat = 0 then .req else .ans)
        (s.readEntries s.ccount.toNat)).bind fun b =>
          if 15 < b.length then .error .rangeError else .ok b := by
  rw [cmdEncBytes, shapeOf_eq]
  generalize encodeStream _ _ = r
  cases r <;> rfl

/-- Settles O45: the encoding's result, then the length check on its bytes. -/
theorem cmdEncFollowsItsRule : Obligations.CmdEncFollowsItsRule := by
  refine ⟨rfl, fun s => ?_⟩
  intro opts
  have hbytes : cmdEncBytes s = opts.bind _ := cmdEncBytes_eq s
  refine ⟨fun k hk => ?_, fun b hb => ?_⟩
  · rw [hk] at hbytes
    exact exec_cmdEnc_error hbytes
  rw [hb, Except.bind] at hbytes
  refine ⟨fun hlong => ?_, fun hfit => ?_⟩
  · exact exec_cmdEnc_error (hbytes.trans (if_pos hlong))
  · exact ⟨_, exec_cmdEnc_ok (hbytes.trans (if_neg (Nat.not_lt.mpr hfit))), rfl,
      Memory.holds_writeBytes s.mem 0x200 b, Memory.sameOutside_writeBytes s.mem 0x200 b⟩

end Sys2Proof.Machine
end

section
/-! PROOFS. The slots that body bytes decode to and the bytes that slots encode to, as numbers
(rules R71 to R74), O40 and O41. -/

namespace Sys2Proof.Machine

/-! ## Slots from body bytes -/

theorem bits_eq (b : Byte) (lo n : Nat) :
    bits b lo n = BitVec.ofNat 32 (b.toNat / 2 ^ lo % 2 ^ n) := by
  rw [bits, ← BitVec.ofNat_toNat, toNat_field]

theorem bits_low (b : Byte) (n : Nat) : bits b 0 n = BitVec.ofNat 32 (b.toNat % 2 ^ n) := by
  rw [bits_eq, Nat.pow_zero, Nat.div_one]

/-- The upper nibble needs no mask: it ends the byte. -/
theorem bits_upperNibble (b : Byte) : bits b 4 4 = BitVec.ofNat 32 (b.toNat / 16) := by
  have hlt : b.toNat / 16 < 2 ^ 4 := by omega
  exact (bits_eq b 4 4).trans (congrArg (BitVec.ofNat 32) (Nat.mod_eq_of_lt hlt))

theorem whole_eq (b : Byte) : whole b = BitVec.ofNat 32 b.toNat :=
  (BitVec.ofNat_toNat 32 b).symm

theorem setWidth_readLE16 (b : Bytes) (o : Nat) :
    (readLE16 b o).setWidth 32
      = BitVec.ofNat 32 ((byteAt b o).toNat + 256 * (byteAt b (o + 1)).toNat) := by
  rw [← BitVec.ofNat_toNat, toNat_readLE16]

/-- A frequency in Hz from the sum of its three bytes (rule R73). -/
theorem freqOfUnits_readLE24 (b : Bytes) (o : Nat) :
    freqOfUnits (readLE24 b o)
      = BitVec.ofNat 32 (((byteAt b o).toNat + 256 * (byteAt b (o + 1)).toNat
          + 65536 * (byteAt b (o + 2)).toNat) * 100) := by
  rw [freqOfUnits, ← BitVec.ofNat_toNat, toNat_readLE24, BitVec.ofNat_mul]
  rfl

/-- A margin from its sign bit 5 and its magnitude (rule R74). -/
theorem marginOfByte_eq (b : Byte) :
    marginOfByte b
      = BitVec.ofInt 32 (if b.toNat / 32 % 2 = 1 then -((b.toNat % 32 : Nat) : Int)
          else ((b.toNat % 32 : Nat) : Int)) := by
  have hsign : b.getLsbD 5 = true ↔ b.toNat / 32 % 2 = 1 := by
    simp [BitVec.getLsbD, Nat.testBit_eq_decide_div_mod_eq]
  have hmagnitude : (b.extractLsb' 0 5).setWidth 32 = BitVec.ofNat 32 (b.toNat % 32) :=
    bits_low b 5
  simp only [marginOfByte, hsign, hmagnitude]
  split
  · rw [BitVec.ofInt_neg, BitVec.ofInt_natCast]
  · rw [BitVec.ofInt_natCast]

/-! ## Body bytes from slots -/

theorem low_eq (v : Word) : low v = BitVec.ofNat 8 v.toNat :=
  (BitVec.ofNat_toNat 8 v).symm

theorem low_add (v w : Word) : low (v + w) = low v + low w :=
  BitVec.setWidth_add v w (by decide)

theorem low_mul (v w : Word) : low (v * w) = low v * low w :=
  BitVec.setWidth_mul v w (by decide)

/-- Two slots packed in a byte, the first one above the second. -/
theorem low_pack (v m w : Word) :
    low (v * m + w) = BitVec.ofNat 8 (v.toNat * m.toNat + w.toNat) := by
  simp only [low_add, low_mul, BitVec.ofNat_add, BitVec.ofNat_mul, ← low_eq]

/-- Three slots packed in a byte, the last one lowest. -/
theorem low_pack₃ (u m v n w : Word) :
    low (u * m + v * n + w)
      = BitVec.ofNat 8 (u.toNat * m.toNat + v.toNat * n.toNat + w.toNat) := by
  simp only [low_add, low_mul, BitVec.ofNat_add, BitVec.ofNat_mul, ← low_eq]

/-- Byte `k` of the lowest `n` bits of a word that hold it whole. -/
theorem leByte_setWidth {n k : Nat} (v : Word) (h : 8 * k + 8 ≤ n) :
    leByte (v.setWidth n) k = BitVec.ofNat 8 (v.toNat / 256 ^ k) := by
  rw [← leByte_eq]
  apply BitVec.eq_of_getLsbD_eq
  intro i hi
  have hin : 8 * k + i < n := by omega
  simp [leByte, hin]

theorem le16_setWidth (v : Word) :
    le16 (v.setWidth 16) = [BitVec.ofNat 8 v.toNat, BitVec.ofNat 8 (v.toNat / 256)] := by
  simp [le16, leByte_setWidth]

/-- The three bytes of a frequency, its number of 100 Hz units (rule R73). -/
theorem le24_unitsOfFreq (v : Word) :
    le24 (unitsOfFreq v) = [BitVec.ofNat 8 (v.toNat / 100), BitVec.ofNat 8 (v.toNat / 100 / 256),
      BitVec.ofNat 8 (v.toNat / 100 / 65536)] := by
  simp [le24, unitsOfFreq, leByte_setWidth]

/-- A margin's byte, its sign above its magnitude (rule R74). -/
theorem byteOfMargin_eq (v : Word) :
    byteOfMargin v = BitVec.ofNat 8 ((if v.toInt < 0 then 0x20 else 0x00) + v.toInt.natAbs) := by
  rw [byteOfMargin, BitVec.ofNat_add]
  split <;> rfl

/-! ## The range check (rules R71, R73, R74) -/

@[simp] theorem FieldKind.fits_unsigned (n : Nat) (v : Word) :
    (FieldKind.unsigned n).fits v = true ↔ v.toNat < 2 ^ n :=
  decide_eq_true_iff

@[simp] theorem FieldKind.fits_frequency (v : Word) :
    FieldKind.frequency.fits v = true ↔ v.toNat % 100 = 0 ∧ v.toNat / 100 ≤ 0xFFFFFF := by
  simp [FieldKind.fits]

@[simp] theorem FieldKind.fits_margin (v : Word) :
    FieldKind.margin.fits v = true ↔ -31 ≤ v.toInt ∧ v.toInt ≤ 31 := by
  simp [FieldKind.fits]

/-- `v` fits slot `i` of a shape that uses the slots `kinds`; an unused slot takes any value. -/
def slotFits (kinds : List FieldKind) (i : Nat) (v : Word) : Prop :=
  ∀ k ∈ kinds[i]?, k.fits v = true

/-- Each slot that the shape uses is checked, and no other. -/
theorem Entry.inRange_iff (e : Entry) (kinds : List FieldKind) :
    e.inRange kinds = true ↔
      slotFits kinds 0 e.f0 ∧ slotFits kinds 1 e.f1 ∧ slotFits kinds 2 e.f2
        ∧ slotFits kinds 3 e.f3 ∧ slotFits kinds 4 e.f4 := by
  match kinds with
  | [] | [_] | [_, _] | [_, _, _] | [_, _, _, _] | _ :: _ :: _ :: _ :: _ :: _ =>
    simp [Entry.inRange, Entry.slots, slotFits]

/-- A body's encoding, from its range check in numbers and its bytes in numbers. -/
theorem encodeBody_eq {c : CmdId} {sh : Shape} {e : Entry} {p : Prop} [Decidable p] {b : Bytes}
    (hrange : e.inRange (slotKinds c sh) = true ↔ p) (hbytes : bodyBytes c sh e = b) :
    encodeBody c sh e = if p then .ok b else .error .rangeError := by
  simp only [encodeBody, hrange, hbytes]

/-- Settles O40: each body by the lemmas for the fields it has. -/
theorem requestBodiesFollowTheirRules : Obligations.RequestBodiesFollowTheirRules := by
  constructor
  · intro b0 b1 b2 b3 b4
    refine ⟨rfl, ?linkADR, ?dutyCycle, ?rxParamSetup, rfl, ?newChannel, ?rxTimingSetup⟩
    case linkADR =>
      rw [decodeBody, bits_upperNibble, bits_low, setWidth_readLE16, bits_eq, bits_low]; rfl
    case dutyCycle => rw [decodeBody, bits_low]; rfl
    case rxParamSetup => rw [decodeBody, bits_eq, bits_low, freqOfUnits_readLE24]; rfl
    case newChannel =>
      rw [decodeBody, whole_eq, freqOfUnits_readLE24, bits_upperNibble, bits_low]; rfl
    case rxTimingSetup => rw [decodeBody, bits_low]; rfl
  · intro e
    refine ⟨rfl, ?linkADR, ?dutyCycle, ?rxParamSetup, rfl, ?newChannel, ?rxTimingSetup⟩
    all_goals refine encodeBody_eq (by simp [Entry.inRange_iff, slotFits, slotKinds, and_assoc]) ?_
    case linkADR => rw [bodyBytes, low_pack, low_pack, le16_setWidth]; rfl
    case dutyCycle => rw [bodyBytes, low_eq]
    case rxParamSetup => rw [bodyBytes, low_pack, le24_unitsOfFreq]; rfl
    case newChannel => rw [bodyBytes, low_eq, le24_unitsOfFreq, low_pack]; rfl
    case rxTimingSetup => rw [bodyBytes, low_eq]

/-- Settles O41: each body by the lemmas for the fields it has, the margin by `marginOfByte_eq`
and `byteOfMargin_eq`. -/
theorem answerBodiesFollowTheirRules : Obligations.AnswerBodiesFollowTheirRules := by
  constructor
  · intro b0 b1
    refine ⟨?linkCheck, ?linkADR, rfl, ?rxParamSetup, ?devStatus, ?newChannel, rfl⟩
    case linkCheck => rw [decodeBody, whole_eq, whole_eq]; rfl
    case linkADR => rw [decodeBody, bits_low, bits_eq, bits_eq]; rfl
    case rxParamSetup => rw [decodeBody, bits_low, bits_eq, bits_eq]; rfl
    case devStatus => rw [decodeBody, whole_eq, marginOfByte_eq]; rfl
    case newChannel => rw [decodeBody, bits_low, bits_eq]; rfl
  · intro e
    refine ⟨?linkCheck, ?linkADR, rfl, ?rxParamSetup, ?devStatus, ?newChannel, rfl⟩
    all_goals refine encodeBody_eq (by simp [Entry.inRange_iff, slotFits, slotKinds]) ?_
    case linkCheck => rw [bodyBytes, low_eq, low_eq]
    case linkADR => rw [bodyBytes, low_pack₃]; rfl
    case rxParamSetup => rw [bodyBytes, low_pack₃]; rfl
    case devStatus => rw [bodyBytes, low_eq, byteOfMargin_eq]
    case newChannel => rw [bodyBytes, low_pack]; rfl

end Sys2Proof.Machine
end

section
/-! PROOFS. The steps of a round on the entries of the state (rules R95, R97), the doubling and
tripling of GF(2^8), the inverse behind each entry of the S-box (rule R96), and O47. -/

namespace Sys2Proof.Machine

/-! ## The rounds -/

/-- A sequence that starts with AddRoundKey(0) and takes a full round at each step holds the
states of the model's rounds. -/
theorem aesRounds_of_steps {w : List Bytes} {block : Bytes} {S : Nat → Bytes} {n : Nat}
    (h0 : S 0 = addRoundKey w 0 block)
    (hstep : ∀ t, 1 ≤ t → t ≤ n →
      S t = addRoundKey w t (mixColumns (shiftRows (subBytes (S (t - 1)))))) :
    ∀ t, t ≤ n → S t = aesRounds w t block
  | 0, _ => h0
  | t + 1, ht => by
    rw [hstep (t + 1) (by omega) ht, Nat.add_sub_cancel,
      aesRounds_of_steps h0 hstep t (by omega), aesRounds]

/-! ## The steps of a round on `s[r][c]` -/

theorem cell_addRoundKey (w : List Bytes) (t : Nat) (s : Bytes) {r c : Nat} (hr : r < 4)
    (hc : c < 4) :
    cell (addRoundKey w t s) r c = cell s r c ^^^ byteAt (w.getD (4 * t + c) []) r :=
  cell_matrix _ r c hr hc

theorem cell_subBytes (s : Bytes) {r c : Nat} (hr : r < 4) (hc : c < 4) :
    cell (subBytes s) r c = sbox (cell s r c) :=
  cell_matrix _ r c hr hc

theorem cell_shiftRows (s : Bytes) {r c : Nat} (hr : r < 4) (hc : c < 4) :
    cell (shiftRows s) r c = cell s r ((c + r) % 4) :=
  cell_matrix _ r c hr hc

/-- `2•a` is the product of 2 and `a` in the field (rule R97). -/
theorem fieldMul_two : ∀ a : Byte, fieldMul 2 a = xtime a := by decide

/-- `3•a = 2•a ⊕ a` is the product of 3 and `a` in the field (rule R97). -/
theorem fieldMul_three : ∀ a : Byte, fieldMul 3 a = xtime a ^^^ a := by decide

theorem cell_mixColumns (s : Bytes) {r c : Nat} (hr : r < 4) (hc : c < 4) :
    cell (mixColumns s) r c =
      fieldMul 2 (cell s r c) ^^^ fieldMul 3 (cell s ((r + 1) % 4) c)
        ^^^ cell s ((r + 2) % 4) c ^^^ cell s ((r + 3) % 4) c := by
  rw [fieldMul_two, fieldMul_three]
  exact cell_matrix _ r c hr hc

/-! ## The S-box -/

/-- The affine map of rule R96. -/
def sboxAffine (b : Byte) : Byte :=
  b ^^^ b.rotateLeft 1 ^^^ b.rotateLeft 2 ^^^ b.rotateLeft 3 ^^^ b.rotateLeft 4 ^^^ 0x63

/-- The byte that the affine map takes to `SBOX[a]`, by the map's own inverse: the inverse of `a`
that the table stands for. -/
def sboxInverse (a : Byte) : Byte :=
  (sbox a).rotateLeft 1 ^^^ (sbox a).rotateLeft 3 ^^^ (sbox a).rotateLeft 6 ^^^ 0x05

theorem sbox_eq_sboxAffine : ∀ a : Byte, sbox a = sboxAffine (sboxInverse a) := by decide

/-- The table checked against the field: `inv(0) = 0`, and every other product is 1. -/
theorem sboxInverse_isInverse :
    ∀ a : Byte, a = 0 ∧ sboxInverse a = 0 ∨ fieldMul a (sboxInverse a) = 1 := by decide

/-- Settles O47: the sequence of states is that of `aesRounds`, each step has its equation on the
entries, and `sboxInverse` gives the inverse of each byte. -/
theorem aesRoundsFollowTheirRules : Obligations.AesRoundsFollowTheirRules := by
  refine ⟨fun key block S h0 hstep => ?_, fun s w t r c hr hc => ?_, fun a => ?_⟩
  · rw [aesRounds_of_steps h0 hstep 9 (by decide), aes128]
  · exact ⟨cell_addRoundKey w t s hr hc, cell_subBytes s hr hc, cell_shiftRows s hr hc,
      cell_mixColumns s hr hc⟩
  · exact ⟨sboxInverse a, sboxInverse_isInverse a, sbox_eq_sboxAffine a⟩

end Sys2Proof.Machine
end

section
/-! PROOFS. The key expansion read word by word (rule R98), and O48. -/

namespace Sys2Proof.Machine

@[simp] theorem keyWordsDown_length (key : Bytes) (n : Nat) :
    (keyWordsDown key n).length = n + 4 := by
  induction n with
  | zero => rfl
  | succ n ih => rw [keyWordsDown, List.length_cons, ih]

/-- `k` more words in front leave the words before them where they are. -/
theorem keyWordsDown_add_getElem? (key : Bytes) (n k j : Nat) :
    (keyWordsDown key (n + k))[j + k]? = (keyWordsDown key n)[j]? := by
  induction k with
  | zero => rfl
  | succ k ih => rw [← Nat.add_assoc, ← Nat.add_assoc, keyWordsDown, List.getElem?_cons_succ, ih]

/-- Word `i` of the schedule stands at its place already among the first `n + 4` words. -/
theorem keySchedule_getElem? (key : Bytes) {n i : Nat} (hn : n ≤ 40) (hi : i < n + 4) :
    (keySchedule key)[i]? = (keyWordsDown key n)[n + 3 - i]? := by
  have hlen : i < (keyWordsDown key 40).length := by rw [keyWordsDown_length]; omega
  rw [keySchedule, List.getElem?_reverse hlen, keyWordsDown_length,
    ← keyWordsDown_add_getElem? key n (40 - n)]
  congr 2 <;> omega

theorem keySchedule_length (key : Bytes) : (keySchedule key).length = 44 := by
  rw [keySchedule, List.length_reverse, keyWordsDown_length]

theorem keySchedule_getElem?_key (key : Bytes) {i : Nat} (h : i < 4) :
    (keySchedule key)[i]? = some ((key.drop (4 * i)).take 4) := by
  rw [keySchedule_getElem? key (Nat.zero_le 40) h]
  match i, h with
  | 0, _ | 1, _ | 2, _ | 3, _ => rfl

theorem scheduleWord_length (i : Nat) {w : Bytes} (h : w.length = 4) :
    (scheduleWord i w).length = 4 := by
  unfold scheduleWord
  split
  · simp [h]
  · exact h

/-- The words of a 16-byte key's expansion are 4 bytes each. -/
theorem length_of_mem_keyWordsDown {key : Bytes} (hkey : key.length = 16) (n : Nat) :
    ∀ w ∈ keyWordsDown key n, w.length = 4 := by
  induction n with
  | zero => simp [keyWordsDown, hkey]
  | succ n ih =>
    have hword (j : Nat) (hj : j < 4) : ((keyWordsDown key n).getD j []).length = 4 := by
      rw [← List.getElem_eq_getD (h := by rw [keyWordsDown_length]; omega)]
      exact ih _ (List.getElem_mem _)
    rw [keyWordsDown, List.forall_mem_cons]
    refine ⟨?_, ih⟩
    rw [xorBytes_length, hword 3 (by decide), scheduleWord_length _ (hword 0 (by decide)),
      Nat.min_self]

/-- `w[n+4]` from the words four and one before it (rule R98). -/
theorem keySchedule_step {key : Bytes} (hkey : key.length = 16) {n : Nat} (hn : n < 40) :
    ∃ p q : Bytes, (keySchedule key)[n]? = some p ∧ (keySchedule key)[n + 3]? = some q
      ∧ (keySchedule key)[n + 4]? = some (xorBytes p (scheduleWord (n + 4) q))
      ∧ (xorBytes p (scheduleWord (n + 4) q)).length = 4 := by
  have hp : 3 < (keyWordsDown key n).length := by rw [keyWordsDown_length]; omega
  have hq : 0 < (keyWordsDown key n).length := by omega
  refine ⟨(keyWordsDown key n)[3], (keyWordsDown key n)[0], ?_, ?_, ?_, ?_⟩
  · rw [keySchedule_getElem? key (Nat.le_of_lt hn) (by omega), Nat.add_sub_cancel_left,
      List.getElem?_eq_getElem]
  · rw [keySchedule_getElem? key (Nat.le_of_lt hn) (by omega), Nat.sub_self, List.getElem?_eq_getElem]
  · rw [keySchedule_getElem? key hn (by omega), Nat.sub_self, keyWordsDown,
      List.getElem?_cons_zero, List.getElem_eq_getD [], List.getElem_eq_getD []]
  · have hlen := length_of_mem_keyWordsDown hkey n
    rw [xorBytes_length, hlen _ (List.getElem_mem hp),
      scheduleWord_length _ (hlen _ (List.getElem_mem hq)), Nat.min_self]

/-- RotWord, SubWord and the round constant on a word of four bytes. -/
theorem scheduleWord_of_dvd {i : Nat} (h : i % 4 = 0) (a0 a1 a2 a3 : Byte) :
    scheduleWord i [a0, a1, a2, a3] =
      [sbox a1 ^^^ byteAt roundConstants (i / 4 - 1), sbox a2, sbox a3, sbox a0] := by
  simp [scheduleWord, h, xorBytes]

theorem scheduleWord_of_not_dvd {i : Nat} (h : i % 4 ≠ 0) (w : Bytes) : scheduleWord i w = w :=
  if_neg h

/-- Settles O48: the model's list holds the newest word first, and no later word moves an earlier
one from its place. -/
theorem keyExpansionFollowsItsRule : Obligations.KeyExpansionFollowsItsRule := by
  refine fun key hkey => ⟨keySchedule_length key, fun i hi => keySchedule_getElem?_key key hi,
    fun i h4 h44 => ?_⟩
  obtain ⟨n, rfl⟩ := Nat.exists_eq_add_of_le' h4
  obtain ⟨p, q, hp, hq, hw, hlen⟩ := keySchedule_step hkey (n := n) (by omega)
  refine ⟨p, q, _, hp, hq, hw, hlen, fun h => ?_, fun h a0 a1 a2 a3 hbytes => ?_⟩
  · rw [scheduleWord_of_not_dvd h]
  · rw [hbytes, scheduleWord_of_dvd h]
    rfl

end Sys2Proof.Machine
end

section
/-! PROOFS. The bytes of a counter block, the bytes of the keystream, and O50. -/

namespace Sys2Proof.Machine

/-- Byte `i` of encrypted blocks in a row is byte `i mod 16` of block `i / 16`. -/
theorem keystreamBlocks_getElem? (key : Bytes) (f : Nat → Bytes) {k i : Nat} (hi : i < 16 * k) :
    ((List.range k).flatMap fun j => aes128 key (f j))[i]? =
      (aes128 key (f (i / 16)))[i % 16]? := by
  induction k with
  | zero => omega
  | succ k ih =>
    rw [List.range_succ, List.flatMap_append, List.getElem?_append, keystreamBlocks_length,
      List.flatMap_singleton]
    split
    · next hlt => exact ih hlt
    · rw [show i / 16 = k by omega, show i % 16 = i - 16 * k by omega]

/-- The counter block of rule R99 byte by byte; a 16-bit FCnt leaves the upper two of its four
bytes 0. -/
theorem counterBlock_eq (dir : BitVec 1) (da : Word) (fc : BitVec 16) (i : Nat) :
    counterBlock dir da fc i =
      [0x01, 0x00, 0x00, 0x00, 0x00, BitVec.ofNat 8 dir.toNat,
       BitVec.ofNat 8 da.toNat, BitVec.ofNat 8 (da.toNat / 256),
       BitVec.ofNat 8 (da.toNat / 65536), BitVec.ofNat 8 (da.toNat / 16777216),
       BitVec.ofNat 8 fc.toNat, BitVec.ofNat 8 (fc.toNat / 256), 0x00, 0x00, 0x00,
       BitVec.ofNat 8 i] := by
  have hfc : fc.toNat < 65536 := fc.isLt
  have hwide : (fc.setWidth 32).toNat = fc.toNat := BitVec.toNat_setWidth_of_le (by decide)
  have hbyte2 : fc.toNat / 65536 = 0 := by omega
  have hbyte3 : fc.toNat / 16777216 = 0 := by omega
  simp only [counterBlock, contextBlock, le32, leByte_eq, hwide, Nat.reducePow, Nat.div_one, hbyte2,
    hbyte3, ← BitVec.ofNat_toNat 8 dir]
  rfl

theorem keystreamBytes_getElem? (key : Bytes) (dir : BitVec 1) (da : Word) (fc : BitVec 16)
    {n i : Nat} (hi : i < n) :
    (keystreamBytes key dir da fc n)[i]? =
      (aes128 key (counterBlock dir da fc (i / 16 + 1)))[i % 16]? := by
  have hblocks : i < 16 * blockCount n := by rw [blockCount]; omega
  rw [keystreamBytes, List.getElem?_take_of_lt hi,
    keystreamBlocks_getElem? key (fun j => counterBlock dir da fc (j + 1)) hblocks]

/-- Settles O50: the keystream is cut from whole encrypted blocks, whose counters start at 1. -/
theorem keystreamIsTheEncryptedCounterBlocks :
    Obligations.KeystreamIsTheEncryptedCounterBlocks := by
  refine fun key dir da fc n _ => ⟨keystreamBytes_length key dir da fc n, fun i hi => ?_⟩
  rw [keystreamBytes_getElem? key dir da fc hi, counterBlock_eq]

end Sys2Proof.Machine
end

section
/-! PROOFS. The completion of an operation with an output (rules R13, R28), the key that a select or
a port names (rules R23, R27, R50), the checks of AES_ENC, KEYSTREAM and PAYLOAD_XOR in their order,
O49, O51 and O52. -/

namespace Sys2Proof.Machine

/-! ## Completion with an output -/

theorem completeOutput_of_error {opc : BitVec 8} {s : State} {r : Except ErrKind Bytes}
    {k : ErrKind} (h : r = .error k) : completeOutput opc s r = .next (s.failed opc k) :=
  complete_map_error opc s s.output h

/-- OBUF and OLEN are written, and nothing else but STATUS. -/
theorem completeOutput_of_ok {opc : BitVec 8} {s : State} {r : Except ErrKind Bytes} {b : Bytes}
    {len : BitVec 9} (h : r = .ok b) (hlen : b.length = len.toNat) :
    completeOutput opc s r =
      .next { s.succeeded opc with olen := len, mem := s.mem.writeBytes 0x200 b } := by
  have holen : BitVec.ofNat 9 b.length = len := by
    rw [hlen, BitVec.ofNat_toNat, BitVec.setWidth_eq]
  rw [← holen]
  exact complete_map_ok opc s s.output h

theorem Memory.sameOutside_writeBytes_of_length {b : Bytes} {n : Nat} (m : Memory) (a : Nat)
    (h : b.length = n) : Memory.sameOutside m (Memory.writeBytes m a b) a n :=
  h ▸ Memory.sameOutside_writeBytes m a b

/-! ## AES_ENC (rule R101) -/

theorem exec_aesEnc (k : KSel) (s : State) :
    exec (.aesEnc k) s = completeOutput 0x20 s (aesEncBytes s k) := rfl

/-- The checks of AES_ENC with a select that names a key: one length is admitted, then the key is
required. -/
theorem aesEncBytes_eq (s : State) {k : KSel} {id : KeyId} (hk : keyOfSel k = some id) :
    aesEncBytes s k =
      if s.ilen.toNat = 16 then (s.requireKey id).map fun key => aes128 key (s.input 16)
      else .error .sizeError := by
  have hsel : k ≠ .reserved := by rintro rfl; cases hk
  simp only [aesEncBytes, if_neg hsel, State.selectedKey, hk, ne_eq, ite_not]
  obtain ⟨_, hcheck⟩ | ⟨hlong, hcheck⟩ := s.checkedLen_cases
  · simp only [hcheck]
  · have h16 : s.ilen.toNat ≠ 16 := by omega
    simp only [hcheck, if_neg h16]

/-- The three selects of rule R50, each with its key's words and KEYCTL bit (rule R23). -/
theorem keyOfSel_of_mem {s : State} {k : KSel} {key : KeyWords} {bit : Nat}
    (h : (k, key, bit) ∈ [(KSel.nwks, s.nwkSKey, 0), (.apps, s.appSKey, 1), (.app, s.appKey, 2)]) :
    ∃ id, keyOfSel k = some id ∧ s.keyWords id = key ∧ s.keyPresent id = s.keyctl.getLsbD bit := by
  simp only [List.mem_cons, List.not_mem_nil, or_false, Prod.mk.injEq] at h
  obtain ⟨rfl, rfl, rfl⟩ | ⟨rfl, rfl, rfl⟩ | ⟨rfl, rfl, rfl⟩ := h
  · exact ⟨.nwks, rfl, rfl, rfl⟩
  · exact ⟨.apps, rfl, rfl, rfl⟩
  · exact ⟨.app, rfl, rfl, rfl⟩

/-- Settles O49: both length clauses are the one length check of `aesEncBytes_eq`, and after it
comes the KEYCTL bit of the selected key. -/
theorem aesEncFollowsItsRule : Obligations.AesEncFollowsItsRule := by
  refine ⟨rfl, rfl, rfl, fun s => ⟨completeOutput_of_error rfl, fun k key bit hmem => ?_⟩⟩
  obtain ⟨id, hk, rfl, hbit⟩ := keyOfSel_of_mem hmem
  rw [exec_aesEnc, aesEncBytes_eq s hk]
  refine ⟨fun hlong => ?_, fun hsize => ?_, fun h16 habsent => ?_, fun h16 hpresent => ?_⟩
  · exact completeOutput_of_error (if_neg (by omega))
  · exact completeOutput_of_error (if_neg hsize)
  · rw [if_pos h16, State.requireKey_absent (hbit.trans habsent)]
    exact completeOutput_of_error rfl
  · rw [if_pos h16, State.requireKey_present (hbit.trans hpresent)]
    have hlen := aes128_length (s.keyWords id).bytes (s.input 16)
    exact ⟨_, completeOutput_of_ok (len := 16) rfl hlen, rfl, hlen,
      Memory.holds_writeBytes s.mem 0x200 _, Memory.sameOutside_writeBytes_of_length s.mem 0x200 hlen⟩

/-! ## The keystream of KEYSTREAM and PAYLOAD_XOR: its checks in their order -/

theorem portKeystream_long {s : State} (h : 256 < s.ilen.toNat) :
    portKeystream s = .error .sizeError := by
  simp only [portKeystream, State.checkedLen_error h]

/-- Without FPort no key is read, and no payload byte is admitted. -/
theorem portKeystream_without_port {s : State} (h256 : s.ilen.toNat ≤ 256)
    (hport : s.fport.toNat < 256) :
    portKeystream s = if 0 < s.ilen.toNat then .error .consistencyError else .ok [] := by
  have habsent : s.portPresent = false := by
    rw [← Bool.not_eq_true, State.portPresent_iff]
    exact Nat.not_le.mpr hport
  simp only [portKeystream, State.checkedLen_ok h256, if_pos habsent, gt_iff_lt]

theorem portKeystream_with_port {s : State} (h256 : s.ilen.toNat ≤ 256)
    (hport : 256 ≤ s.fport.toNat) :
    portKeystream s = (s.requireKey s.portKey).map fun key =>
      keystreamBytes key s.dir s.devaddr s.fcnt s.ilen.toNat := by
  have hpresent : s.portPresent = true := s.portPresent_iff.mpr hport
  simp only [portKeystream, State.checkedLen_ok h256, hpresent, Bool.true_eq_false, ↓reduceIte]

/-- The words and the KEYCTL bit of the key that the port selects (rules R23, R27). -/
theorem State.portKey_words_and_bit {s : State} {key : KeyWords} {bit : Nat}
    (h : (key, bit) = if s.fport.toNat % 256 = 0 then (s.nwkSKey, 0) else (s.appSKey, 1)) :
    s.keyWords s.portKey = key ∧ s.keyPresent s.portKey = s.keyctl.getLsbD bit := by
  have hzero : s.port = 0 ↔ s.fport.toNat % 256 = 0 := by
    rw [State.port_eq, ← BitVec.toNat_inj, BitVec.toNat_ofNat]
    rfl
  simp only [State.portKey, hzero]
  split at h
  case isTrue hport =>
    cases h
    rw [if_pos hport]
    exact ⟨rfl, rfl⟩
  case isFalse hport =>
    cases h
    rw [if_neg hport]
    exact ⟨rfl, rfl⟩

section
variable {s : State} {key : KeyWords} {bit : Nat} (h256 : s.ilen.toNat ≤ 256)
  (hport : 256 ≤ s.fport.toNat)
  (hkey : (key, bit) = if s.fport.toNat % 256 = 0 then (s.nwkSKey, 0) else (s.appSKey, 1))
include h256 hport hkey

theorem portKeystream_absent_key (habsent : s.keyctl.getLsbD bit = false) :
    portKeystream s = .error .missingKeyError := by
  obtain ⟨_, hbit⟩ := State.portKey_words_and_bit hkey
  rw [portKeystream_with_port h256 hport, State.requireKey_absent (hbit.trans habsent)]
  rfl

theorem portKeystream_present_key (hpresent : s.keyctl.getLsbD bit = true) :
    portKeystream s = .ok (keystreamBytes key.bytes s.dir s.devaddr s.fcnt s.ilen.toNat) := by
  obtain ⟨rfl, hbit⟩ := State.portKey_words_and_bit hkey
  rw [portKeystream_with_port h256 hport, State.requireKey_present (hbit.trans hpresent)]
  rfl

end

/-! ## KEYSTREAM (rule R102) -/

theorem exec_keystream (s : State) :
    exec .keystream s = completeOutput 0x21 s (portKeystream s) := rfl

/-- Settles O51: the statement's clauses are the checks of `portKeystream`, one after the other. -/
theorem keystreamFollowsItsRule : Obligations.KeystreamFollowsItsRule := by
  refine ⟨rfl, fun s => ?_⟩
  rw [exec_keystream]
  refine ⟨fun hlong => ?_, fun h256 hport => ?_, fun h256 hport key bit hkey => ?_⟩
  · exact completeOutput_of_error (portKeystream_long hlong)
  · rw [portKeystream_without_port h256 hport]
    refine ⟨fun hsome => ?_, fun hempty => ?_⟩
    · exact completeOutput_of_error (if_pos hsome)
    · exact completeOutput_of_ok (if_neg (by omega)) rfl
  · refine ⟨fun habsent => ?_, fun hpresent => ?_⟩
    · exact completeOutput_of_error (portKeystream_absent_key h256 hport hkey habsent)
    · have hlen := keystreamBytes_length key.bytes s.dir s.devaddr s.fcnt s.ilen.toNat
      exact ⟨_, completeOutput_of_ok (portKeystream_present_key h256 hport hkey hpresent) hlen, rfl,
        Memory.holds_writeBytes s.mem 0x200 _,
        Memory.sameOutside_writeBytes_of_length s.mem 0x200 hlen⟩

/-! ## PAYLOAD_XOR (rule R103) -/

theorem exec_payloadXor (s : State) :
    exec .payloadXor s =
      completeOutput 0x22 s ((portKeystream s).map (xorBytes (s.input s.ilen.toNat))) := rfl

theorem byteAt_xorBytes {a b : Bytes} {i : Nat} (ha : i < a.length) (hb : i < b.length) :
    byteAt (xorBytes a b) i = byteAt a i ^^^ byteAt b i := by
  have hi : i < (xorBytes a b).length := by
    rw [xorBytes_length]
    exact Nat.lt_min.mpr ⟨ha, hb⟩
  rw [byteAt_of_lt hi, byteAt_of_lt ha, byteAt_of_lt hb]
  exact List.getElem_zipWith

/-- Settles O52: the keystream's checks are those of KEYSTREAM, and the xor keeps its length, so
that output byte `i` is the xor of the two bytes `i`. -/
theorem payloadXorFollowsItsRule : Obligations.PayloadXorFollowsItsRule := by
  refine ⟨rfl, fun s => ?_⟩
  rw [exec_payloadXor]
  refine ⟨fun hlong => ?_, fun h256 hport => ?_, fun h256 hport key bit hkey => ?_⟩
  · rw [portKeystream_long hlong]
    exact completeOutput_of_error rfl
  · rw [portKeystream_without_port h256 hport]
    refine ⟨fun hsome => ?_, fun hempty => ?_⟩
    · rw [if_pos hsome]
      exact completeOutput_of_error rfl
    · rw [if_neg (by omega), hempty]
      exact completeOutput_of_ok (len := 0) rfl rfl
  · refine ⟨fun habsent => ?_, fun hpresent => ?_⟩
    · rw [portKeystream_absent_key h256 hport hkey habsent]
      exact completeOutput_of_error rfl
    · rw [portKeystream_present_key h256 hport hkey hpresent]
      have hks := keystreamBytes_length key.bytes s.dir s.devaddr s.fcnt s.ilen.toNat
      generalize keystreamBytes key.bytes s.dir s.devaddr s.fcnt s.ilen.toNat = ks at hks ⊢
      have hlen : (xorBytes (s.input s.ilen.toNat) ks).length = s.ilen.toNat := by
        rw [xorBytes_length, State.input_length, hks, Nat.min_self]
      refine ⟨_, completeOutput_of_ok rfl hlen, rfl, fun i hi => ?_,
        Memory.sameOutside_writeBytes_of_length s.mem 0x200 hlen⟩
      rw [Memory.holds_writeBytes s.mem 0x200 _ i (by rwa [hlen]),
        getElem?_eq_byteAt (by rwa [hlen]),
        byteAt_xorBytes (by rwa [State.input_length]) (by rwa [hks]), byteAt_input s hi]

end Sys2Proof.Machine
end

section
/-! PROOFS. The doubling of a block and the chain of AES-CMAC (rules R105, R106), and O54. -/

namespace Sys2Proof.Machine

/-! ## Blocks as 128-bit integers, byte 0 most significant -/

theorem bigEndian_concat (b : Bytes) (x : Byte) :
    bigEndian (b ++ [x]) = 256 * bigEndian b + x.toNat := by
  rw [bigEndian, List.foldl_append]
  rfl

theorem bigEndian_lt {b : Bytes} {n : Nat} (h : b.length = n) : bigEndian b < 256 ^ n := by
  induction n generalizing b with
  | zero =>
    rw [List.eq_nil_of_length_eq_zero h]
    decide
  | succ n ih =>
    obtain rfl | ⟨b, x, rfl⟩ := b.eq_nil_or_concat
    · cases h
    · rw [List.length_concat, Nat.add_right_cancel_iff] at h
      have hb := ih h
      rw [List.concat_eq_append, bigEndian_concat, Nat.pow_succ]
      omega

/-- A shift by a byte leaves the low byte free, so the next byte is added to it. -/
theorem toNat_shiftLeft_or_byte (v : BitVec 128) (x : Byte) :
    (v <<< 8 ||| x.setWidth 128).toNat = (256 * v.toNat + x.toNat) % 2 ^ 128 := by
  have hdisjoint : v <<< 8 &&& x.setWidth 128 = 0#128 := by
    ext i hi
    by_cases h8 : i < 8
    · simp [h8]
    · simp [BitVec.getLsbD_of_ge x i (Nat.not_lt.mp h8)]
  have hx : x.toNat < 256 := x.isLt
  rw [← BitVec.add_eq_or_of_and_eq_zero _ _ hdisjoint, BitVec.toNat_add, BitVec.toNat_shiftLeft,
    BitVec.toNat_setWidth, Nat.shiftLeft_eq]
  omega

/-- The two folds over the bytes keep step modulo `2 ^ 128`. -/
theorem toNat_blockInt (b : Bytes) : (blockInt b).toNat = bigEndian b % 2 ^ 128 := by
  refine List.foldl_rel (r := fun (v : BitVec 128) n => v.toNat = n % 2 ^ 128) rfl
    fun x _ v n hv => ?_
  rw [toNat_shiftLeft_or_byte, hv]
  omega

/-- The first `k` bytes of an integer's block are the integer without its last `d` bytes. -/
theorem bigEndian_topBytes (v : BitVec 128) {k d : Nat} (hk : k + d = 16) :
    bigEndian ((List.range k).map fun i => v.extractLsb' (8 * (15 - i)) 8) = v.toNat / 256 ^ d := by
  induction k generalizing d with
  | zero =>
    obtain rfl : d = 16 := by omega
    exact (Nat.div_eq_of_lt v.isLt).symm
  | succ k ih =>
    have hindex : 15 - k = d := by omega
    have hbyte : 2 ^ (8 * d) = 256 ^ d := Nat.pow_mul 2 8 d
    rw [List.range_succ, List.map_append, List.map_singleton, bigEndian_concat,
      ih (d := d + 1) (by omega), toNat_field, hindex, hbyte, Nat.pow_succ, ← Nat.div_div_eq_div_mul]
    exact Nat.div_add_mod _ 256

theorem bigEndian_intBlock (v : BitVec 128) : bigEndian (intBlock v) = v.toNat :=
  (bigEndian_topBytes v (d := 0) rfl).trans (Nat.div_one _)

/-- The top bit of a byte as a comparison of its number. -/
theorem getLsbD_seven_iff (x : Byte) : x.getLsbD 7 = true ↔ 0x80 ≤ x.toNat := by
  have hmsb : x.getLsbD 7 = x.msb := x.msb_eq_getLsbD_last.symm
  rw [hmsb, BitVec.msb_eq_decide, decide_eq_true_eq]

/-- `dbl` in integers (rule R105). -/
theorem bigEndian_dbl {b : Bytes} (h : b.length = 16) :
    bigEndian (dbl b) =
      (2 * bigEndian b % 2 ^ 128) ^^^ (if 0x80 ≤ (byteAt b 0).toNat then 0x87 else 0) := by
  have hb : bigEndian b < 2 ^ 128 := bigEndian_lt h
  rw [dbl, bigEndian_intBlock, BitVec.toNat_xor, BitVec.toNat_shiftLeft, Nat.shiftLeft_eq,
    toNat_blockInt, Nat.mod_eq_of_lt hb, Nat.pow_one, Nat.mul_comm]
  simp only [getLsbD_seven_iff, apply_ite BitVec.toNat]
  rfl

/-! ## The chain over the blocks of a message -/

/-- A sequence that starts at zero and links the first `n - 1` blocks holds the model's chain. -/
theorem cmacChain_of_links {key msg : Bytes} {X : Nat → Bytes} {n : Nat}
    (h0 : X 0 = List.replicate 16 0x00)
    (hlink : ∀ i, i + 1 < n → X (i + 1) = aes128 key (xorBytes (X i) ((msg.drop (16 * i)).take 16))) :
    ∀ i, i < n → X i = cmacChain key msg i
  | 0, _ => h0
  | i + 1, hi => by
    rw [hlink i hi, cmacChain_of_links h0 hlink i (Nat.lt_of_succ_lt hi), cmacChain]

theorem cmacBlocks_eq (msg : Bytes) :
    cmacBlocks msg = if msg.length = 0 then 1 else (msg.length + 15) / 16 := rfl

theorem cmacBlocks_pos (msg : Bytes) : 0 < cmacBlocks msg := by
  rw [cmacBlocks_eq]
  split <;> omega

theorem cmacLast_whole (key : Bytes) {msg : Bytes} (h : msg.length ≠ 0 ∧ msg.length % 16 = 0) :
    cmacLast key msg = xorBytes (msg.drop (16 * (cmacBlocks msg - 1))) (subkey1 key) :=
  if_pos h

theorem cmacLast_padded (key : Bytes) {msg last : Bytes}
    (h : msg.length = 0 ∨ msg.length % 16 ≠ 0) (hlast : last = msg.drop (16 * (cmacBlocks msg - 1))) :
    cmacLast key msg =
      xorBytes (last ++ 0x80 :: List.replicate (15 - last.length) 0x00) (subkey2 key) := by
  have hpartial : ¬ (msg.length ≠ 0 ∧ msg.length % 16 = 0) := by omega
  rw [hlast, cmacLast, if_neg hpartial, List.append_assoc, List.singleton_append]

/-- Settles O54: the integer of a doubled block by `bigEndian_dbl`, and the given sequence is the
model's chain up to the last block, which has its two forms. -/
theorem cmacFollowsItsAlgorithm : Obligations.CmacFollowsItsAlgorithm := by
  refine ⟨fun b hb => ⟨dbl_length b, bigEndian_dbl hb⟩, fun key msg n X hn h0 hlink => ?_⟩
  rw [← cmacBlocks_eq] at hn
  subst hn
  have hchain : X (cmacBlocks msg - 1) = cmacChain key msg (cmacBlocks msg - 1) :=
    cmacChain_of_links h0 hlink _ (Nat.sub_one_lt_of_lt (cmacBlocks_pos msg))
  intro k1 last
  refine ⟨fun hwhole => ?_, fun hpartial => ?_⟩
  · rw [hchain, aesCmac, cmacLast_whole key hwhole]
    rfl
  · rw [hchain, aesCmac, cmacLast_padded key hpartial rfl]
    rfl

end Sys2Proof.Machine
end

section
/-! PROOFS. The checks of CMAC, MIC_JOIN and MIC_DATA in their order (rules R109 to R111), the
comparison of the two verifications (rules R112, R113), and O55 to O59. -/

namespace Sys2Proof.Machine

/-! ## CMAC (rule R109) -/

theorem exec_cmac_error {s : State} {k : KSel} {e : ErrKind} (h : cmacTag s k = .error e) :
    exec (.cmac k) s = .next (s.failed 0x30 e) :=
  complete_map_error 0x30 s _ h

/-- A tag is 16 bytes long, so OLEN is 16. -/
theorem exec_cmac_ok {s : State} {k : KSel} {tag : Bytes} (h : cmacTag s k = .ok tag)
    (hlen : tag.length = 16) :
    exec (.cmac k) s =
      .next { s.succeeded 0x30 with
        olen := 16
        mic := readLE32 tag 0
        mem := s.mem.writeBytes 0x200 tag } := by
  have holen : BitVec.ofNat 9 tag.length = 16 := by rw [hlen]; rfl
  rw [← holen]
  exact complete_map_ok 0x30 s _ h

/-- The checks of CMAC with a select that names a key. -/
theorem cmacTag_eq (s : State) {k : KSel} {id : KeyId} (hk : keyOfSel k = some id) :
    cmacTag s k =
      if s.ilen.toNat ≤ 256 then
        (s.requireKey id).map fun key => aesCmac key (s.input s.ilen.toNat)
      else .error .sizeError := by
  have hsel : k ≠ .reserved := by rintro rfl; cases hk
  simp only [cmacTag, if_neg hsel, State.selectedKey, hk]
  obtain ⟨h256, hcheck⟩ | ⟨hlong, hcheck⟩ := s.checkedLen_cases
  · simp only [hcheck, if_pos h256]
  · simp only [hcheck, if_neg (Nat.not_le.mpr hlong)]

/-- Settles O55: after the length check of `cmacTag_eq` comes the KEYCTL bit of the selected key. -/
theorem cmacFollowsItsRule : Obligations.CmacFollowsItsRule := by
  refine ⟨rfl, rfl, rfl, fun s => ⟨exec_cmac_error rfl, fun k key bit hmem => ?_⟩⟩
  obtain ⟨id, hk, rfl, hbit⟩ := keyOfSel_of_mem hmem
  have htag := cmacTag_eq s hk
  refine ⟨fun hlong => ?_, fun h256 habsent => ?_, fun h256 hpresent => ?_⟩
  · exact exec_cmac_error (htag.trans (if_neg (Nat.not_le.mpr hlong)))
  · rw [if_pos h256, State.requireKey_absent (hbit.trans habsent)] at htag
    exact exec_cmac_error htag
  · rw [if_pos h256, State.requireKey_present (hbit.trans hpresent)] at htag
    have hlen := aesCmac_length (s.keyWords id).bytes (s.input s.ilen.toNat)
    exact ⟨_, exec_cmac_ok htag hlen, rfl, hlen, Memory.holds_writeBytes s.mem 0x200 _,
      Memory.sameOutside_writeBytes_of_length s.mem 0x200 hlen⟩

/-! ## The join MIC and MIC_JOIN (rule R110) -/

theorem joinMic_long {s : State} (h : 256 < s.ilen.toNat) : joinMic s = .error .sizeError := by
  simp only [joinMic, State.checkedLen_error h]

theorem joinMic_absent_key {s : State} (h256 : s.ilen.toNat ≤ 256)
    (habsent : s.keyctl.getLsbD 2 = false) : joinMic s = .error .missingKeyError := by
  simp only [joinMic, State.checkedLen_ok h256, State.requireKey_absent (k := .app) habsent]
  rfl

theorem joinMic_present_key {s : State} (h256 : s.ilen.toNat ≤ 256)
    (hpresent : s.keyctl.getLsbD 2 = true) :
    joinMic s = .ok (readLE32 (aesCmac s.appKey.bytes (s.input s.ilen.toNat)) 0) := by
  simp only [joinMic, State.checkedLen_ok h256, State.requireKey_present (k := .app) hpresent]
  rfl

theorem exec_micJoin_error {s : State} {k : ErrKind} (h : joinMic s = .error k) :
    exec .micJoin s = .next (s.failed 0x31 k) :=
  complete_map_error 0x31 s _ h

theorem exec_micJoin_ok {s : State} {m : Word} (h : joinMic s = .ok m) :
    exec .micJoin s = .next { s.succeeded 0x31 with mic := m } :=
  complete_map_ok 0x31 s _ h

/-- Settles O56: the clauses are the checks of the join MIC. -/
theorem micJoinFollowsItsRule : Obligations.MicJoinFollowsItsRule := by
  refine ⟨rfl, fun s => ⟨fun hlong => ?_, fun h256 habsent => ?_, fun h256 hpresent => ?_⟩⟩
  · exact exec_micJoin_error (joinMic_long hlong)
  · exact exec_micJoin_error (joinMic_absent_key h256 habsent)
  · exact exec_micJoin_ok (joinMic_present_key h256 hpresent)

/-! ## The data-frame MIC and MIC_DATA (rules R108, R111) -/

/-- B0 byte by byte (rule R108): it has the tail of a counter block. -/
theorem blockB0_eq (dir : BitVec 1) (da : Word) (fc : BitVec 16) (len : Nat) :
    blockB0 dir da fc len =
      [0x49, 0x00, 0x00, 0x00, 0x00, BitVec.ofNat 8 dir.toNat,
       BitVec.ofNat 8 da.toNat, BitVec.ofNat 8 (da.toNat / 256),
       BitVec.ofNat 8 (da.toNat / 65536), BitVec.ofNat 8 (da.toNat / 16777216),
       BitVec.ofNat 8 fc.toNat, BitVec.ofNat 8 (fc.toNat / 256), 0x00, 0x00, 0x00,
       BitVec.ofNat 8 len] := by
  have htail : blockB0 dir da fc len = 0x49 :: (counterBlock dir da fc len).tail := rfl
  rw [htail, counterBlock_eq, List.tail_cons]

theorem dataMic_long {s : State} (h : 256 < s.ilen.toNat) : dataMic s = .error .sizeError := by
  simp only [dataMic, State.checkedLen_error h]

/-- One byte of B0 holds the length, so a full buffer is one byte too long. -/
theorem dataMic_full {s : State} (h : s.ilen.toNat = 256) : dataMic s = .error .rangeError := by
  simp only [dataMic, State.checkedLen_ok (Nat.le_of_eq h)]
  exact if_pos (by omega)

theorem dataMic_eq {s : State} (h255 : s.ilen.toNat ≤ 255) :
    dataMic s = (s.requireKey .nwks).map fun key =>
      readLE32 (aesCmac key
        (blockB0 s.dir s.devaddr s.fcnt s.ilen.toNat ++ s.input s.ilen.toNat)) 0 := by
  simp only [dataMic, State.checkedLen_ok (Nat.le_succ_of_le h255)]
  exact if_neg (Nat.not_lt.mpr h255)

theorem dataMic_absent_key {s : State} (h255 : s.ilen.toNat ≤ 255)
    (habsent : s.keyctl.getLsbD 0 = false) : dataMic s = .error .missingKeyError := by
  rw [dataMic_eq h255, State.requireKey_absent (k := .nwks) habsent]
  rfl

theorem dataMic_present_key {s : State} (h255 : s.ilen.toNat ≤ 255)
    (hpresent : s.keyctl.getLsbD 0 = true) :
    dataMic s = .ok (readLE32 (aesCmac s.nwkSKey.bytes
      (blockB0 s.dir s.devaddr s.fcnt s.ilen.toNat ++ s.input s.ilen.toNat)) 0) := by
  rw [dataMic_eq h255, State.requireKey_present (k := .nwks) hpresent]
  rfl

theorem exec_micData_error {s : State} {k : ErrKind} (h : dataMic s = .error k) :
    exec .micData s = .next (s.failed 0x32 k) :=
  complete_map_error 0x32 s _ h

theorem exec_micData_ok {s : State} {m : Word} (h : dataMic s = .ok m) :
    exec .micData s = .next { s.succeeded 0x32 with mic := m } :=
  complete_map_ok 0x32 s _ h

/-- Settles O57: the clauses are the checks of the data-frame MIC, with B0 written out. -/
theorem micDataFollowsItsRule : Obligations.MicDataFollowsItsRule := by
  refine ⟨rfl, fun s => ⟨fun hlong => ?_, fun hfull => ?_, fun h255 habsent => ?_,
    fun h255 hpresent => ?_⟩⟩
  · exact exec_micData_error (dataMic_long hlong)
  · exact exec_micData_error (dataMic_full hfull)
  · exact exec_micData_error (dataMic_absent_key h255 habsent)
  · rw [← blockB0_eq]
    exact exec_micData_ok (dataMic_present_key h255 hpresent)

/-! ## The comparison of a verification (rules R112, R113) -/

/-- The completion of a verification whose MIC is `r` (rules R112, R113). -/
def completeVerify (opc : BitVec 8) (s : State) (strict : Bool) (r : Except ErrKind Word) : Result :=
  complete opc s (r.bind (verify s strict))

theorem exec_verifyJoin (strict : Bool) (s : State) :
    exec (.verifyJoin strict) s = completeVerify 0x33 s strict (joinMic s) := rfl

theorem exec_verifyData (strict : Bool) (s : State) :
    exec (.verifyData strict) s = completeVerify 0x34 s strict (dataMic s) := rfl

section
variable {opc : BitVec 8} {s : State} {strict : Bool} {m : Word}

theorem completeVerify_error (k : ErrKind) :
    completeVerify opc s strict (.error k) = .next (s.failed opc k) :=
  complete_error opc s k

/-- Without an IntegrityError, MICOK is the result of the comparison. -/
theorem completeVerify_pass {micok : Bool} (hpass : m = s.micIn ∨ strict = false)
    (hmicok : (m == s.micIn) = micok) :
    completeVerify opc s strict (.ok m) = .next { s.succeeded opc with
      mic := m, status := { (s.succeeded opc).status with micok := micok } } := by
  have hnoError : ¬ (m ≠ s.micIn ∧ strict = true) := by
    rintro ⟨hne, rfl⟩
    exact hpass.elim hne Bool.noConfusion
  rw [completeVerify, Except.bind, verify, if_neg hnoError, hmicok]
  rfl

theorem completeVerify_match (h : m = s.micIn) :
    completeVerify opc s strict (.ok m) = .next { s.succeeded opc with
      mic := m, status := { (s.succeeded opc).status with micok := true } } :=
  completeVerify_pass (.inl h) (beq_iff_eq.mpr h)

theorem completeVerify_mismatch (h : m ≠ s.micIn) (hstrict : strict = false) :
    completeVerify opc s strict (.ok m) = .next { s.succeeded opc with
      mic := m, status := { (s.succeeded opc).status with micok := false } } :=
  completeVerify_pass (.inr hstrict) (beq_eq_false_iff_ne.mpr h)

theorem completeVerify_strict_mismatch (h : m ≠ s.micIn) (hstrict : strict = true) :
    completeVerify opc s strict (.ok m) = .next (s.failed opc .integrityError) := by
  rw [completeVerify, Except.bind, verify, if_pos ⟨h, hstrict⟩, complete_error]

end

/-! ## VERIFY_JOIN and VERIFY_DATA -/

/-- Settles O58: the checks of the join MIC, then the comparison. -/
theorem verifyJoinFollowsItsRule : Obligations.VerifyJoinFollowsItsRule := by
  refine ⟨rfl, rfl, fun s strict => ?_⟩
  rw [exec_verifyJoin]
  refine ⟨fun hlong => ?_, fun h256 habsent => ?_, fun h256 hpresent => ?_⟩
  · rw [joinMic_long hlong, completeVerify_error]
  · rw [joinMic_absent_key h256 habsent, completeVerify_error]
  · rw [joinMic_present_key h256 hpresent]
    exact ⟨completeVerify_match, completeVerify_mismatch, completeVerify_strict_mismatch⟩

/-- Settles O59: the checks of the data-frame MIC, which MIC_DATA completes with on the same state,
then the comparison. -/
theorem verifyDataFollowsItsRule : Obligations.VerifyDataFollowsItsRule := by
  refine ⟨rfl, rfl, fun s strict => ?_⟩
  rw [exec_verifyData]
  refine ⟨fun hlong => ?_, fun hfull => ?_, fun h255 habsent => ?_, fun h255 hpresent => ?_⟩
  · rw [dataMic_long hlong, completeVerify_error]
  · rw [dataMic_full hfull, completeVerify_error]
  · rw [dataMic_absent_key h255 habsent, completeVerify_error]
  · have hmic := dataMic_present_key h255 hpresent
    rw [hmic]
    exact ⟨_, exec_micData_ok hmic, rfl, completeVerify_match, completeVerify_mismatch,
      completeVerify_strict_mismatch⟩

end Sys2Proof.Machine
end

section
/-! PROOFS. What an issue, an error and an input longer than the buffer do, the same for every
operation (rules R119, R123, R125): O6, O9 and O11. -/

namespace Sys2Proof.Machine

/-- Settles O6: CMD is a guarded word, so a write to it is accepted and issues, or is dropped. -/
theorem writeToCmdIssues : Obligations.WriteToCmdIssues :=
  fun _ _ _ h => ⟨step_issue h, fun hbusy => step_write_dropped h rfl (by decide) hbusy rfl⟩

/-- Settles O9: of the two ways an operation can end, a success leaves ERR 0. -/
theorem errorsWriteOnlyStatus : Obligations.ErrorsWriteOnlyStatus := by
  intro i s t hexec herr
  obtain ⟨s', hok, -, -⟩ | ⟨k, -, herror⟩ := exec_cases i s
  · have ht : s'.succeeded i.opcode = t := Host.Outcome.next.inj (hok.symm.trans hexec)
    rw [← ht, State.succeeded_status] at herr
    exact absurd herr Bool.false_ne_true
  · have ht : s.failed i.opcode k = t := Host.Outcome.next.inj (herror.symm.trans hexec)
    exact ⟨k, ht ▸ rfl, ht.symm⟩

/-! ## Inputs longer than the buffer (rule R125) -/

theorem aesEncBytes_long {s : State} {k : KSel} (hk : k ≠ .reserved) (h : 256 < s.ilen.toNat) :
    aesEncBytes s k = .error .sizeError := by
  simp only [aesEncBytes, if_neg hk, State.checkedLen_error h]

theorem cmacTag_long {s : State} {k : KSel} (hk : k ≠ .reserved) (h : 256 < s.ilen.toNat) :
    cmacTag s k = .error .sizeError := by
  simp only [cmacTag, if_neg hk, State.checkedLen_error h]

/-- The length check comes first in every operation that reads ILEN; only the reserved key select,
which no well-formed instruction has, comes before it (rule R124). -/
theorem exec_long {i : Instr} {s : State} (hwf : i.wellFormed = true)
    (hreads : ignoresLength i = false) (hlong : 256 < s.ilen.toNat) :
    exec i s = .next (s.failed i.opcode .sizeError) := by
  cases i with
  | nop | copy | mhdrEnc | cmdEnc => cases hreads
  | mhdrDec => exact exec_mhdrDec_error (mhdrDecByte_long hlong)
  | frameDec => exact exec_frameDec_error (frameDecFrame_long hlong)
  | frameEnc => exact exec_frameEnc_error (frameEncBytes_long hlong)
  | cmdDec => exact exec_cmdDec_error (cmdDecList_long hlong)
  | aesEnc k => exact completeOutput_of_error (aesEncBytes_long (bne_iff_ne.mp hwf) hlong)
  | keystream => exact completeOutput_of_error (portKeystream_long hlong)
  | payloadXor =>
    rw [exec_payloadXor, portKeystream_long hlong]
    exact completeOutput_of_error rfl
  | cmac k => exact exec_cmac_error (cmacTag_long (bne_iff_ne.mp hwf) hlong)
  | micJoin => exact exec_micJoin_error (joinMic_long hlong)
  | micData => exact exec_micData_error (dataMic_long hlong)
  | verifyJoin strict =>
    rw [exec_verifyJoin, joinMic_long hlong]
    exact completeVerify_error _
  | verifyData strict =>
    rw [exec_verifyData, dataMic_long hlong]
    exact completeVerify_error _

/-! ## The operations that do not read ILEN (rule R125) -/

theorem cmdEncBytes_ilen (s : State) (v : BitVec 9) :
    cmdEncBytes { s with ilen := v } = cmdEncBytes s := rfl

/-- With another ILEN these operations answer the same, and of them only COPY, whose commit is
`ILEN <- OLEN` (rule R56), does not leave that ILEN. -/
theorem exec_ilen {i : Instr} (s : State) (v : BitVec 9) (hignores : ignoresLength i = true) :
    ∃ t, exec i s = .next t
      ∧ exec i { s with ilen := v } = .next (if i = .copy then t else { t with ilen := v }) := by
  cases i with
  | nop => exact ⟨_, exec_nop s, exec_nop _⟩
  | copy => exact ⟨_, exec_copy s, exec_copy _⟩
  | mhdrEnc => exact ⟨_, exec_mhdrEnc s, exec_mhdrEnc _⟩
  | cmdEnc =>
    have hsame := cmdEncBytes_ilen s v
    cases hbytes : cmdEncBytes s with
    | error k => exact ⟨_, exec_cmdEnc_error hbytes, exec_cmdEnc_error (hsame.trans hbytes)⟩
    | ok b => exact ⟨_, exec_cmdEnc_ok hbytes, exec_cmdEnc_ok (hsame.trans hbytes)⟩
  | _ => cases hignores

/-- Settles O11: an operation that reads ILEN checks it first, and the four others are the same function
of the rest of the state. -/
theorem longInputIsSizeError : Obligations.LongInputIsSizeError :=
  ⟨fun _ _ => exec_long, fun _ => exec_ilen⟩

end Sys2Proof.Machine
end

section
/-! PROOFS. The state that a reset gives (rules R132, R133), the words whose write is dropped while
BUSY = 1 (rule R136), what clears WERR (rule R143): O25, O18 and O13. -/

namespace Sys2Proof.Machine

/-- Settles O25: the reset move answers `resetBlock`, in which no register, key or buffer of the
state before is left, nor its pending word. -/
theorem resetGivesTheResetState : Obligations.ResetGivesTheResetState :=
  fun _ _ h => step_reset h

/-! ## The words of the window that a write meets (rule R136) -/

/-- STATUS stands at one offset. -/
theorem windowReg_eq_status_iff (off : Nat) : windowReg off = .status ↔ off = 0x004 := by
  rcases Nat.lt_or_ge off 0x038 with hlow | hhigh
  · have hcontrol : ∀ off < 0x038, windowReg off = .status ↔ off = 0x004 := by decide
    exact hcontrol off hlow
  · rw [windowReg_of_ge hhigh]
    split_ifs <;> simp only [false_iff] <;> omega

/-- The guarded words are those at the offsets that rule R136 lists. -/
theorem windowReg_guarded_iff {off : Nat} (h4 : off % 4 = 0) :
    (windowReg off).guarded = true ↔ guardedOffset off := by
  rcases Nat.lt_or_ge off 0x038 with hlow | hhigh
  · have hcontrol : ∀ off < 0x038, off % 4 = 0 →
        ((windowReg off).guarded = true ↔ guardedOffset off) := by
      unfold guardedOffset
      decide
    exact hcontrol off hlow h4
  · rw [windowReg_of_ge hhigh, guardedOffset]
    simp only [List.mem_cons, List.not_mem_nil, or_false]
    split_ifs <;> simp only [WindowReg.guarded, Bool.false_eq_true, true_iff, false_iff] <;> omega

/-- A write to a word that is neither guarded nor STATUS has no effect (rule R36). -/
theorem State.writeReg_of_not_guarded (s : State) {r : WindowReg} (v : Word)
    (hg : r.guarded = false) (hr : r ≠ .status) : s.writeReg r v = s := by
  cases r with
  | status => exact absurd rfl hr
  | olen | mic | obuf | reserved => rfl
  | _ => cases hg

/-- Settles O18: a busy block drops the write of a guarded word and accepts any other, and of the
accepted ones only the write to STATUS has an effect. -/
theorem writesWhileBusyAreDropped : Obligations.WritesWhileBusyAreDropped := by
  intro s off v rest hbusy h h4 h8
  refine ⟨fun hguarded => ?_, fun hstatus => ?_, fun hfree hoff => ?_⟩
  · exact step_write_dropped h h4 h8 hbusy ((windowReg_guarded_iff h4).mpr hguarded)
  · subst hstatus
    exact step_write_accepted h h4 h8 (.inr rfl)
  · have hg : (windowReg off).guarded = false := by
      rwa [← Bool.not_eq_true, windowReg_guarded_iff h4]
    have hr : windowReg off ≠ .status := by rwa [ne_eq, windowReg_eq_status_iff]
    rw [step_write_accepted h h4 h8 (.inr hg), State.writeReg_of_not_guarded _ v hg hr]

/-! ## The moves that leave WERR set (rule R143) -/

theorem State.committed_werr {s s' : State} (h : s.committed s') :
    s'.status.werr = s.status.werr :=
  congrArg (·.status.werr) h

/-- A completion writes no WERR, whatever the pending word and its outcome (rule R122). -/
theorem completeWord_werr {w : Word} {s t : State} (h : completeWord w s = .next t) :
    t.status.werr = s.status.werr := by
  obtain ⟨i, s', -, hok, hcommitted, -⟩ | ⟨k, herror, -⟩ := completeWord_cases w s
  · obtain rfl : s'.succeeded (opcField w) = t := Host.Outcome.next.inj (hok.symm.trans h)
    rw [State.succeeded_status]
    exact State.committed_werr hcommitted
  · obtain rfl : s.failed (opcField w) k = t := Host.Outcome.next.inj (herror.symm.trans h)
    rfl

theorem engineStep_werr {s t : State} (h : engineStep s = .next t) :
    t.status.werr = s.status.werr := by
  cases hp : s.pend with
  | none =>
    rw [engineStep_none hp] at h
    rw [Host.Outcome.next.inj h]
  | some w => exact completeWord_werr ((engineStep_some hp).symm.trans h)

/-- An accepted write, an issue among them (rule R119), leaves WERR alone but at STATUS. -/
theorem State.writeReg_werr (s : State) {r : WindowReg} (v : Word) (hr : r ≠ .status) :
    (s.writeReg r v).status.werr = s.status.werr := by
  cases r with
  | status => exact absurd rfl hr
  | key k j => cases k <;> rfl
  | _ => rfl

/-- Of the host's writes only one to STATUS with bit 8 set clears WERR (rule R10). -/
theorem State.hostWrite_clears_werr {s : State} {r : WindowReg} {v : Word}
    (hset : s.status.werr = true) (hclear : (s.hostWrite r v).status.werr = false) :
    r = .status ∧ v.getLsbD 8 = true := by
  by_cases hdropped : s.pend ≠ none ∧ r.guarded = true
  · rw [hostWrite_dropped v hdropped.1 hdropped.2] at hclear
    cases hclear
  · have haccepted : s.pend = none ∨ r.guarded = false := by
      rwa [not_and_or, not_not, Bool.not_eq_true] at hdropped
    rw [hostWrite_accepted v haccepted] at hclear
    by_cases hr : r = .status
    · subst hr
      have hbit : (s.status.werr && !v.getLsbD 8) = false := hclear
      exact ⟨rfl, by simpa [hset] using hbit⟩
    · rw [s.writeReg_werr v hr, hset] at hclear
      cases hclear

/-- Of the host's accesses only such a write clears WERR: a read changes nothing of the block, and a
refused access has no next state (rules R35, R37). -/
theorem step_host_clears_werr {s t : State} {a : Access} {rest : List Input}
    (h : s.inputs = .host a :: rest) (hstep : step s = .next t) (hset : s.status.werr = true)
    (hclear : t.status.werr = false) :
    ∃ v : Word, v.getLsbD 8 = true ∧ a = ⟨0x004, .word, .write v⟩ := by
  by_cases ha : a.admitted = true
  · obtain ⟨off, width, kind⟩ := a
    obtain ⟨rfl, h4, h8⟩ := (Access.admitted_iff _).mp ha
    cases kind with
    | read =>
      obtain rfl := Host.Outcome.next.inj ((step_read h h4 h8).symm.trans hstep)
      cases hset.symm.trans hclear
    | write v =>
      obtain rfl := Host.Outcome.next.inj ((step_write h h4 h8).symm.trans hstep)
      obtain ⟨hr, hbit⟩ := State.hostWrite_clears_werr (s := { s with inputs := rest }) hset hclear
      obtain rfl := (windowReg_eq_status_iff off).mp hr
      exact ⟨v, hbit, rfl⟩
  · rw [step_refused h (Bool.eq_false_of_not_eq_true ha)] at hstep
    cases hstep

/-- Settles O13, move by move: the engine never writes WERR, and of the host's moves only the
STATUS write clears it. -/
theorem writeErrorIsSticky : Obligations.WriteErrorIsSticky := by
  intro s t hstep hset hclear
  have hchanged : t.status.werr ≠ s.status.werr := by rw [hset, hclear]; decide
  cases h : s.inputs with
  | nil => exact absurd (engineStep_werr ((step_nil h).symm.trans hstep)) hchanged
  | cons move rest =>
    cases move with
    | host a =>
      obtain ⟨v, hbit, rfl⟩ := step_host_clears_werr h hstep hset hclear
      exact ⟨rest, .inr ⟨v, hbit, rfl⟩⟩
    | wait =>
      cases hd : s.status.done with
      | false => exact absurd (engineStep_werr ((step_wait_poll h hd).symm.trans hstep)) hchanged
      | true =>
        obtain rfl := Host.Outcome.next.inj ((step_wait_done h hd).symm.trans hstep)
        exact absurd rfl hchanged
    | engine => exact absurd (engineStep_werr ((step_engine h).symm.trans hstep)) hchanged
    | reset => exact ⟨rest, .inl rfl⟩

end Sys2Proof.Machine
end

section
/-! PROOFS. The decoder undoes the encoder, and only it (rules R48 to R52): O1, O3, O4 and O5. -/

namespace Sys2Proof

/-! ## What each class of opcode accepts (rules R50 to R52) -/

theorem decodePlain_eq_ok_iff (w : Word) (i j : Instr) :
    decodePlain w i = .ok j ↔ kselField w = 0 ∧ strictField w = false ∧ i = j := by
  unfold decodePlain
  split_ifs with hksel hstrict <;> simp_all

theorem decodeKeyed_eq_ok_iff (w : Word) (mk : KSel → Instr) (j : Instr) :
    decodeKeyed w mk = .ok j ↔
      strictField w = false ∧ kselField w ≠ 3 ∧ mk (KSel.ofBits (kselField w)) = j := by
  unfold decodeKeyed
  split_ifs with hstrict hksel <;> simp_all

theorem decodeStrict_eq_ok_iff (w : Word) (mk : Bool → Instr) (j : Instr) :
    decodeStrict w mk = .ok j ↔ kselField w = 0 ∧ mk (strictField w) = j := by
  unfold decodeStrict
  split_ifs with hksel <;> simp_all

theorem KSel.ofBits_ne_reserved {b : BitVec 2} (h : b ≠ 3) : KSel.ofBits b ≠ .reserved := by
  intro hr
  apply h
  rw [← KSel.bits_ofBits b, hr]
  rfl

/-- The fields beside the opcode are those of the instruction that a word decodes to. -/
theorem fields_of_decode {w : Word} {i : Instr} (h : decode w = .ok i) :
    rsvdField w = 0 ∧ kselField w = i.kselBits ∧ strictField w = i.strictBit
      ∧ i.wellFormed = true := by
  unfold decode at h
  split_ifs at h with hrsvd
  refine ⟨Decidable.not_not.mp hrsvd, ?_⟩
  split at h
  case h_17 => cases h
  case h_9 | h_12 =>
    obtain ⟨hstrict, hksel, rfl⟩ := (decodeKeyed_eq_ok_iff w _ i).mp h
    exact ⟨(KSel.bits_ofBits _).symm, hstrict, bne_iff_ne.mpr (KSel.ofBits_ne_reserved hksel)⟩
  case h_15 | h_16 =>
    obtain ⟨hksel, rfl⟩ := (decodeStrict_eq_ok_iff w _ i).mp h
    exact ⟨hksel, rfl, rfl⟩
  all_goals
    obtain ⟨hksel, hstrict, rfl⟩ := (decodePlain_eq_ok_iff w _ i).mp h
    exact ⟨hksel, hstrict, rfl⟩

/-- A word that decodes is the encoding of its instruction: its four fields are those of the
instruction, and a word is its fields. -/
theorem encode_of_decode {w : Word} {i : Instr} (h : decode w = .ok i) : encode i = w := by
  obtain ⟨hrsvd, hksel, hstrict, -⟩ := fields_of_decode h
  rw [word_eq_fields w, hrsvd, hksel, hstrict, ← opcode_of_decode h]
  rfl

theorem decode_encode {i : Instr} (h : i.wellFormed = true) : decode (encode i) = .ok i := by
  obtain ⟨hopc, hstrict, hksel, hrsvd⟩ := Laws.WordFields.ofCommandWord i
  rw [decode, if_neg (Decidable.not_not.mpr hrsvd), hopc]
  cases i with
  | aesEnc k | cmac k =>
    refine (decodeKeyed_eq_ok_iff _ _ _).mpr ⟨hstrict, ?_, ?_⟩
    · rw [hksel]
      cases k with
      | reserved => cases h
      | nwks | apps | app => decide
    · rw [hksel]
      exact congrArg _ (KSel.ofBits_bits k)
  | verifyJoin strict | verifyData strict =>
    exact (decodeStrict_eq_ok_iff _ _ _).mpr ⟨hksel, congrArg _ hstrict⟩
  | _ => exact (decodePlain_eq_ok_iff _ _ _).mpr ⟨hksel, hstrict, rfl⟩

/-- Settles O1: the decoder and the encoder undo each other on the well-formed instructions. -/
theorem legalWordsAreExactlyTheEncodings : Obligations.LegalWordsAreExactlyTheEncodings := by
  intro w i
  constructor
  · intro h
    obtain ⟨-, -, -, hwf⟩ := fields_of_decode h
    exact ⟨hwf, encode_of_decode h⟩
  · rintro ⟨hwf, rfl⟩
    exact decode_encode hwf

/-- Settles O3: the words of the table, decoded bit by bit. -/
theorem tableWordsDecode : Obligations.TableWordsDecode := by
  unfold Obligations.TableWordsDecode
  decide

end Sys2Proof

namespace Sys2Proof.Machine

/-- Settles O4: the three moments of the engine are three forms of the schedule. -/
theorem stepRunsThePendingInstruction : Obligations.StepRunsThePendingInstruction := by
  intro s w i hp hd
  refine ⟨fun h => ?_, fun rest h => ?_, fun rest h hdone => ?_⟩
  · rw [step_nil_some h hp, completeWord_ok s hd]
  · rw [step_engine_some h hp, completeWord_ok _ hd]
  · rw [step_wait_poll h hdone, engineStep_some hp, completeWord_ok s hd]

/-- Settles O5: the placed word is pending with the engine's move next, and it decodes to the
instruction it encodes. -/
theorem issuedInstructionRunsNext : Obligations.IssuedInstructionRunsNext := by
  intro s i hwf
  have hword : BitVec.ofNat 32 ((encode i).toNat % 2 ^ 32) = encode i := by
    rw [Nat.mod_eq_of_lt (encode i).isLt, BitVec.ofNat_toNat, BitVec.setWidth_eq]
  rw [State.withFetchWord, hword,
    step_engine_some (s := s.withIssued (encode i)) rfl rfl, completeWord_ok _ (decode_encode hwf)]
  rfl

end Sys2Proof.Machine
end

section
/-! PROOFS. Bodies and streams of MAC commands: what encodes decodes back (rule R91): O37 and O42. -/

namespace Sys2Proof.Machine

/-- Settles O37: the table is read off the registry; the other ids are `CmdId.ofByte_unknown`. -/
theorem registryIsTheTable : Obligations.RegistryIsTheTable :=
  ⟨rfl, fun _ => CmdId.ofByte_unknown⟩

/-! ## Fields of an encoded body decode back -/

/-- A field of the byte in which slots were packed. -/
theorem bits_ofNat_eq {x lo n : Nat} {v : Word} (h : x % 256 / 2 ^ lo % 2 ^ n = v.toNat) :
    bits (BitVec.ofNat 8 x) lo n = v := by
  rw [bits_eq, BitVec.toNat_ofNat, h, BitVec.ofNat_toNat, BitVec.setWidth_eq]

theorem bits_low_nibble {v : Word} (h : v.toNat < 16) : bits (low v) 0 4 = v := by
  rw [low_eq]
  exact bits_ofNat_eq (by omega)

/-- The slot packed above another one, of four bits or, beside an RFU bit, of three. -/
theorem bits_low_upper {v w : Word} {n : Nat} (hn : n ≤ 4) (hv : v.toNat < 2 ^ n)
    (hw : w.toNat < 16) : bits (low (v * 16 + w)) 4 n = v := by
  have hpow : 2 ^ n ≤ 2 ^ 4 := Nat.pow_le_pow_right (by decide) hn
  have hpack : (v.toNat * 16 + w.toNat) % 256 / 2 ^ 4 = v.toNat := by omega
  rw [low_pack]
  exact bits_ofNat_eq ((congrArg (· % 2 ^ n) hpack).trans (Nat.mod_eq_of_lt hv))

theorem bits_low_lower (v : Word) {w : Word} (hw : w.toNat < 16) :
    bits (low (v * 16 + w)) 0 4 = w := by
  rw [low_pack]
  exact bits_ofNat_eq (x := v.toNat * 16 + w.toNat) (by omega)

/-- Three flags packed in a byte. -/
theorem bits_low_flags₃ {u v w : Word} (hu : u.toNat < 2) (hv : v.toNat < 2) (hw : w.toNat < 2) :
    bits (low (u * 4 + v * 2 + w)) 2 1 = u ∧ bits (low (u * 4 + v * 2 + w)) 1 1 = v
      ∧ bits (low (u * 4 + v * 2 + w)) 0 1 = w := by
  rw [low_pack₃]
  refine ⟨?_, ?_, ?_⟩ <;>
    exact bits_ofNat_eq (x := u.toNat * 4 + v.toNat * 2 + w.toNat) (by omega)

/-- Two flags packed in a byte. -/
theorem bits_low_flags₂ {v w : Word} (hv : v.toNat < 2) (hw : w.toNat < 2) :
    bits (low (v * 2 + w)) 1 1 = v ∧ bits (low (v * 2 + w)) 0 1 = w := by
  rw [low_pack]
  refine ⟨?_, ?_⟩ <;> exact bits_ofNat_eq (x := v.toNat * 2 + w.toNat) (by omega)

theorem whole_low {v : Word} (h : v.toNat < 256) : whole (low v) = v := by
  rw [whole_eq, low_eq, BitVec.toNat_ofNat, Nat.mod_eq_of_lt h, BitVec.ofNat_toNat,
    BitVec.setWidth_eq]

/-- A channel mask: `readLE16` undoes `le16` also behind the first byte. -/
theorem setWidth_readLE16_le16 {v : Word} (x : Byte) (t : Bytes) (h : v.toNat < 65536) :
    (readLE16 (x :: (le16 (v.setWidth 16) ++ t)) 1).setWidth 32 = v := by
  have hread : readLE16 (x :: (le16 (v.setWidth 16) ++ t)) 1 = v.setWidth 16 :=
    readLE16_le16 (v.setWidth 16)
  apply BitVec.eq_of_toNat_eq
  rw [hread, BitVec.toNat_setWidth, BitVec.toNat_setWidth]
  omega

/-- A frequency in range is a multiple of its unit (rule R73). -/
theorem freqOfUnits_le24 {v : Word} (x : Byte) (t : Bytes) (hunit : v.toNat % 100 = 0)
    (hmax : v.toNat / 100 ≤ 0xFFFFFF) :
    freqOfUnits (readLE24 (x :: (le24 (unitsOfFreq v) ++ t)) 1) = v := by
  have hread : readLE24 (x :: (le24 (unitsOfFreq v) ++ t)) 1 = unitsOfFreq v :=
    readLE24_le24 (unitsOfFreq v)
  have hunits : v.toNat / 100 % 2 ^ 24 % 2 ^ 32 * 100 % 2 ^ 32 = v.toNat := by
    rw [Nat.mod_eq_of_lt (a := v.toNat / 100) (by omega), Nat.mod_eq_of_lt (by omega)]
    omega
  apply BitVec.eq_of_toNat_eq
  rw [hread, freqOfUnits, unitsOfFreq, BitVec.toNat_mul, BitVec.toNat_setWidth,
    BitVec.toNat_setWidth, BitVec.toNat_udiv]
  exact hunits

/-- A margin in range, from its sign and its magnitude (rule R74). -/
theorem marginOfByte_byteOfMargin {v : Word} (hmin : -31 ≤ v.toInt) (hmax : v.toInt ≤ 31) :
    marginOfByte (byteOfMargin v) = v := by
  apply BitVec.eq_of_toInt_eq
  rw [marginOfByte_eq, byteOfMargin_eq, BitVec.toNat_ofNat, BitVec.toInt_ofInt]
  split_ifs <;> simp only [Int.bmod_def] <;> omega

theorem mkEntry_congr {c : CmdId} {f0 f1 f2 f3 f4 g0 g1 g2 g3 g4 : Word} (h0 : f0 = g0)
    (h1 : f1 = g1) (h2 : f2 = g2) (h3 : f3 = g3) (h4 : f4 = g4) :
    mkEntry c f0 f1 f2 f3 f4 = mkEntry c g0 g1 g2 g3 g4 := by
  rw [h0, h1, h2, h3, h4]

@[simp] theorem slotFits_nil (i : Nat) (v : Word) : slotFits [] i v := by
  simp [slotFits]

@[simp] theorem slotFits_cons_zero (k : FieldKind) (ks : List FieldKind) (v : Word) :
    slotFits (k :: ks) 0 v ↔ k.fits v = true := by
  simp [slotFits]

@[simp] theorem slotFits_cons_succ (k : FieldKind) (ks : List FieldKind) (i : Nat) (v : Word) :
    slotFits (k :: ks) (i + 1) v ↔ slotFits ks i v := by
  simp [slotFits]

/-- What a body encodes it decodes back, whatever its unused slots (rule R91). -/
theorem decodeBody_bodyBytes {c : CmdId} {sh : Shape} {e : Entry}
    (h : e.inRange (slotKinds c sh) = true) :
    decodeBody c sh (bodyBytes c sh e) = e.normal c sh := by
  rw [Entry.inRange_iff] at h
  cases c <;> cases sh <;>
    simp only [slotKinds, slotFits_nil, slotFits_cons_zero, slotFits_cons_succ,
      FieldKind.fits_unsigned, FieldKind.fits_frequency, FieldKind.fits_margin, and_true] at h
  case linkCheck.req | dutyCycle.ans | devStatus.req | rxTimingSetup.ans => rfl
  case linkCheck.ans =>
    obtain ⟨h0, h1⟩ := h
    exact mkEntry_congr (whole_low h0) (whole_low h1) rfl rfl rfl
  case linkADR.req =>
    obtain ⟨h0, h1, h2, h3, h4⟩ := h
    exact mkEntry_congr (bits_low_upper le_rfl h0 h1) (bits_low_lower _ h1)
      (setWidth_readLE16_le16 _ _ h2) (bits_low_upper (by decide) h3 h4) (bits_low_lower _ h4)
  case linkADR.ans | rxParamSetup.ans =>
    obtain ⟨h0, h1, h2⟩ := h
    obtain ⟨hb2, hb1, hb0⟩ := bits_low_flags₃ h0 h1 h2
    exact mkEntry_congr hb2 hb1 hb0 rfl rfl
  case dutyCycle.req | rxTimingSetup.req => exact mkEntry_congr (bits_low_nibble h) rfl rfl rfl rfl
  case rxParamSetup.req =>
    obtain ⟨h0, h1, hunit, hmax⟩ := h
    exact mkEntry_congr (bits_low_upper (by decide) h0 h1) (bits_low_lower _ h1)
      (freqOfUnits_le24 _ [] hunit hmax) rfl rfl
  case devStatus.ans =>
    obtain ⟨h0, hmin, hmax⟩ := h
    exact mkEntry_congr (whole_low h0) (marginOfByte_byteOfMargin hmin hmax) rfl rfl rfl
  case newChannel.req =>
    obtain ⟨h0, ⟨hunit, hmax⟩, h2, h3⟩ := h
    exact mkEntry_congr (whole_low h0) (freqOfUnits_le24 _ _ hunit hmax)
      (bits_low_upper le_rfl h2 h3) (bits_low_lower _ h3) rfl
  case newChannel.ans =>
    obtain ⟨h0, h1⟩ := h
    obtain ⟨hb1, hb0⟩ := bits_low_flags₂ h0 h1
    exact mkEntry_congr hb1 hb0 rfl rfl rfl

/-! ## Streams (rules R89, R90) -/

theorem encodeBody_ok_iff {c : CmdId} {sh : Shape} {e : Entry} {b : Bytes} :
    encodeBody c sh e = .ok b ↔ e.inRange (slotKinds c sh) = true ∧ bodyBytes c sh e = b := by
  unfold encodeBody
  split_ifs with h <;> simp [h]

/-- All that a successful encoding of a list can be: of its first entry, and of the rest. -/
theorem encodeStream_cons_ok_iff {sh : Shape} {e : Entry} {es : List Entry} {s : Bytes} :
    encodeStream sh (e :: es) = .ok s ↔
      ∃ c bs, CmdId.ofByte e.cid = some c ∧ e.inRange (slotKinds c sh) = true
        ∧ encodeStream sh es = .ok bs ∧ s = e.cid :: (bodyBytes c sh e ++ bs) := by
  cases hc : CmdId.ofByte e.cid with
  | none => simp [encodeStream_cons_unknown sh es hc]
  | some c =>
    rw [encodeStream_cons_known sh es hc, encodeBody]
    simp only [Option.some.injEq, exists_and_left, exists_eq_left']
    split_ifs with hrange
    · cases encodeStream sh es <;> simp [hrange, Except.bind, Except.map, eq_comm]
    · simp [hrange, Except.bind]

theorem Entry.normalized_of_ofByte {sh : Shape} {e : Entry} {c : CmdId}
    (h : CmdId.ofByte e.cid = some c) : e.normalized sh = e.normal c sh := by
  simp only [Entry.normalized, h]

/-- Settles O42, by induction on the entries: the first entry's id and size find its body again, and
the rest is what is left. -/
theorem commandStreamRoundTrip : Obligations.CommandStreamRoundTrip := by
  intro sh es
  induction es with
  | nil =>
    rintro b ⟨⟩
    rfl
  | cons e es ih =>
    intro b h
    obtain ⟨c, bs, hc, hrange, hbs, rfl⟩ := encodeStream_cons_ok_iff.mp h
    have hlen := bodyBytes_length c sh e
    refine decodeStream_cons_ok.mpr ⟨c, es.map (Entry.normalized sh), hc, ?_, ?_, ?_⟩
    · rw [List.length_append]
      omega
    · rw [List.drop_left' hlen]
      exact ih bs hbs
    · rw [List.take_left' hlen, decodeBody_bodyBytes hrange, List.map_cons,
        Entry.normalized_of_ofByte hc]

end Sys2Proof.Machine
end

section
/-! PROOFS. What decodes encodes again, and to the same bytes exactly when no bit was lost
(rules R72, R91): O43. -/

namespace Sys2Proof.Machine

/-! ## Fields of a decoded body encode again -/

theorem fits_bits (b : Byte) (lo n : Nat) : (FieldKind.unsigned n).fits (bits b lo n) = true := by
  rw [FieldKind.fits_unsigned, bits_eq, BitVec.toNat_ofNat]
  exact (Nat.mod_le _ _).trans_lt (Nat.mod_lt _ (Nat.two_pow_pos n))

/-- A value of `n` bits in a word: the word's other bits are 0. -/
theorem toNat_setWidth_lt {n : Nat} (v : BitVec n) : (v.setWidth 32).toNat < 2 ^ n := by
  rw [BitVec.toNat_setWidth]
  exact (Nat.mod_le _ _).trans_lt v.isLt

theorem fits_setWidth {n : Nat} (v : BitVec n) :
    (FieldKind.unsigned n).fits (v.setWidth 32) = true :=
  (FieldKind.fits_unsigned n _).mpr (toNat_setWidth_lt v)

theorem toNat_freqOfUnits (u : BitVec 24) : (freqOfUnits u).toNat = u.toNat * 100 := by
  have hu : u.toNat < 2 ^ 24 := u.isLt
  have hlt : u.toNat % 2 ^ 32 * 100 % 2 ^ 32 = u.toNat * 100 := by
    rw [Nat.mod_eq_of_lt (a := u.toNat) (by omega), Nat.mod_eq_of_lt (by omega)]
  rw [freqOfUnits, BitVec.toNat_mul, BitVec.toNat_setWidth]
  exact hlt

theorem fits_freqOfUnits (u : BitVec 24) : FieldKind.frequency.fits (freqOfUnits u) = true := by
  have hu : u.toNat < 2 ^ 24 := u.isLt
  rw [FieldKind.fits_frequency, toNat_freqOfUnits]
  omega

theorem fits_marginOfByte : ∀ b : Byte, FieldKind.margin.fits (marginOfByte b) = true := by
  decide

/-- Every decoded slot is in range (rule R91). -/
theorem decodeBody_inRange (c : CmdId) (sh : Shape) (b : Bytes) :
    (decodeBody c sh b).inRange (slotKinds c sh) = true := by
  rw [Entry.inRange_iff]
  cases c <;> cases sh <;>
    simp only [slotKinds, decodeBody, mkEntry, slotFits_nil, slotFits_cons_zero,
      slotFits_cons_succ, fits_bits, whole, fits_setWidth, fits_freqOfUnits, fits_marginOfByte,
      and_self]

theorem unitsOfFreq_freqOfUnits (u : BitVec 24) : unitsOfFreq (freqOfUnits u) = u := by
  apply BitVec.eq_of_toNat_eq
  have hunits : u.toNat * 100 / 100 % 2 ^ 24 = u.toNat := by
    rw [Nat.mul_div_cancel _ (by decide), Nat.mod_eq_of_lt u.isLt]
  rw [unitsOfFreq, BitVec.toNat_setWidth, BitVec.toNat_udiv, toNat_freqOfUnits]
  exact hunits

theorem low_whole (b : Byte) : low (whole b) = b :=
  BitVec.setWidth_setWidth_of_le b (by decide)

theorem low_nibbles : ∀ b : Byte, low (bits b 4 4 * 16#32 + bits b 0 4) = b := by decide

theorem low_nibbles_eq_iff :
    ∀ b : Byte, low (bits b 4 3 * 16#32 + bits b 0 4) = b ↔ b.toNat < 0x80 := by decide

theorem low_flags₃_eq_iff :
    ∀ b : Byte, low (bits b 2 1 * 4 + bits b 1 1 * 2 + bits b 0 1) = b ↔ b.toNat < 0x08 := by
  decide

theorem low_flags₂_eq_iff :
    ∀ b : Byte, low (bits b 1 1 * 2 + bits b 0 1) = b ↔ b.toNat < 0x04 := by decide

theorem low_nibble_eq_iff : ∀ b : Byte, low (bits b 0 4) = b ↔ b.toNat < 0x10 := by decide

theorem byteOfMargin_eq_iff :
    ∀ b : Byte, byteOfMargin (marginOfByte b) = b ↔ b.toNat < 0x40 ∧ b ≠ 0x20 := by decide

theorem le16_readLE16 (b : Bytes) (o : Nat) :
    le16 (readLE16 b o) = [byteAt b o, byteAt b (o + 1)] := by
  simp only [le16, leByte_eq, toNat_readLE16, List.cons.injEq, ← BitVec.toNat_inj,
    BitVec.toNat_ofNat, and_true]
  omega

theorem le24_readLE24 (b : Bytes) (o : Nat) :
    le24 (readLE24 b o) = [byteAt b o, byteAt b (o + 1), byteAt b (o + 2)] := by
  simp only [le24, leByte_eq, toNat_readLE24, List.cons.injEq, ← BitVec.toNat_inj,
    BitVec.toNat_ofNat, and_true]
  omega

/-- The bytes of a sequence, read one by one. -/
theorem eq_bytes_of_length (b : Bytes) : b = (List.range b.length).map (byteAt b) := by
  apply List.ext_getElem
  · simp
  · intro i hi _
    simp [byteAt_of_lt hi]

/-- A decoded body encodes to itself exactly when the decode read every bit that is set, and its
margin is the one spelling of its value (rules R72, R91). -/
theorem bodyBytes_decodeBody_eq_iff {c : CmdId} {sh : Shape} {b : Bytes}
    (hlen : b.length = bodySize c sh) :
    bodyBytes c sh (decodeBody c sh b) = b ↔ bodyExact c sh b := by
  have hb := eq_bytes_of_length b
  rw [hlen] at hb
  rw [Eq.congr_right hb]
  cases c <;> cases sh
  case linkCheck.req | dutyCycle.ans | devStatus.req | rxTimingSetup.ans =>
    exact iff_of_true rfl trivial
  case linkADR.ans | rxParamSetup.ans => exact List.singleton_inj.trans (low_flags₃_eq_iff _)
  case newChannel.ans => exact List.singleton_inj.trans (low_flags₂_eq_iff _)
  case dutyCycle.req | rxTimingSetup.req => exact List.singleton_inj.trans (low_nibble_eq_iff _)
  all_goals
    simp [bodySize, List.range_succ, bodyBytes, decodeBody, mkEntry, bodyExact, low_whole,
      low_nibbles, low_nibbles_eq_iff, byteOfMargin_eq_iff, le16_readLE16, le24_readLE24,
      unitsOfFreq_freqOfUnits]

theorem encodeBody_decodeBody (c : CmdId) (sh : Shape) (b : Bytes) :
    encodeBody c sh (decodeBody c sh b) = .ok (bodyBytes c sh (decodeBody c sh b)) :=
  encodeBody_ok_iff.mpr ⟨decodeBody_inRange c sh b, rfl⟩

/-! ## Streams -/

theorem CmdId.byte_inj {c d : CmdId} (h : c.byte = d.byte) : c = d := by
  have hc := CmdId.ofByte_byte c
  rw [h, CmdId.ofByte_byte] at hc
  exact (Option.some.inj hc).symm

/-- The commands of a stream are its first one and those of the rest: a part before one of them
that decodes by itself is empty or begins with the whole first command. -/
theorem streamHasCommand_cons_iff {sh : Shape} {c d : CmdId} {body rest b : Bytes}
    (hbody : body.length = bodySize c sh) :
    streamHasCommand sh (c.byte :: (body ++ rest)) d b ↔
      (d = c ∧ b = body) ∨ streamHasCommand sh rest d b := by
  constructor
  · rintro ⟨p, q, es, hs, hp, hb⟩
    cases p with
    | nil =>
      obtain ⟨hbyte, hrest⟩ := List.cons.inj hs
      obtain rfl := CmdId.byte_inj hbyte
      exact .inl ⟨rfl, (List.append_inj_left hrest (hbody.trans hb.symm)).symm⟩
    | cons x p =>
      obtain ⟨rfl, hrest : body ++ rest = p ++ d.byte :: (b ++ q)⟩ := List.cons.inj hs
      obtain ⟨c', es', hc', hle, hp', -⟩ := decodeStream_cons_ok.mp hp
      obtain rfl := Option.some.inj ((CmdId.ofByte_byte c).symm.trans hc')
      refine .inr ⟨p.drop (bodySize c sh), q, es', ?_, hp', hb⟩
      rw [← List.drop_append_of_le_length hle, ← hrest, List.drop_left' hbody]
  · rintro (⟨rfl, rfl⟩ | ⟨p, q, es, rfl, hp, hb⟩)
    · exact ⟨[], rest, [], rfl, rfl, hbody⟩
    · refine ⟨c.byte :: (body ++ p), q, decodeBody c sh body :: es, by simp, ?_, hb⟩
      refine decodeStream_cons_ok.mpr ⟨c, es, CmdId.ofByte_byte c, by simp [hbody], ?_, ?_⟩
      · rwa [List.drop_left' hbody]
      · rw [List.take_left' hbody]

theorem not_streamHasCommand_nil (sh : Shape) (c : CmdId) (b : Bytes) :
    ¬ streamHasCommand sh [] c b := by
  rintro ⟨p, q, es, hs, -⟩
  cases p <;> cases hs

/-- A decoded stream encodes again, by induction on its commands (rule R91). -/
theorem encodeStream_of_decodeStream {sh : Shape} {s : Bytes} {es : List Entry}
    (h : decodeStream sh s = .ok es) :
    ∃ s', encodeStream sh es = .ok s' ∧ s'.length = s.length
      ∧ (s' = s ↔ ∀ c b, streamHasCommand sh s c b → bodyExact c sh b) := by
  induction es generalizing s with
  | nil =>
    cases s with
    | nil =>
      refine ⟨[], rfl, rfl, iff_of_true rfl fun c b hc => ?_⟩
      exact absurd hc (not_streamHasCommand_nil sh c b)
    | cons x s =>
      obtain ⟨-, -, -, -, -, ⟨⟩⟩ := decodeStream_cons_ok.mp h
  | cons e es ih =>
    cases s with
    | nil => cases h
    | cons x s =>
      obtain ⟨c, es', hc, hle, hrest, hes⟩ := decodeStream_cons_ok.mp h
      obtain ⟨rfl, rfl⟩ := List.cons.inj hes
      obtain rfl := CmdId.byte_of_ofByte hc
      obtain ⟨rest', hencode, hlen, hexact⟩ := ih hrest
      have hbody : (s.take (bodySize c sh)).length = bodySize c sh := List.length_take_of_le hle
      have hs := List.take_append_drop (bodySize c sh) s
      generalize s.take (bodySize c sh) = body at *
      generalize s.drop (bodySize c sh) = rest at *
      subst hs
      have hbody' := bodyBytes_length c sh (decodeBody c sh body)
      refine ⟨c.byte :: (bodyBytes c sh (decodeBody c sh body) ++ rest'), ?_, ?_, ?_⟩
      · rw [encodeStream_cons_ok_iff, decodeBody_cid]
        exact ⟨c, rest', hc, decodeBody_inRange c sh body, hencode, rfl⟩
      · simp only [List.length_cons, List.length_append]
        omega
      · rw [List.cons.injEq, eq_self, true_and,
          List.append_eq_append_iff_of_size_eq_left (hbody'.trans hbody.symm),
          bodyBytes_decodeBody_eq_iff hbody, hexact]
        simp only [streamHasCommand_cons_iff hbody, or_imp, forall_and, and_imp,
          forall_eq_apply_imp_iff, forall_eq]

/-- Settles O43: the bodies one by one, and the streams by induction on their commands. -/
theorem decodedBodiesEncodeAgain : Obligations.DecodedBodiesEncodeAgain := by
  refine ⟨fun c sh b hlen => ?_, fun sh s es => encodeStream_of_decodeStream⟩
  exact ⟨_, encodeBody_decodeBody c sh b, (bodyBytes_length c sh _).trans hlen.symm,
    bodyBytes_decodeBody_eq_iff hlen⟩

end Sys2Proof.Machine
end

section
/-! PROOFS. What an operation that succeeded has checked: the lengths of its outputs, its commands
and its payload. -/

namespace Sys2Proof.Machine

theorem except_map_eq_ok_iff {ε α β : Type} {r : Except ε α} {f : α → β} {b : β} :
    r.map f = .ok b ↔ ∃ a, r = .ok a ∧ f a = b := by
  cases r <;> simp [Except.map]

theorem except_bind_eq_ok_iff {ε α β : Type} {r : Except ε α} {f : α → Except ε β} {b : β} :
    r.bind f = .ok b ↔ ∃ a, r = .ok a ∧ f a = .ok b := by
  cases r <;> simp [Except.bind]

theorem ite_error_eq_ok_iff {ε α : Type} {p : Prop} [Decidable p] {k : ε} {r : Except ε α} {a : α} :
    (if p then .error k else r) = .ok a ↔ ¬ p ∧ r = .ok a := by
  by_cases h : p <;> simp [h]

/-- Only the reserved select names no key (rule R50). -/
theorem eq_reserved_of_keyOfSel {k : KSel} (h : keyOfSel k = none) : k = .reserved := by
  cases k with
  | reserved => rfl
  | nwks | apps | app => cases h

theorem aesEncBytes_length {s : State} {k : KSel} {b : Bytes} (h : aesEncBytes s k = .ok b) :
    b.length = 16 := by
  cases hk : keyOfSel k with
  | none =>
    obtain rfl := eq_reserved_of_keyOfSel hk
    cases h
  | some id =>
    rw [aesEncBytes_eq s hk] at h
    split_ifs at h
    obtain ⟨key, -, rfl⟩ := except_map_eq_ok_iff.mp h
    exact aes128_length key (s.input 16)

theorem cmacTag_length {s : State} {k : KSel} {tag : Bytes} (h : cmacTag s k = .ok tag) :
    tag.length = 16 := by
  cases hk : keyOfSel k with
  | none =>
    obtain rfl := eq_reserved_of_keyOfSel hk
    cases h
  | some id =>
    rw [cmacTag_eq s hk] at h
    split_ifs at h
    obtain ⟨key, -, rfl⟩ := except_map_eq_ok_iff.mp h
    exact aesCmac_length key _

/-- A keystream is as long as the input, and exists only for an input that fits the buffer. -/
theorem portKeystream_length {s : State} {ks : Bytes} (h : portKeystream s = .ok ks) :
    ks.length = s.ilen.toNat ∧ s.ilen.toNat ≤ 256 := by
  have h256 : s.ilen.toNat ≤ 256 := by
    by_contra hlong
    rw [portKeystream_long (Nat.not_le.mp hlong)] at h
    cases h
  refine ⟨?_, h256⟩
  rcases Nat.lt_or_ge s.fport.toNat 256 with hport | hport
  · rw [portKeystream_without_port h256 hport] at h
    split_ifs at h with hempty
    cases h
    exact (Nat.eq_zero_of_not_pos hempty).symm
  · rw [portKeystream_with_port h256 hport] at h
    obtain ⟨key, -, rfl⟩ := except_map_eq_ok_iff.mp h
    exact keystreamBytes_length key _ _ _ _

theorem cmdDecList_length {s : State} {es : List Entry} (h : cmdDecList s = .ok es) :
    es.length ≤ 15 := by
  have h15 : s.ilen.toNat ≤ 15 := by
    by_contra hlong
    rcases Nat.lt_or_ge 256 s.ilen.toNat with h256 | h256
    · rw [cmdDecList_long h256] at h
      cases h
    · rw [cmdDecList_overOptions (Nat.not_le.mp hlong) h256] at h
      cases h
  rw [cmdDecList_eq_decodeStream h15] at h
  have hlen := decodeStream_length h
  rw [State.input_length] at hlen
  exact hlen.trans h15

theorem cmdEncBytes_length {s : State} {b : Bytes} (h : cmdEncBytes s = .ok b) :
    b.length ≤ 15 := by
  rw [cmdEncBytes_eq, except_bind_eq_ok_iff] at h
  obtain ⟨b', -, h⟩ := h
  obtain ⟨hfit, ⟨⟩⟩ := ite_error_eq_ok_iff.mp h
  exact Nat.not_lt.mp hfit

/-- All that FRAME_DEC can have found in an input that passes its checks. -/
theorem frameDecFrame_ok {s : State} {f : Frame} (h : frameDecFrame s = .ok f) :
    f.cmds.length ≤ 15 ∧ f.payload.length ≤ 256 := by
  have h256 : s.ilen.toNat ≤ 256 := by
    by_contra hlong
    rw [frameDecFrame_long (Nat.not_le.mp hlong)] at h
    cases h
  rw [frameDecFrame_eq_parseFrame h256, parseFrame_eq] at h
  simp only [ite_error_eq_ok_iff, except_bind_eq_ok_iff] at h
  obtain ⟨-, -, -, -, es, hcmds, -, ⟨⟩⟩ := h
  refine ⟨messageCommands_length hcmds, ?_⟩
  rw [messageFrame, List.length_drop, State.input_length]
  omega

/-- All that FRAME_ENC has checked when it succeeds: its options are those listed, and its message
is the one around them. -/
theorem frameEncBytes_ok {s : State} {r : Bytes × Bytes} (h : frameEncBytes s = .ok r) :
    s.ilen.toNat ≤ 256 ∧ s.mhdr.toNat % 4 = 0 ∧ s.mhdr.toNat / 32 ∈ [2, 3, 4, 5]
      ∧ s.listedOpts = .ok r.1 ∧ r.1.length ≤ 15 ∧ (256 ≤ s.fport.toNat ↔ 0 < s.ilen.toNat)
      ∧ r.2.length ≤ 256 ∧ r.2 = s.message r.1 := by
  have h256 : s.ilen.toNat ≤ 256 := by
    by_contra hlong
    rw [frameEncBytes_long (Nat.not_le.mp hlong)] at h
    cases h
  rw [frameEncBytes_eq h256] at h
  simp only [ite_error_eq_ok_iff, except_bind_eq_ok_iff] at h
  obtain ⟨hmajor, htype, fopts, hopts, hfit, hempty, hsome, hsize, ⟨⟩⟩ := h
  exact ⟨h256, Decidable.not_not.mp hmajor, Decidable.not_not.mp htype, hopts, Nat.not_lt.mp hfit,
    by omega, Nat.not_lt.mp hsize, rfl⟩

end Sys2Proof.Machine
end

section
/-! PROOFS. What the block's buffers keep at every move (rules R13, R28, R31), what STATUS keeps
(rules R32, R119, R122): O28 and O29. -/

namespace Sys2Proof.Machine

/-! ## The buffers -/

/-- The part of the invariant that speaks of IBUF, OBUF, CLIST and OLEN. -/
structure Memory.Sound (m : Memory) (n : Nat) : Prop where
  wf : Memory.wf m
  output_le : n ≤ 256
  output_written : ∀ i, i < n → (Memory.read m (0x200 + i)).isSome
  slot_whole : ∀ j k, j < 15 → k < 5 → Memory.wordWhole m (0x404 + 0x20 * j + 4 * k)

theorem Memory.sound_nil : Memory.Sound [] 0 :=
  ⟨Memory.wf_nil, by decide, fun _ h => absurd h (Nat.not_lt_zero _), fun _ _ _ _ _ _ => rfl⟩

theorem Memory.wordWhole_congr {m m' : Memory} {a : Nat}
    (h : ∀ b, b < 4 → Memory.read m' (a + b) = Memory.read m (a + b)) (hw : Memory.wordWhole m a) :
    Memory.wordWhole m' a := by
  intro b hb
  have h0 := h 0 (by decide)
  rw [Nat.add_zero] at h0
  rw [h b hb, h0]
  exact hw b hb

/-- Four bytes stored at a word make it whole. -/
theorem Memory.wordWhole_of_written {m : Memory} {a : Nat}
    (h : ∀ b, b < 4 → (Memory.read m (a + b)).isSome = true) : Memory.wordWhole m a := by
  intro b hb
  rw [h b hb]
  exact (h 0 (by decide)).symm

theorem Memory.isSome_read_writeBytes {m : Memory} {a x : Nat} {b : Bytes} (h : a ≤ x)
    (hx : x < a + b.length) : (Memory.read (Memory.writeBytes m a b) x).isSome = true := by
  obtain ⟨i, rfl⟩ := Nat.exists_eq_add_of_le h
  rw [Memory.read_writeBytes_inside m a i b (by omega), List.getElem?_eq_getElem (by omega)]
  rfl

/-- Writing bytes only adds written bytes. -/
theorem Memory.isSome_read_writeBytes_of_isSome {m : Memory} {a x : Nat} {b : Bytes}
    (h : (Memory.read m x).isSome = true) :
    (Memory.read (Memory.writeBytes m a b) x).isSome = true := by
  by_cases hx : a ≤ x ∧ x < a + b.length
  · exact Memory.isSome_read_writeBytes hx.1 hx.2
  · rwa [Memory.read_writeBytes_outside m a x b (by omega)]

section
variable {m : Memory} {n : Nat} (h : Memory.Sound m n)
include h

/-- What is written to OBUF with its length in OLEN. -/
theorem Memory.Sound.output {b : Bytes} (hb : b.length ≤ 256) :
    Memory.Sound (m.writeBytes 0x200 b) b.length := by
  refine ⟨Memory.wf_writeBytes b h.wf fun i hi => Memory.storable_buffer (by omega) (by omega), hb,
    fun i hi => Memory.isSome_read_writeBytes (by omega) (by omega), fun j k hj hk => ?_⟩
  exact Memory.wordWhole_congr
    (fun x hx => Memory.read_writeBytes_outside m _ _ b (by omega)) (h.slot_whole j k hj hk)

/-- A copy from OBUF to IBUF. -/
theorem Memory.Sound.copy : Memory.Sound (m.copyBytes 0x200 0x100 n) n := by
  have hn := h.output_le
  have habove : ∀ x, 0x200 ≤ x → Memory.read (m.copyBytes 0x200 0x100 n) x = Memory.read m x :=
    fun x hx => Memory.sameOutside_copyBytes m n (by decide) x (by omega)
  refine ⟨Memory.wf_copyBytes h.wf fun i hi => Memory.storable_buffer (by omega) (by omega), hn,
    fun i hi => ?_, fun j k hj hk => ?_⟩
  · rw [habove _ (by omega)]
    exact h.output_written i hi
  · exact Memory.wordWhole_congr (fun x hx => habove _ (by omega)) (h.slot_whole j k hj hk)

/-- Bytes written to IBUF. -/
theorem Memory.Sound.writeBytes_ibuf {a : Nat} {b : Bytes} (ha : 0x100 ≤ a)
    (hb : a + b.length ≤ 0x200) : Memory.Sound (m.writeBytes a b) n := by
  refine ⟨Memory.wf_writeBytes b h.wf fun i hi => Memory.storable_buffer (by omega) (by omega),
    h.output_le, fun i hi => Memory.isSome_read_writeBytes_of_isSome (h.output_written i hi),
    fun j k hj hk => ?_⟩
  exact Memory.wordWhole_congr
    (fun x hx => Memory.read_writeBytes_outside m _ _ b (by omega)) (h.slot_whole j k hj hk)

/-- A CID byte written: it belongs to no slot. -/
theorem Memory.Sound.write_cid {j : Nat} (b : Byte) (hj : j < 15) :
    Memory.Sound (m.write (clistAddr j) b) n := by
  have hj' := clistAddr_eq j
  refine ⟨Memory.wf_write b h.wf (by simpa using Memory.storable_clist hj (.inl rfl)), h.output_le,
    fun i hi => ?_, fun i k hi hk => ?_⟩
  · rw [Memory.read_write_other (by have := h.output_le; omega)]
    exact h.output_written i hi
  · exact Memory.wordWhole_congr
      (fun x hx => Memory.read_write_other (by omega)) (h.slot_whole i k hi hk)

/-- Slot words written, as many as the bytes make: the host writes one, an operation all five. -/
theorem Memory.Sound.writeBytes_slots {j k l : Nat} {b : Bytes} (hb : b.length = 4 * l)
    (hj : j < 15) (hk : k + l ≤ 5) :
    Memory.Sound (m.writeBytes (clistAddr j + 4 + 4 * k) b) n := by
  have hj' := clistAddr_eq j
  refine ⟨Memory.wf_writeBytes b h.wf fun i hi => ?_, h.output_le,
    fun i hi => Memory.isSome_read_writeBytes_of_isSome (h.output_written i hi),
    fun i x hi hx => ?_⟩
  · have hs := Memory.storable_clist hj (o := 4 + 4 * k + i) (.inr (by omega))
    rwa [show clistAddr j + 4 + 4 * k + i = clistAddr j + (4 + 4 * k + i) by omega]
  · by_cases hsame : i = j ∧ k ≤ x ∧ x < k + l
    · obtain ⟨rfl, hkx, hxl⟩ := hsame
      exact Memory.wordWhole_of_written
        fun y hy => Memory.isSome_read_writeBytes (by omega) (by omega)
    · exact Memory.wordWhole_congr
        (fun y hy => Memory.read_writeBytes_outside m _ _ b (by omega)) (h.slot_whole i x hi hx)

theorem Memory.Sound.writeEntry {j : Nat} (e : Entry) (hj : j < 15) :
    Memory.Sound (m.writeEntry j e) n :=
  (h.write_cid e.cid hj).writeBytes_slots (k := 0) (l := 5) rfl hj (by decide)

end

theorem Memory.Sound.writeEntries {m : Memory} {n j : Nat} {es : List Entry}
    (h : Memory.Sound m n) (hj : j + es.length ≤ 15) : Memory.Sound (m.writeEntries j es) n := by
  induction es generalizing m j with
  | nil => exact h
  | cons e es ih =>
    rw [List.length_cons] at hj
    rw [Memory.writeEntries]
    exact ih (m := m.writeEntry j e) (j := j + 1) (h.writeEntry e (by omega)) (by omega)

/-! ## STATUS, CMD and PEND -/

/-- The part of the invariant that speaks of CMD, PEND and STATUS. -/
structure Status.Sound (st : Status) (cmd : Word) (pend : Option Word) : Prop where
  pending : ∀ w, pend = some w →
    cmd = w ∧ st.done = false ∧ st.err = false ∧ st.ecode = none
  err_code : st.err = true → st.ecode ≠ none
  integrity : st.ecode = some .integrityError → st.micok = false

theorem Status.sound_issue (st : Status) (w : Word) : st.issue.Sound w (some w) :=
  ⟨fun _ h => ⟨Option.some.inj h, rfl, rfl, rfl⟩, nofun, nofun⟩

theorem Status.sound_finish (st : Status) (opc : BitVec 8) (k : Option ErrKind) (cmd : Word) :
    (st.finish opc k).Sound cmd none := by
  refine ⟨nofun, fun herr => ?_, fun hcode => if_pos hcode⟩
  exact Option.isSome_iff_ne_none.mp herr

section
variable {st : Status} {cmd : Word} {pend : Option Word} (h : st.Sound cmd pend)
include h

theorem Status.Sound.setWerr : st.setWerr.Sound cmd pend :=
  ⟨h.pending, h.err_code, h.integrity⟩

/-- A write to STATUS only clears bits. -/
theorem Status.Sound.writeOneClear (v : Word) : (st.writeOneClear v).Sound cmd pend := by
  refine ⟨fun w hw => ?_, fun herr => h.err_code ?_, h.integrity⟩
  · obtain ⟨hcmd, hdone, herr, hcode⟩ := h.pending w hw
    exact ⟨hcmd, by rw [Status.writeOneClear_done, hdone, Bool.false_and],
      by rw [Status.writeOneClear_err, herr, Bool.false_and], hcode⟩
  · rw [Status.writeOneClear_err, Bool.and_eq_true] at herr
    exact herr.1

end

/-! ## The whole invariant -/

/-- The buffers of a state are sound for its OLEN. -/
abbrev State.buffersSound (s : State) : Prop := Memory.Sound s.mem s.olen.toNat

theorem State.inv_iff (s : State) :
    s.Inv ↔ s.buffersSound ∧ s.status.Sound s.cmd s.pend :=
  ⟨fun h => ⟨⟨h.mem_wf, h.olen_le, h.output_written, h.slot_whole⟩,
      ⟨h.pending, h.err_code, h.integrity⟩⟩,
    fun ⟨hb, hs⟩ => ⟨hb.wf, hb.output_le, hb.output_written, hb.slot_whole, hs.pending, hs.err_code,
      hs.integrity⟩⟩

theorem State.inv_resetBlock (s : State) : s.resetBlock.Inv :=
  s.resetBlock.inv_iff.mpr ⟨Memory.sound_nil, ⟨nofun, nofun, nofun⟩⟩

/-- Settles O28: nothing is written, nothing is pending, and STATUS is 0. -/
theorem invariantHoldsAtReset : Obligations.InvariantHoldsAtReset :=
  State.reset.inv_iff.mpr ⟨Memory.sound_nil, ⟨nofun, nofun, nofun⟩⟩

/-! ## Operations -/

/-- An output that fits the buffer, with its length in OLEN. -/
theorem State.buffersSound_output {s : State} {b : Bytes} (h : s.buffersSound)
    (hb : b.length ≤ 256) : (s.output b).buffersSound := by
  have holen : (BitVec.ofNat 9 b.length).toNat = b.length := by
    rw [BitVec.toNat_ofNat]
    omega
  rw [State.buffersSound, State.output_olen, holen]
  exact Memory.Sound.output h hb

theorem State.buffersSound_copyBody {s : State} (h : s.buffersSound) :
    (copyBody s).buffersSound :=
  Memory.Sound.copy h

theorem State.buffersSound_cmdDecCommit {s : State} {es : List Entry} (h : s.buffersSound)
    (hes : es.length ≤ 15) : (cmdDecCommit s es).buffersSound :=
  Memory.Sound.writeEntries h (by omega)

theorem State.buffersSound_frameDecCommit {s : State} {f : Frame} (h : s.buffersSound)
    (hcmds : f.cmds.length ≤ 15) (hpayload : f.payload.length ≤ 256) :
    (frameDecCommit s f).buffersSound :=
  State.buffersSound_output (State.buffersSound_cmdDecCommit h hcmds) hpayload

/-- A commit that leaves the buffers sound, or an error, which leaves them alone. -/
theorem complete_map_buffersSound {α : Type} {opc : BitVec 8} {s t : State} {r : Except ErrKind α}
    {f : α → State} (hexec : complete opc s (r.map f) = .next t) (h : s.buffersSound)
    (hf : ∀ a, r = .ok a → (f a).buffersSound) : t.buffersSound := by
  cases r with
  | ok a =>
    obtain rfl := Host.Outcome.next.inj ((complete_map_ok opc s f rfl).symm.trans hexec)
    exact hf a rfl
  | error k =>
    obtain rfl := Host.Outcome.next.inj ((complete_map_error opc s f rfl).symm.trans hexec)
    exact h

theorem completeVerify_buffersSound {opc : BitVec 8} {s t : State} {strict : Bool}
    {r : Except ErrKind Word} (hexec : completeVerify opc s strict r = .next t)
    (h : s.buffersSound) : t.buffersSound := by
  obtain ⟨s', hs', rfl⟩ | ⟨k, -, rfl⟩ := complete_cases hexec
  · obtain ⟨m, -, hverify⟩ := except_bind_eq_ok_iff.mp hs'
    obtain ⟨-, ⟨⟩⟩ := ite_error_eq_ok_iff.mp hverify
    exact h
  · exact h

/-- Every operation keeps the buffers sound. -/
theorem exec_buffersSound {i : Instr} {s t : State} (hexec : exec i s = .next t)
    (h : s.buffersSound) : t.buffersSound := by
  cases i with
  | nop =>
    obtain rfl := Host.Outcome.next.inj ((exec_nop s).symm.trans hexec)
    exact h
  | copy =>
    obtain rfl := Host.Outcome.next.inj ((exec_copy s).symm.trans hexec)
    exact State.buffersSound_copyBody h
  | mhdrEnc =>
    obtain rfl := Host.Outcome.next.inj ((exec_mhdrEnc s).symm.trans hexec)
    exact State.buffersSound_output h (show 1 ≤ 256 by decide)
  | mhdrDec | micJoin | micData => exact complete_map_buffersSound hexec h fun _ _ => h
  | frameDec =>
    refine complete_map_buffersSound hexec h fun f hf => ?_
    obtain ⟨hcmds, hpayload⟩ := frameDecFrame_ok hf
    exact State.buffersSound_frameDecCommit h hcmds hpayload
  | frameEnc =>
    refine complete_map_buffersSound hexec h fun r hr => ?_
    obtain ⟨-, -, -, -, -, -, hlen, -⟩ := frameEncBytes_ok hr
    exact State.buffersSound_output h hlen
  | cmdDec =>
    exact complete_map_buffersSound hexec h
      fun es hes => State.buffersSound_cmdDecCommit h (cmdDecList_length hes)
  | cmdEnc =>
    exact complete_map_buffersSound hexec h
      fun b hb => State.buffersSound_output h ((cmdEncBytes_length hb).trans (by decide))
  | aesEnc k =>
    exact complete_map_buffersSound hexec h
      fun b hb => State.buffersSound_output h (by rw [aesEncBytes_length hb]; decide)
  | cmac k =>
    exact complete_map_buffersSound hexec h
      fun b hb => State.buffersSound_output h (by rw [cmacTag_length hb]; decide)
  | keystream =>
    refine complete_map_buffersSound hexec h fun b hb => ?_
    obtain ⟨hlen, h256⟩ := portKeystream_length hb
    exact State.buffersSound_output h (by rwa [hlen])
  | payloadXor =>
    refine complete_map_buffersSound hexec h fun b hb => ?_
    obtain ⟨ks, hks, rfl⟩ := except_map_eq_ok_iff.mp hb
    obtain ⟨hlen, h256⟩ := portKeystream_length hks
    refine State.buffersSound_output h ((xorBytes_length _ _).trans_le ?_)
    exact (Nat.min_le_right _ _).trans (hlen.trans_le h256)
  | verifyJoin strict | verifyData strict => exact completeVerify_buffersSound hexec h

/-- A completion ends idle, with STATUS as rule R122 gives it. -/
theorem exec_statusSound {i : Instr} {s t : State} (hexec : exec i s = .next t) :
    t.status.Sound t.cmd t.pend := by
  obtain ⟨s', hok, -, -⟩ | ⟨k, -, herror⟩ := exec_cases i s
  · obtain rfl := Host.Outcome.next.inj (hok.symm.trans hexec)
    exact Status.sound_finish s'.status i.opcode none s'.cmd
  · rw [← State.finish_some] at herror
    obtain rfl := Host.Outcome.next.inj (herror.symm.trans hexec)
    exact Status.sound_finish s.status i.opcode (some k) s.cmd

theorem completeWord_inv {w : Word} {s t : State} (h : s.Inv) (hstep : completeWord w s = .next t) :
    t.Inv := by
  obtain ⟨hbuffers, -⟩ := s.inv_iff.mp h
  cases hd : decode w with
  | ok i =>
    rw [completeWord_ok s hd] at hstep
    exact t.inv_iff.mpr ⟨exec_buffersSound hstep hbuffers, exec_statusSound hstep⟩
  | error e =>
    rw [completeWord_error s hd, ← State.finish_some] at hstep
    obtain rfl := Host.Outcome.next.inj hstep
    exact (State.inv_iff _).mpr ⟨hbuffers, Status.sound_finish s.status _ _ s.cmd⟩

theorem engineStep_inv {s t : State} (h : s.Inv) (hstep : engineStep s = .next t) : t.Inv := by
  cases hp : s.pend with
  | none =>
    obtain rfl := Host.Outcome.next.inj ((engineStep_none hp).symm.trans hstep)
    exact h
  | some w => exact completeWord_inv h ((engineStep_some hp).symm.trans hstep)

/-! ## The host's writes -/

/-- The words of the window that hold buffer bytes. -/
def WindowReg.isBuffer : WindowReg → Bool
  | .ibuf _ | .obuf _ | .clistCid _ | .clistSlot _ => true
  | .cmd | .status | .ilen | .olen | .mhdr | .devaddr | .fctrl | .fcnt | .fport | .dir | .mic
  | .micIn | .ccount | .keyctl | .key _ _ | .reserved => false

theorem windowReg_isBuffer_ge {off : Nat} (h : (windowReg off).isBuffer = true) : 0x038 ≤ off := by
  by_contra hlow
  have hcontrol : ∀ off < 0x038, (windowReg off).isBuffer = false := by decide
  rw [hcontrol off (Nat.not_le.mp hlow)] at h
  cases h

theorem of_windowReg_ibuf {off a : Nat} (h : windowReg off = .ibuf a) :
    a = off ∧ 0x100 ≤ off ∧ off < 0x200 := by
  rw [windowReg_of_ge (windowReg_isBuffer_ge (by rw [h]; rfl))] at h
  split_ifs at h with _ _ _ hrange
  cases h
  exact ⟨rfl, hrange⟩

theorem of_windowReg_clistCid {off a : Nat} (h : windowReg off = .clistCid a) :
    a = off ∧ ∃ j < 15, off = clistAddr j := by
  rw [windowReg_of_ge (windowReg_isBuffer_ge (by rw [h]; rfl))] at h
  split_ifs at h with _ _ _ _ _ hrange hcid
  cases h
  refine ⟨rfl, (off - 0x400) / 0x20, by omega, ?_⟩
  rw [clistAddr_eq]
  omega

theorem of_windowReg_clistSlot {off a : Nat} (h : windowReg off = .clistSlot a)
    (h4 : off % 4 = 0) :
    a = off ∧ ∃ j < 15, ∃ k < 5, off = clistAddr j + 4 + 4 * k := by
  rw [windowReg_of_ge (windowReg_isBuffer_ge (by rw [h]; rfl))] at h
  split_ifs at h with _ _ _ _ _ hrange hcid hslot
  cases h
  refine ⟨rfl, (off - 0x400) / 0x20, by omega, off % 0x20 / 4 - 1, by omega, ?_⟩
  rw [clistAddr_eq]
  omega

theorem writeReg_inv {s : State} (h : s.Inv) {off : Nat} (v : Word) (h4 : off % 4 = 0) :
    (s.writeReg (windowReg off) v).Inv := by
  obtain ⟨hbuffers, hstatus⟩ := s.inv_iff.mp h
  rw [State.inv_iff]
  cases hr : windowReg off with
  | cmd => exact ⟨hbuffers, Status.sound_issue s.status v⟩
  | status => exact ⟨hbuffers, hstatus.writeOneClear v⟩
  | ibuf a =>
    obtain ⟨rfl, hlow, hhigh⟩ := of_windowReg_ibuf hr
    exact ⟨Memory.Sound.writeBytes_ibuf hbuffers hlow (by rw [le32_length]; omega), hstatus⟩
  | clistCid a =>
    obtain ⟨rfl, j, hj, rfl⟩ := of_windowReg_clistCid hr
    exact ⟨Memory.Sound.write_cid hbuffers _ hj, hstatus⟩
  | clistSlot a =>
    obtain ⟨rfl, j, hj, k, hk, rfl⟩ := of_windowReg_clistSlot hr h4
    exact ⟨Memory.Sound.writeBytes_slots hbuffers (l := 1) rfl hj hk, hstatus⟩
  | key id j => cases id <;> exact ⟨hbuffers, hstatus⟩
  | _ => exact ⟨hbuffers, hstatus⟩

theorem hostWrite_inv {s : State} (h : s.Inv) {off : Nat} (v : Word) (h4 : off % 4 = 0) :
    (s.hostWrite (windowReg off) v).Inv := by
  unfold State.hostWrite
  split
  · obtain ⟨hbuffers, hstatus⟩ := s.inv_iff.mp h
    exact (State.inv_iff _).mpr ⟨hbuffers, hstatus.setWerr⟩
  · exact writeReg_inv h v h4

/-! ## Every move -/

/-- The invariant does not speak of the schedule, nor of the last read and its draw. -/
theorem State.Inv.hostRead {s : State} (h : s.Inv) (r : WindowReg) : (s.hostRead r).Inv :=
  (State.inv_iff _).mpr (s.inv_iff.mp h)

theorem State.Inv.withInputs {s : State} (h : s.Inv) (l : List Input) :
    { s with inputs := l }.Inv :=
  (State.inv_iff _).mpr (s.inv_iff.mp h)

theorem step_host_inv {s t : State} {a : Access} {rest : List Input}
    (h : s.Inv) (hinputs : s.inputs = .host a :: rest) (hstep : step s = .next t) : t.Inv := by
  by_cases ha : a.admitted = true
  · obtain ⟨off, width, kind⟩ := a
    obtain ⟨rfl, h4, h8⟩ := (Access.admitted_iff _).mp ha
    cases kind with
    | read =>
      obtain rfl := Host.Outcome.next.inj ((step_read hinputs h4 h8).symm.trans hstep)
      exact (h.withInputs rest).hostRead _
    | write v =>
      obtain rfl := Host.Outcome.next.inj ((step_write hinputs h4 h8).symm.trans hstep)
      exact hostWrite_inv (h.withInputs rest) v h4
  · rw [step_refused hinputs (Bool.eq_false_of_not_eq_true ha)] at hstep
    cases hstep

/-- Settles O29, move by move. -/
theorem stepKeepsTheInvariant : Obligations.StepKeepsTheInvariant := by
  intro s t h hstep
  cases hinputs : s.inputs with
  | nil => exact engineStep_inv h ((step_nil hinputs).symm.trans hstep)
  | cons move rest =>
    cases move with
    | host a => exact step_host_inv h hinputs hstep
    | engine => exact engineStep_inv (h.withInputs rest) ((step_engine hinputs).symm.trans hstep)
    | wait =>
      cases hd : s.status.done with
      | false => exact engineStep_inv h ((step_wait_poll hinputs hd).symm.trans hstep)
      | true =>
        obtain rfl := Host.Outcome.next.inj ((step_wait_done hinputs hd).symm.trans hstep)
        exact (h.withInputs rest).hostRead _
    | reset =>
      obtain rfl := Host.Outcome.next.inj ((step_reset hinputs).symm.trans hstep)
      exact State.inv_resetBlock _

end Sys2Proof.Machine
end

section
/-! PROOFS. What an operation writes to OBUF, COPY gives the next one as its input (rule R56); the
round trip of a frame (rule R66) and the involution of PAYLOAD_XOR (rule R104): O36 and O53. -/

namespace Sys2Proof.Machine

/-! ## COPY between two operations -/

/-- The output of one operation is the input of the next one after a COPY (rule R56). -/
theorem input_copyBody {s : State} {b : Bytes} (opc : BitVec 8) (holen : s.olen.toNat = b.length)
    (hout : Memory.holds s.mem 0x200 b) :
    ((copyBody s).succeeded opc).input b.length = b := by
  refine State.readBytes_of_holds fun i hi => ?_
  rw [← hout i hi]
  exact Memory.read_copyBytes_inside s.mem (by decide) (by omega)

theorem toNat_olen_output {b : Bytes} (h : b.length ≤ 256) :
    (BitVec.ofNat 9 b.length).toNat = b.length := by
  rw [BitVec.toNat_ofNat]
  omega

theorem ofNat_length_eq {b : Bytes} {n : BitVec 9} (h : b.length = n.toNat) :
    BitVec.ofNat 9 b.length = n := by
  rw [h, BitVec.ofNat_toNat, BitVec.setWidth_eq]

/-- An operation that ended without ERR committed its result. -/
theorem complete_map_of_success {α : Type} {opc : BitVec 8} {s t : State} {r : Except ErrKind α}
    {f : α → State} (hexec : complete opc s (r.map f) = .next t) (herr : t.status.err = false) :
    ∃ a, r = .ok a ∧ t = (f a).succeeded opc := by
  cases r with
  | ok a => exact ⟨a, rfl, (Host.Outcome.next.inj hexec).symm⟩
  | error k =>
    obtain rfl := Host.Outcome.next.inj ((complete_map_error opc s f rfl).symm.trans hexec)
    cases herr

/-! ## The message that FRAME_ENC builds, read again (rules R59, R64, R65) -/

section
variable (s : State) (fopts : Bytes)

theorem byteAt_message_mhdr : byteAt (s.message fopts) 0 = s.mhdr := rfl

theorem readLE32_message : readLE32 (s.message fopts) 1 = s.devaddr := readLE32_le32 s.devaddr

theorem byteAt_message_fctrl :
    byteAt (s.message fopts) 5 = flagsOf s.fctrl ++ BitVec.ofNat 4 fopts.length := rfl

theorem readLE16_message : readLE16 (s.message fopts) 6 = s.fcnt := readLE16_le16 s.fcnt

theorem drop_message : (s.message fopts).drop 8 = fopts ++ frameTail s s.ilen.toNat := rfl

theorem message_length :
    (s.message fopts).length = 8 + fopts.length + (frameTail s s.ilen.toNat).length := by
  simp only [State.message, frameBytes, List.length_append, le32_length, le16_length,
    List.length_singleton]

end

theorem flagsOf_append (a b : BitVec 4) : flagsOf (a ++ b) = a := by
  apply BitVec.eq_of_toNat_eq
  rw [flagsOf, toNat_field, toNat_append_eq]
  omega

theorem announcedOpts_message (s : State) {fopts : Bytes} (hfit : fopts.length ≤ 15) :
    announcedOpts (s.message fopts) = fopts.length := by
  rw [announcedOpts, byteAt_message_fctrl, toNat_append_eq, BitVec.toNat_ofNat]
  omega

/-- The payload region is FPort and the payload, or nothing (rule R65). -/
theorem frameTail_eq {s : State} (hport : 256 ≤ s.fport.toNat ↔ 0 < s.ilen.toNat) :
    frameTail s s.ilen.toNat =
      if 0 < s.ilen.toNat then s.port :: s.input s.ilen.toNat else [] := by
  simp only [frameTail, State.portPresent_iff, hport]

theorem frameTail_length {s : State} (hport : 256 ≤ s.fport.toNat ↔ 0 < s.ilen.toNat) :
    (frameTail s s.ilen.toNat).length = if 0 < s.ilen.toNat then s.ilen.toNat + 1 else 0 := by
  rw [frameTail_eq hport]
  split <;> simp

/-- Behind FPort stands the payload. -/
theorem drop_message_payload {s : State} {fopts : Bytes}
    (hport : 256 ≤ s.fport.toNat ↔ 0 < s.ilen.toNat) :
    (s.message fopts).drop (9 + fopts.length) = s.input s.ilen.toNat := by
  have hdrop : (s.message fopts).drop (9 + fopts.length)
      = (((s.message fopts).drop 8).drop fopts.length).drop 1 := by
    simp only [List.drop_drop]
    congr 1
    omega
  rw [hdrop, drop_message, List.drop_left, frameTail_eq hport]
  split_ifs with hpos
  · rfl
  · rw [Nat.eq_zero_of_not_pos hpos]
    rfl

theorem byteAt_message_port {s : State} {fopts : Bytes}
    (hport : 256 ≤ s.fport.toNat ↔ 0 < s.ilen.toNat) (hpos : 0 < s.ilen.toNat) :
    byteAt (s.message fopts) (8 + fopts.length) = s.port := by
  rw [byteAt, List.getD_eq_getElem?_getD, ← List.getElem?_drop, drop_message,
    List.getElem?_append_right (le_refl _), Nat.sub_self, frameTail_eq hport, if_pos hpos]
  rfl

/-- FPORT as FRAME_DEC finds it: the register where PRESENT is 1, else 0 (rule R64; log entry 7). -/
theorem messageFrame_fport {s : State} {fopts : Bytes} (es : List Entry) (hfit : fopts.length ≤ 15)
    (hport : 256 ≤ s.fport.toNat ↔ 0 < s.ilen.toNat) :
    (messageFrame (s.message fopts) es).fport = if 256 ≤ s.fport.toNat then s.fport else 0 := by
  have hlen := message_length s fopts
  rw [frameTail_length hport] at hlen
  rw [messageFrame, announcedOpts_message s hfit]
  simp only [hport]
  by_cases hpos : 0 < s.ilen.toNat
  · rw [if_pos hpos] at hlen ⊢
    rw [if_neg (by omega), byteAt_message_port hport hpos, State.port_eq]
    have hpresent := hport.mpr hpos
    have hlt : s.fport.toNat < 512 := s.fport.isLt
    apply BitVec.eq_of_toNat_eq
    rw [BitVec.toNat_ofNat, BitVec.toNat_ofNat]
    omega
  · rw [if_neg hpos] at hlen ⊢
    exact if_pos (by omega)

/-- The commands of CLIST as a decode gives them, by the direction of MHDR (rules R61, R91). -/
def State.listedCommands (s : State) : List Entry :=
  (s.readEntries s.ccount.toNat).map
    (Entry.normalized (if s.mhdr.toNat / 32 % 2 = 0 then .req else .ans))

theorem State.listedCommands_length (s : State) : s.listedCommands.length = s.ccount.toNat := by
  rw [State.listedCommands, List.length_map, State.readEntries_length]

theorem State.listedCommands_getElem? (s : State) {j : Nat} (h : j < s.ccount.toNat) :
    s.listedCommands[j]? = some ((s.readEntry j).normalized
      (if s.mhdr.toNat / 32 % 2 = 0 then .req else .ans)) := by
  simp [State.listedCommands, State.readEntries, h]

section
variable {s : State} {r : Bytes × Bytes} (h : frameEncBytes s = .ok r)
include h

/-- The options that FRAME_ENC encoded decode to the list (rule R91). -/
theorem messageCommands_message : messageCommands (s.message r.1) = .ok s.listedCommands := by
  obtain ⟨-, -, -, hopts, hfit, -, -, -⟩ := frameEncBytes_ok h
  rw [messageCommands, announcedOpts_message s hfit, drop_message, List.take_left,
    byteAt_message_mhdr]
  exact commandStreamRoundTrip _ _ _ hopts

/-- The message passes every check of FRAME_DEC (rule R66). -/
theorem parseFrame_message : parseFrame r.2 = .ok (messageFrame r.2 s.listedCommands) := by
  obtain ⟨-, hmajor, htype, -, hfit, hport, -, hmessage⟩ := frameEncBytes_ok h
  have hlen := message_length s r.1
  rw [frameTail_length hport] at hlen
  rw [hmessage, parseFrame_eq, messageCommands_message h, announcedOpts_message s hfit,
    byteAt_message_mhdr, if_neg (by omega), if_neg (not_not.mpr hmajor),
    if_neg (not_not.mpr htype), if_neg (by omega)]
  refine if_neg ?_
  split_ifs at hlen <;> omega

/-- After the COPY the message is the input of FRAME_DEC. -/
theorem frameDecFrame_copyBody (opc opc' : BitVec 8) :
    frameDecFrame ((copyBody ((frameEncCommit s r).succeeded opc)).succeeded opc')
      = .ok (messageFrame r.2 s.listedCommands) := by
  obtain ⟨-, -, -, -, -, -, hsize, -⟩ := frameEncBytes_ok h
  have holen := toNat_olen_output hsize
  have hinput := input_copyBody (s := (frameEncCommit s r).succeeded opc) opc' holen
    (Memory.holds_writeBytes s.mem 0x200 r.2)
  rw [frameDecFrame_eq_parseFrame (holen.trans_le hsize), ← parseFrame_message h]
  exact congrArg parseFrame ((congrArg _ holen).trans hinput)

end

/-- Settles O36: the message stands in IBUF after the COPY, it passes the checks of FRAME_DEC, and
each of its fields is found where FRAME_ENC put it. -/
theorem frameRoundTrip : Obligations.FrameRoundTrip := by
  intro s s1 hexec herr
  obtain ⟨r, hr, rfl⟩ := complete_map_of_success hexec herr
  obtain ⟨h256, -, -, -, hfit, hport, hsize, hmessage⟩ := frameEncBytes_ok hr
  have hpayload : (messageFrame r.2 s.listedCommands).payload = s.input s.ilen.toNat := by
    rw [messageFrame, hmessage, announcedOpts_message s hfit]
    exact drop_message_payload hport
  refine ⟨_, _, exec_copy _, exec_frameDec_ok (frameDecFrame_copyBody hr 0x04 0x0F), rfl, ?mhdr,
    ?devaddr, ?flags, ?fctrl, ?fcnt, ?fport, ?dir, ?ccount, fun j hj => ?entry, ?olen, ?payload⟩
  case mhdr => rw [hmessage]; rfl
  case devaddr => rw [hmessage]; exact readLE32_message s r.1
  case flags => rw [hmessage]; exact flagsOf_append _ _
  case fctrl => rw [hmessage]; rfl
  case fcnt => rw [hmessage]; exact readLE16_message s r.1
  case fport => rw [hmessage]; exact messageFrame_fport s.listedCommands hfit hport
  case dir => rw [hmessage]; exact (dirOf_mtypeOf s.mhdr).symm
  case ccount =>
    refine (congrArg (BitVec.ofNat 4) s.listedCommands_length).trans ?_
    rw [BitVec.ofNat_toNat, BitVec.setWidth_eq]
  case entry =>
    refine frameDecCommit_holdsEntry _ ?_ ?_
    · rw [hpayload, State.input_length]
      exact h256
    · refine (s.listedCommands_getElem? hj).trans ?_
      rw [← shapeOf_dirOf_mtypeOf]
      rfl
  case olen =>
    exact (congrArg (fun b => BitVec.ofNat 9 (List.length b)) hpayload).trans
      (ofNat_length_eq (State.input_length s _))
  case payload =>
    rw [← hpayload]
    exact Memory.holds_writeBytes _ _ _

/-! ## The involution of PAYLOAD_XOR (rule R104) -/

/-- An output as long as the input, copied to IBUF, has the keystream of the input: neither the
completion nor the COPY changes what the keystream is made of. -/
theorem portKeystream_copyBody_output {s : State} {b : Bytes} (opc opc' : BitVec 8)
    (hlen : b.length = s.ilen.toNat) :
    portKeystream ((copyBody ((s.output b).succeeded opc)).succeeded opc') = portKeystream s :=
  calc
    _ = portKeystream { s with ilen := BitVec.ofNat 9 b.length } := rfl
    _ = portKeystream s := by rw [ofNat_length_eq hlen]

theorem exec_payloadXor_ok {s : State} {ks : Bytes} (h : portKeystream s = .ok ks) :
    exec .payloadXor s
      = .next ((s.output (xorBytes (s.input s.ilen.toNat) ks)).succeeded 0x22) := by
  rw [exec_payloadXor, h]
  rfl

/-- Settles O53: both runs take the same keystream, and a second xor with it cancels the first. -/
theorem payloadXorIsAnInvolution : Obligations.PayloadXorIsAnInvolution := by
  intro s s1 hexec herr
  obtain ⟨b, hb, rfl⟩ := complete_map_of_success hexec herr
  obtain ⟨ks, hks, hxor⟩ := except_map_eq_ok_iff.mp hb
  obtain ⟨hkslen, h256⟩ := portKeystream_length hks
  have hlen : b.length = s.ilen.toNat := by
    rw [← hxor, xorBytes_length, State.input_length, hkslen, State.inputLen, Nat.min_self]
  have holen := toNat_olen_output (hlen.trans_le h256)
  have hinput := input_copyBody (s := (s.output b).succeeded 0x22) 0x0F holen
    (Memory.holds_writeBytes s.mem 0x200 b)
  have hcancel : xorBytes b ks = s.input s.ilen.toNat := by
    rw [← hxor]
    exact xorBytes_cancel (by rw [State.input_length, hkslen]; rfl)
  have hsecond := exec_payloadXor_ok
    ((portKeystream_copyBody_output (b := b) 0x22 0x0F hlen).trans hks)
  have hilen : ((copyBody ((s.output b).succeeded 0x22)).succeeded 0x0F).ilen.toNat = b.length :=
    holen
  rw [hilen, hinput, hcancel] at hsecond
  refine ⟨_, _, exec_copy _, hsecond, rfl, ?_, Memory.holds_writeBytes _ 0x200 _⟩
  exact ofNat_length_eq (State.input_length s _)

end Sys2Proof.Machine
end

section
/-! PROOFS. What a completion leaves in STATUS (rules R117, R118, R122), and that one always comes
(rule R115): O7, O8, O10, O12, O14, O15 and O16. -/

namespace Sys2Proof.Machine

/-! ## How an operation ends -/

theorem State.committed_status {s s' : State} (h : s.committed s') :
    s'.status = { s.status with micok := s'.status.micok } :=
  congrArg (·.status) h

theorem State.committed_inputs {s s' : State} (h : s.committed s') : s'.inputs = s.inputs :=
  congrArg (·.inputs) h

/-- Settles O8: these are the two ways of `exec_cases`. -/
theorem everyOperationCompletes : Obligations.EveryOperationCompletes := by
  intro i s
  obtain ⟨s', hok, hcommitted, hmicok⟩ | ⟨k, -, herror⟩ := exec_cases i s
  · refine ⟨_, hok, .inl ⟨rfl, ?_, hmicok⟩⟩
    rw [State.succeeded_status, State.committed_status hcommitted]
    rfl
  · exact ⟨_, herror, .inr ⟨k, rfl⟩⟩

/-- Settles O10: an error of `exec_cases` is in the row, and a success has no code. -/
theorem operationsRaiseOnlyTheirKinds : Obligations.OperationsRaiseOnlyTheirKinds := by
  intro i s t k hexec hcode
  obtain ⟨s', hok, -, -⟩ | ⟨k', hrow, herror⟩ := exec_cases i s
  · obtain rfl := Host.Outcome.next.inj (hok.symm.trans hexec)
    cases hcode
  · obtain rfl := Host.Outcome.next.inj (herror.symm.trans hexec)
    obtain rfl : k' = k := Option.some.inj hcode
    exact hrow

/-! ## How a pending word ends -/

/-- Every completion, of a legal word or not, leaves nothing pending, DONE 1 and LASTOP the word's
low byte, and does not touch the schedule. -/
theorem completeWord_next (w : Word) (s : State) :
    ∃ t, completeWord w s = .next t ∧ t.inputs = s.inputs ∧ t.pend = none
      ∧ t.status.done = true ∧ t.status.lastop = opcField w := by
  obtain ⟨i, s', -, hok, hcommitted, -⟩ | ⟨k, herror, -⟩ := completeWord_cases w s
  · have hinputs := State.committed_inputs hcommitted
    exact ⟨_, hok, hinputs, rfl, rfl, rfl⟩
  · exact ⟨_, herror, rfl, rfl, rfl, rfl⟩

/-- Only a verification can end with IntegrityError (rule R118). -/
theorem verification_of_integrityError {i : Instr} (h : .integrityError ∈ raises i) :
    ∃ strict, i = .verifyJoin strict ∨ i = .verifyData strict := by
  cases i with
  | verifyJoin strict => exact ⟨strict, .inl rfl⟩
  | verifyData strict => exact ⟨strict, .inr rfl⟩
  | _ => simp [raises] at h

theorem opcode_of_verification {w : Word} {i : Instr} (hd : decode w = .ok i)
    (h : ∃ strict, i = .verifyJoin strict ∨ i = .verifyData strict) :
    w.toNat % 256 = 0x33 ∨ w.toNat % 256 = 0x34 := by
  have hopc := congrArg BitVec.toNat (opcode_of_decode hd)
  rw [toNat_opcField] at hopc
  obtain ⟨strict, rfl | rfl⟩ := h
  · exact .inl hopc.symm
  · exact .inr hopc.symm

/-- MICOK moves only under the opcodes of the two verifications. -/
theorem completeWord_micok {w : Word} {s t : State} (hstep : completeWord w s = .next t)
    (hjoin : w.toNat % 256 ≠ 0x33) (hdata : w.toNat % 256 ≠ 0x34) :
    t.status.micok = s.status.micok := by
  have hnot : ∀ i, decode w = .ok i →
      ¬ ∃ strict, i = .verifyJoin strict ∨ i = .verifyData strict :=
    fun i hd hverify => (opcode_of_verification hd hverify).elim hjoin hdata
  obtain ⟨i, s', hd, hok, -, hmicok⟩ | ⟨k, herror, hk⟩ := completeWord_cases w s
  · obtain rfl := Host.Outcome.next.inj (hok.symm.trans hstep)
    exact hmicok.resolve_right (hnot i hd)
  · obtain rfl := Host.Outcome.next.inj (herror.symm.trans hstep)
    refine if_neg ?_
    rintro rfl
    obtain ⟨⟨⟩⟩ | ⟨i, hd, hrow⟩ := hk
    exact hnot i hd (verification_of_integrityError hrow)

/-- ERR and MICOK agree with the error code after every completion (rule R122). -/
theorem completeWord_code {w : Word} {s t : State} (hstep : completeWord w s = .next t) :
    (t.status.err = true ↔ t.status.ecode ≠ none)
      ∧ (t.status.ecode = some .integrityError → t.status.micok = false) := by
  obtain ⟨i, s', -, hok, -, -⟩ | ⟨k, herror, -⟩ := completeWord_cases w s
  · obtain rfl := Host.Outcome.next.inj (hok.symm.trans hstep)
    exact ⟨iff_of_false nofun (not_not.mpr rfl), nofun⟩
  · obtain rfl := Host.Outcome.next.inj (herror.symm.trans hstep)
    exact ⟨iff_of_true rfl nofun, fun hcode => if_pos (Option.some.inj hcode)⟩

/-- Settles O7: with no move left, the step is the completion of the pending word. -/
theorem completionUpdatesStatus : Obligations.CompletionUpdatesStatus := by
  intro s w hp hinputs
  obtain ⟨t, hstep, -, hidle, hdone, hlastop⟩ := completeWord_next w s
  obtain ⟨herr, hintegrity⟩ := completeWord_code hstep
  exact ⟨t, (step_nil_some hinputs hp).trans hstep, hidle, hdone, hlastop, herr,
    completeWord_werr hstep, hintegrity, completeWord_micok hstep⟩

/-! ## The STATUS word (rules R10, R117) -/

theorem toNat_statusWord (busy : Bool) (st : Status) :
    (statusWord busy st).toNat = busy.toNat + 2 * st.done.toNat + 4 * st.err.toNat
      + 8 * st.micok.toNat + 16 * (ecodeBits st.ecode).toNat + 256 * st.werr.toNat
      + 65536 * st.lastop.toNat := by
  simp only [statusWord, toNat_append_eq, BitVec.toNat_ofBool, BitVec.toNat_ofNat]
  omega

/-- Settles O12: the fields of the word stand at their weights, the codes are 0 to 7, and STATUS
accepts its writes, busy or not. -/
theorem statusWordAndItsWrites : Obligations.StatusWordAndItsWrites := by
  refine ⟨fun s => ?_, fun s v rest h => step_write_accepted h rfl (by decide) (.inr rfl)⟩
  rw [State.readReg, toNat_statusWord]
  obtain _ | k := s.status.ecode
  · rfl
  · cases k <;> rfl

/-! ## Runs -/

theorem engineStep_next (s : State) : ∃ t, engineStep s = .next t ∧ t.inputs = s.inputs := by
  cases hp : s.pend with
  | none => exact ⟨s, engineStep_none hp, rfl⟩
  | some w =>
    obtain ⟨t, hstep, hinputs, -⟩ := completeWord_next w s
    exact ⟨t, (engineStep_some hp).trans hstep, hinputs⟩

/-- A busy block has no write that ends its operation: a guarded one is dropped, and of the others
only STATUS is written (rules R36, R136). -/
theorem State.hostWrite_pend_of_busy {s : State} {w : Word} (r : WindowReg) (v : Word)
    (hp : s.pend = some w) : (s.hostWrite r v).pend = some w := by
  cases hg : r.guarded with
  | true =>
    rw [hostWrite_dropped v (by rw [hp]; nofun) hg]
    exact hp
  | false =>
    rw [hostWrite_accepted v (.inr hg)]
    by_cases hr : r = .status
    · subst hr
      exact hp
    · rwa [s.writeReg_of_not_guarded v hg hr]

theorem step_admitted_pend {s t : State} {a : Access} {w : Word} {rest : List Input}
    (h : s.inputs = .host a :: rest) (ha : a.admitted = true) (hp : s.pend = some w)
    (hstep : step s = .next t) : t.pend = some w := by
  obtain ⟨off, width, kind⟩ := a
  obtain ⟨rfl, h4, h8⟩ := (Access.admitted_iff _).mp ha
  cases kind with
  | read =>
    obtain rfl := Host.Outcome.next.inj ((step_read h h4 h8).symm.trans hstep)
    exact hp
  | write v =>
    obtain rfl := Host.Outcome.next.inj ((step_write h h4 h8).symm.trans hstep)
    exact State.hostWrite_pend_of_busy (s := { s with inputs := rest }) _ v hp

/-- Settles O14, by induction on the accesses left: each leaves the word pending, and after the last
one the engine moves. -/
theorem pendingOperationIsEventuallyCompleted :
    Obligations.PendingOperationIsEventuallyCompleted := by
  intro s w hp hhost
  generalize hl : s.inputs = l
  induction l generalizing s with
  | nil =>
    obtain ⟨t, hstep, -, hidle, hdone, hlastop⟩ := completeWord_next w s
    exact ⟨t, run_step 0 ((step_nil_some hl hp).trans hstep), hidle, hdone, hlastop⟩
  | cons move rest ih =>
    obtain ⟨a, rfl, ha⟩ := hhost move (by rw [hl]; exact List.mem_cons_self)
    obtain ⟨u, hstep, hrest⟩ := step_admitted hl ha
    have hhost' : u.hostOnly := by
      rw [State.hostOnly, hrest]
      rw [State.hostOnly, hl] at hhost
      exact fun i hi => hhost i (List.mem_cons_of_mem _ hi)
    obtain ⟨t, hrun, ht⟩ := ih u (step_admitted_pend hl ha hp hstep) hhost' hrest
    exact ⟨t, (run_step _ hstep).trans hrun, ht⟩

/-- Settles O15: every admitted move answers a next state, and no move adds to the schedule. -/
theorem admittedScheduleNeverStops : Obligations.AdmittedScheduleNeverStops := by
  intro s hadm
  cases hl : s.inputs with
  | nil =>
    obtain ⟨t, hstep, hinputs⟩ := engineStep_next s
    refine ⟨t, (step_nil hl).trans hstep, ?_⟩
    rwa [State.admitted, hinputs]
  | cons move rest =>
    rw [State.admitted, hl, List.forall_mem_cons] at hadm
    obtain ⟨hmove, hrest⟩ := hadm
    cases move with
    | host a =>
      obtain ⟨t, hstep, hinputs⟩ := step_admitted hl hmove
      exact ⟨t, hstep, by rwa [State.admitted, hinputs]⟩
    | wait =>
      cases hd : s.status.done with
      | true => exact ⟨_, step_wait_done hl hd, hrest⟩
      | false =>
        obtain ⟨t, hstep, hinputs⟩ := engineStep_next s
        refine ⟨t, (step_wait_poll hl hd).trans hstep, ?_⟩
        rw [State.admitted, hinputs, hl]
        exact List.forall_mem_cons.mpr ⟨hmove, hrest⟩
    | engine =>
      obtain ⟨t, hstep, hinputs⟩ := engineStep_next { s with inputs := rest }
      exact ⟨t, (step_engine hl).trans hstep, by rwa [State.admitted, hinputs]⟩
    | reset => exact ⟨_, step_reset hl, hrest⟩

/-- Settles O16: the move ends once DONE is 1; until then the step is the engine's. -/
theorem waitEndsWithDone : Obligations.WaitEndsWithDone := by
  intro s rest h
  refine ⟨fun hd => step_wait_done h hd, fun hd hp => ?_, fun w hd hp => ?_⟩
  · rw [step_wait_poll h hd, engineStep_none hp]
  · obtain ⟨t, hstep, hinputs, -, hdone, -⟩ := completeWord_next w s
    rw [step_wait_poll h hd, engineStep_some hp]
    exact ⟨t, hstep, hinputs.trans h, hdone⟩

end Sys2Proof.Machine
end

section
/-! PROOFS. A MIC depends on its operands alone (rule R114), and O60. -/

namespace Sys2Proof.Machine

section
variable {s t : State} (hilen : t.ilen = s.ilen) (hkeyctl : t.keyctl = s.keyctl)
  (hinput : t.input s.ilen.toNat = s.input s.ilen.toNat)
include hilen hkeyctl hinput

theorem joinMic_congr (hkey : t.appKey = s.appKey) : joinMic t = joinMic s := by
  obtain ⟨h256, -⟩ | ⟨hlong, -⟩ := s.checkedLen_cases
  · cases hbit : s.keyctl.getLsbD 2 with
    | false => rw [joinMic_absent_key h256 hbit, joinMic_absent_key (hilen ▸ h256) (hkeyctl ▸ hbit)]
    | true =>
      rw [joinMic_present_key h256 hbit, joinMic_present_key (hilen ▸ h256) (hkeyctl ▸ hbit), hilen,
        hinput, hkey]
  · rw [joinMic_long hlong, joinMic_long (hilen ▸ hlong)]

theorem dataMic_congr (hkey : t.nwkSKey = s.nwkSKey) (hdir : t.dir = s.dir)
    (hdevaddr : t.devaddr = s.devaddr) (hfcnt : t.fcnt = s.fcnt) : dataMic t = dataMic s := by
  obtain hlong | hfull | h255 : 256 < s.ilen.toNat ∨ s.ilen.toNat = 256 ∨ s.ilen.toNat ≤ 255 := by
    omega
  · rw [dataMic_long hlong, dataMic_long (hilen ▸ hlong)]
  · rw [dataMic_full hfull, dataMic_full (hilen ▸ hfull)]
  · cases hbit : s.keyctl.getLsbD 0 with
    | false => rw [dataMic_absent_key h255 hbit, dataMic_absent_key (hilen ▸ h255) (hkeyctl ▸ hbit)]
    | true =>
      rw [dataMic_present_key h255 hbit, dataMic_present_key (hilen ▸ h255) (hkeyctl ▸ hbit), hilen,
        hinput, hkey, hdir, hdevaddr, hfcnt]

end

/-- Settles O60: with its operands, the whole result of a MIC is the same. -/
theorem micDependsOnItsOperandsAlone : Obligations.MicDependsOnItsOperandsAlone := by
  intro s t s' t' hilen hkeyctl hinput
  refine ⟨fun hkey hs ht herr => ?_, fun hkey hdir hdevaddr hfcnt hs ht herr => ?_⟩
  · obtain ⟨m, hm, rfl⟩ := complete_map_of_success hs herr
    have hsame := (joinMic_congr hilen hkeyctl hinput hkey).trans hm
    obtain rfl := Host.Outcome.next.inj ((exec_micJoin_ok hsame).symm.trans ht)
    exact ⟨rfl, rfl⟩
  · obtain ⟨m, hm, rfl⟩ := complete_map_of_success hs herr
    have hsame := (dataMic_congr hilen hkeyctl hinput hkey hdir hdevaddr hfcnt).trans hm
    obtain rfl := Host.Outcome.next.inj ((exec_micData_ok hsame).symm.trans ht)
    exact ⟨rfl, rfl⟩

end Sys2Proof.Machine
end

section
/-! PROOFS. The words of the window as the host reads and writes them (rules R12 to R42): O19, O20,
O21, O22, O23 and O26. -/

namespace Sys2Proof.Machine

/-- Settles O26: the offset of each name lies in its register's range. -/
theorem registerNamesMeetTheirRegisters : Obligations.RegisterNamesMeetTheirRegisters := by
  refine ⟨rfl, fun k j hj => windowReg_key hj, fun j hj => ⟨?ibuf, ?obuf⟩,
    fun j k hj hk => ⟨?cid, ?slot⟩⟩
  case ibuf =>
    exact windowReg_ibuf (Nat.le_add_right _ _) (by rw [RegName.offset, Config.ibufBase]; omega)
  case obuf =>
    exact windowReg_obuf (Nat.le_add_right _ _) (by rw [RegName.offset, Config.obufBase]; omega)
  case cid =>
    rw [RegName.offset, clistAddr_eq]
    exact windowReg_clistCid (by omega) (by omega) (by omega)
  case slot =>
    have hoff : (RegName.clistSlot j k).offset = 0x404 + 0x20 * j + 4 * k := by
      rw [RegName.offset, clistAddr_eq]
      omega
    rw [hoff]
    exact windowReg_clistSlot (by omega) (by omega) (by omega) (by omega)

/-! ## Words without an effect or a value (rules R25, R36) -/

theorem windowReg_key_of_range {off : Nat} (hlow : 0x040 ≤ off) (hhigh : off < 0x070) :
    ∃ k j, windowReg off = .key k j := by
  rw [windowReg_of_ge (by omega)]
  split_ifs
  · exact ⟨_, _, rfl⟩
  · exact ⟨_, _, rfl⟩
  · exact ⟨_, _, rfl⟩
  all_goals omega

/-- What the host reads does not depend on the schedule. -/
theorem State.readReg_withInputs (s : State) (l : List Input) (r : WindowReg) :
    { s with inputs := l }.readReg r = s.readReg r := by
  cases r <;> rfl

/-- A read that returns `d`. -/
theorem step_read_eq {s : State} {off : Nat} {rest : List Input} {d : Word}
    (h : s.inputs = .host ⟨off, .word, .read⟩ :: rest) (h4 : off % 4 = 0) (h8 : off < 0x800)
    (hd : s.readReg (windowReg off) = d) :
    step s = .next { s with inputs := rest, busData := some d, draws := s.draws + 1 } := by
  rw [step_read h h4 h8, State.hostRead, State.readReg_withInputs, hd]

/-- Settles O19: the words without a value read 0, a register's word has no bit above its own, and
the words without an effect are neither guarded nor STATUS. -/
theorem reservedAndReadOnlyWords : Obligations.ReservedAndReadOnlyWords := by
  refine ⟨fun s off rest h4 h hoff => ?_, fun s off n rest hoff h => ?_,
    fun s off v rest h4 h hoff => ?_⟩
  · obtain hreserved | ⟨hlow, hhigh⟩ := hoff
    · have h8 : off < 0x800 := by
        rw [reservedOffset] at hreserved
        omega
      refine step_read_eq h h4 h8 ?_
      rw [windowReg_reserved hreserved]
      rfl
    · obtain ⟨k, j, hkey⟩ := windowReg_key_of_range hlow hhigh
      refine step_read_eq h h4 (by omega) ?_
      rw [hkey]
      rfl
  · simp only [List.mem_cons, List.not_mem_nil, or_false, Prod.mk.injEq] at hoff
    obtain ⟨rfl, rfl⟩ | ⟨rfl, rfl⟩ | ⟨rfl, rfl⟩ | ⟨rfl, rfl⟩ | ⟨rfl, rfl⟩ | ⟨rfl, rfl⟩ | ⟨rfl, rfl⟩
      | ⟨rfl, rfl⟩ | ⟨rfl, rfl⟩ := hoff
    all_goals exact ⟨_, toNat_setWidth_lt _, step_read_eq h rfl (by decide) rfl⟩
  · have hg : (windowReg off).guarded = false := by
      rw [← Bool.not_eq_true, windowReg_guarded_iff h4, guardedOffset]
      simp only [List.mem_cons, List.not_mem_nil, or_false]
      rw [reservedOffset] at hoff
      omega
    have hr : windowReg off ≠ .status := by
      rw [ne_eq, windowReg_eq_status_iff]
      rw [reservedOffset] at hoff
      omega
    have h8 : off < 0x800 := by
      rw [reservedOffset] at hoff
      omega
    rw [step_write_accepted h h4 h8 (.inr hg), State.writeReg_of_not_guarded _ v hg hr]

/-! ## Register writes (rules R12 to R23) -/

theorem ofNat_mod_eq_setWidth {n m : Nat} (v : Word) (h : m = 2 ^ n) :
    BitVec.ofNat n (v.toNat % m) = v.setWidth n := by
  apply BitVec.eq_of_toNat_eq
  rw [BitVec.toNat_ofNat, BitVec.toNat_setWidth, h, Nat.mod_mod]

/-- FCTRL after a host write: FOPTSLEN is read-only (rule R16). -/
theorem flagsOf_append_foptsLenOf (v : Word) (b : Byte) :
    flagsOf (v.setWidth 8) ++ foptsLenOf b
      = BitVec.ofNat 8 (v.toNat / 16 % 16 * 16 + b.toNat % 16) := by
  apply BitVec.eq_of_toNat_eq
  rw [toNat_append_eq, flagsOf, toNat_field, toNat_foptsLenOf, BitVec.toNat_setWidth,
    BitVec.toNat_ofNat]
  omega

/-- Settles O20: each register takes the low bits of the value. -/
theorem registerWritesStoreTheirBits : Obligations.RegisterWritesStoreTheirBits := by
  intro s off v rest hp h
  refine ⟨?ilen, ?mhdr, ?devaddr, ?fctrl, ?fcnt, ?fport, ?dir, ?micIn, ?ccount, ?keyctl⟩
  all_goals rintro rfl
  case fctrl =>
    rw [← flagsOf_append_foptsLenOf]
    exact step_write_accepted h rfl (by decide) (.inl hp)
  case devaddr | micIn => exact step_write_accepted h rfl (by decide) (.inl hp)
  all_goals
    rw [ofNat_mod_eq_setWidth v]
    · exact step_write_accepted h rfl (by decide) (.inl hp)
    · rfl

/-! ## Key writes (rules R24, R25) -/

/-- Word `j` of a key. -/
def KeyWords.word (k : KeyWords) : Nat → Word
  | 0 => k.w0
  | 1 => k.w1
  | 2 => k.w2
  | _ => k.w3

theorem KeyWords.bytes_getElem? (k : KeyWords) {i : Nat} (h : i < 16) :
    k.bytes[i]? = some (leByte (k.word (i / 4)) (i % 4)) := by
  interval_cases i <;> rfl

theorem KeyWords.word_setWord (k : KeyWords) {i j : Nat} (v : Word) (hi : i < 4) (hj : j < 4) :
    (k.setWord j v).word i = if i = j then v else k.word i := by
  interval_cases i <;> interval_cases j <;> rfl

/-- The four bytes of a written word, and the twelve others. -/
theorem KeyWords.bytes_setWord_getElem? (k : KeyWords) {i j : Nat} (v : Word) (hi : i < 16)
    (hj : j < 4) :
    (k.setWord j v).bytes[i]? =
      if 4 * j ≤ i ∧ i < 4 * j + 4 then some (BitVec.ofNat 8 (v.toNat / 256 ^ (i - 4 * j)))
      else k.bytes[i]? := by
  rw [KeyWords.bytes_getElem? _ hi, KeyWords.bytes_getElem? _ hi,
    KeyWords.word_setWord k v (by omega) hj]
  by_cases hword : i / 4 = j
  · rw [if_pos hword, if_pos (by omega), leByte_eq, show i - 4 * j = i % 4 by omega]
  · rw [if_neg hword, if_neg (by omega)]

theorem State.keyWords_writeKeyWord (s : State) (k k' : KeyId) (j : Nat) (v : Word) :
    (s.writeKeyWord k j v).keyWords k'
      = if k' = k then (s.keyWords k).setWord j v else s.keyWords k' := by
  cases k <;> cases k' <;> rfl

/-- A key write changes nothing but key words. -/
theorem State.writeKeyWord_eq (s : State) (k : KeyId) (j : Nat) (v : Word) :
    s.writeKeyWord k j v = { s with
      nwkSKey := (s.writeKeyWord k j v).nwkSKey
      appSKey := (s.writeKeyWord k j v).appSKey
      appKey := (s.writeKeyWord k j v).appKey } := by
  cases k <;> rfl

/-- Settles O21: the offset names word `j` of the key, and a word is four of the key's bytes. -/
theorem keyWordWritesReplaceFourBytes : Obligations.KeyWordWritesReplaceFourBytes := by
  intro s k base j v rest hp hj hmem h
  have hbase : base = k.base := by
    simp only [List.mem_cons, List.not_mem_nil, or_false, Prod.mk.injEq] at hmem
    obtain ⟨rfl, rfl⟩ | ⟨rfl, rfl⟩ | ⟨rfl, rfl⟩ := hmem <;> rfl
  subst hbase
  have hrange : k.base + 4 * j < 0x800 ∧ (k.base + 4 * j) % 4 = 0 := by
    cases k <;> simp only [KeyId.base] <;> omega
  have hstep := step_write_accepted h hrange.2 hrange.1 (.inl hp)
  rw [windowReg_key hj] at hstep
  have hwords := fun k' => State.keyWords_writeKeyWord { s with inputs := rest } k k' j v
  refine ⟨_, hstep, State.writeKeyWord_eq _ k j v, fun k' hk' => ?_, fun i hi => ?_⟩
  · exact (hwords k').trans (if_neg hk')
  · have hkey := (hwords k).trans (if_pos rfl)
    refine (congrArg (fun w : KeyWords => w.bytes[i]?) hkey).trans ?_
    exact KeyWords.bytes_setWord_getElem? (s.keyWords k) v hi hj

/-! ## Buffer words (rules R28, R30, R41, R42) -/

/-- Byte `k` of a word read from a sequence: `LE32` takes four bytes in order (rule R3). -/
theorem leByte_readLE32 (b : Bytes) (o : Nat) {k : Nat} (hk : k < 4) :
    leByte (readLE32 b o) k = byteAt b (o + k) := by
  apply BitVec.eq_of_toNat_eq
  rw [toNat_leByte, toNat_readLE32]
  interval_cases k
  · change _ = (byteAt b o).toNat
    rw [Nat.pow_zero, Nat.div_one]
    omega
  all_goals omega

/-- The lanes of a bus word are the bytes from its offset on (rule R41). -/
theorem State.readWord_eq_readLE32 (s : State) (a : Nat) :
    s.readWord a = readLE32 (s.readBytes a 4) 0 := rfl

/-- A word whose bytes are those of `v` reads as `v`. -/
theorem State.readWord_of_holds {s : State} {a : Nat} {v : Word}
    (h : Memory.holds s.mem a (le32 v)) : s.readWord a = v := by
  have hbytes : s.readBytes a 4 = le32 v := State.readBytes_of_holds h
  rw [State.readWord_eq_readLE32, hbytes, readLE32_le32]

theorem Memory.read_writeBytes_le32 (m : Memory) (a : Nat) (v : Word) {b : Nat} (hb : b < 4) :
    Memory.read (m.writeBytes a (le32 v)) (a + b) = some (BitVec.ofNat 8 (v.toNat / 256 ^ b)) := by
  rw [Memory.read_writeBytes_inside m a b (le32 v) hb, getElem?_eq_byteAt (b := le32 v) hb,
    byteAt_le32 v hb, leByte_eq]

theorem bufferWordReadsBack {s : State} {off : Nat} {v : Word} {rest : List Input}
    (hp : s.pend = none) (h4 : off % 4 = 0) (h8 : off < 0x800)
    (h : s.inputs = .host ⟨off, .word, .write v⟩ :: .host ⟨off, .word, .read⟩ :: rest)
    (hreg : windowReg off = .ibuf off ∨ windowReg off = .clistSlot off) :
    ∃ t u, step s = .next t
      ∧ t = { s with inputs := .host ⟨off, .word, .read⟩ :: rest, mem := t.mem }
      ∧ (∀ b, b < 4 → Memory.read t.mem (off + b) = some (BitVec.ofNat 8 (v.toNat / 256 ^ b)))
      ∧ Memory.sameOutside s.mem t.mem off 4
      ∧ step t = .next u ∧ u.busData = some v := by
  have hwrite := step_write_accepted h h4 h8 (.inl hp)
  obtain hreg | hreg := hreg
  all_goals
    rw [hreg] at hwrite
    refine ⟨_, _, hwrite, rfl, fun b hb => Memory.read_writeBytes_le32 s.mem off v hb,
      Memory.sameOutside_writeBytes s.mem off (le32 v), step_read_eq rfl h4 h8 ?_, rfl⟩
    rw [hreg]
    exact State.readWord_of_holds (Memory.holds_writeBytes s.mem off (le32 v))

/-- Settles O22: what the write stored, the read finds. -/
theorem bufferWordsReadBack : Obligations.BufferWordsReadBack := by
  intro s off v rest hp h4 h
  refine ⟨fun hoff => ?_, fun hlow hhigh hcid => ?_⟩
  · obtain ⟨hlow, hhigh⟩ | ⟨hlow, hhigh, hslot, hslot'⟩ := hoff
    · exact bufferWordReadsBack hp h4 (by omega) h (.inl (windowReg_ibuf hlow hhigh))
    · exact bufferWordReadsBack hp h4 (by omega) h
        (.inr (windowReg_clistSlot hlow hhigh hslot hslot'))
  · have hreg := windowReg_clistCid hlow hhigh hcid
    have hwrite := step_write_accepted h h4 (by omega) (.inl hp)
    have hread := Memory.read_write_same s.mem off (v.setWidth 8)
    rw [hreg] at hwrite
    refine ⟨_, _, hwrite, rfl, ?_, Memory.sameOutside_writeBytes s.mem off [v.setWidth 8],
      step_read_eq rfl h4 (by omega) ?_, rfl⟩
    · exact hread.trans (congrArg some (BitVec.ofNat_toNat 8 v).symm)
    · rw [hreg]
      refine (congrArg (BitVec.setWidth 32) (State.readByte_of_read hread)).trans ?_
      rw [← BitVec.ofNat_toNat, BitVec.toNat_setWidth]

/-! ## Reads (rules R37, R137) -/

/-- Byte `b` of a word that the host reads. -/
theorem toNat_readWord_byte (s : State) (a : Nat) {b : Nat} (hb : b < 4) :
    (s.readWord a).toNat / 256 ^ b % 256 = (s.readByte (a + b)).toNat := by
  have hbyte := s.readBytes_getElem? a 4 b hb
  rw [getElem?_eq_byteAt (by rwa [State.readBytes_length]), Option.some.injEq] at hbyte
  rw [← toNat_leByte, State.readWord_eq_readLE32, leByte_readLE32 _ 0 hb, Nat.zero_add, hbyte]

theorem readReg_bufferWord (s : State) {off : Nat}
    (h : (0x100 ≤ off ∧ off < 0x300)
      ∨ (0x400 ≤ off ∧ off < 0x5E0 ∧ 4 ≤ off % 0x20 ∧ off % 0x20 < 0x18)) :
    s.readReg (windowReg off) = s.readWord off := by
  obtain ⟨hlow, hhigh⟩ | ⟨hlow, hhigh, hslot, hslot'⟩ := h
  · rcases Nat.lt_or_ge off 0x200 with hin | hout
    · rw [windowReg_ibuf hlow hin]
      rfl
    · rw [windowReg_obuf hout hhigh]
      rfl
  · rw [windowReg_clistSlot hlow hhigh hslot hslot']
    rfl

/-- Settles O23: the word is what `readReg` finds at the offset, register by register and byte by
byte. -/
theorem hostReadsReturnTheCurrentValue : Obligations.HostReadsReturnTheCurrentValue := by
  intro s off rest h4 h8 h
  refine ⟨_, step_read_eq h h4 h8 rfl, ?cmd, ?status, ?ilen, ?olen, ?mhdr, ?devaddr, ?fctrl, ?fcnt,
    ?fport, ?dir, ?mic, ?micIn, ?ccount, ?keyctl, fun b v hb hoff hv => ?byte,
    fun hlow hhigh hcid => ?cid⟩
  case byte =>
    rw [readReg_bufferWord s hoff, toNat_readWord_byte s off hb, State.readByte_of_read hv]
  case cid =>
    rw [windowReg_clistCid hlow hhigh hcid]
    refine ⟨toNat_setWidth_lt _, fun v hv => ?_⟩
    rw [State.readReg, State.readByte_of_read hv, BitVec.toNat_setWidth_of_le (by decide)]
  all_goals rintro rfl
  case cmd | status | devaddr | mic | micIn => rfl
  all_goals exact BitVec.toNat_setWidth_of_le (by decide)

end Sys2Proof.Machine
end

section
/-! PROOFS. Two states that differ only in their keys go on alike (rules R25, R129): O24. -/

namespace Sys2Proof.Machine

/-- `s` with other keys. -/
def State.withKeys (s : State) (nwk apps app : KeyWords) : State :=
  { s with nwkSKey := nwk, appSKey := apps, appKey := app }

theorem State.exists_withKeys {s t : State} (h : s.sameButKeys t) :
    ∃ nwk apps app, t = s.withKeys nwk apps app :=
  ⟨t.nwkSKey, t.appSKey, t.appKey, h⟩

section
variable (s : State) (nwk apps app : KeyWords)

/-! ## The host's accesses -/

/-- The word that the host reads is the same: a key word reads 0 (rule R25). -/
theorem State.hostRead_withKeys (r : WindowReg) :
    (s.withKeys nwk apps app).hostRead r = (s.hostRead r).withKeys nwk apps app := by
  cases r <;> rfl

theorem State.writeReg_withKeys (r : WindowReg) (v : Word) :
    (s.writeReg r v).sameButKeys ((s.withKeys nwk apps app).writeReg r v) := by
  cases r with
  | key k j => cases k <;> rfl
  | _ => rfl

theorem State.hostWrite_withKeys (r : WindowReg) (v : Word) :
    (s.hostWrite r v).sameButKeys ((s.withKeys nwk apps app).hostWrite r v) := by
  have hbusy : (s.withKeys nwk apps app).busy = s.busy := rfl
  rw [State.hostWrite, State.hostWrite, hbusy]
  split
  · rfl
  · exact s.writeReg_withKeys nwk apps app r v

/-- A host access is refused in both states or answered in both (rule R35). -/
theorem hostAccess_withKeys (a : Access) :
    (hostAccess a s = .refused .busError
        ∧ hostAccess a (s.withKeys nwk apps app) = .refused .busError)
      ∨ ∃ s' t', hostAccess a s = .next s'
        ∧ hostAccess a (s.withKeys nwk apps app) = .next t' ∧ s'.sameButKeys t' := by
  unfold hostAccess
  split
  · right
    split
    · exact ⟨_, _, rfl, rfl, s.hostRead_withKeys nwk apps app _⟩
    · exact ⟨_, _, rfl, rfl, s.hostWrite_withKeys nwk apps app _ _⟩
  · exact .inl ⟨rfl, rfl⟩

/-! ## The operations that read no key -/

/-- An operation whose checks give the same result, and whose commits differ only in the keys. -/
theorem complete_map_withKeys {α : Type} {f g : α → State} (opc : BitVec 8)
    (r : Except ErrKind α) (hcommit : ∀ x, g x = (f x).withKeys nwk apps app) :
    ∃ s' t', complete opc s (r.map f) = .next s'
      ∧ complete opc (s.withKeys nwk apps app) (r.map g) = .next t' ∧ s'.sameButKeys t' := by
  cases r with
  | ok x =>
    refine ⟨_, _, complete_map_ok opc s f rfl, complete_map_ok opc _ g rfl, ?_⟩
    rw [hcommit x]
    rfl
  | error k => exact ⟨_, _, complete_map_error opc s f rfl, complete_map_error opc _ g rfl, rfl⟩

theorem exec_withKeys {i : Instr} (hi : keyless i = true) :
    ∃ s' t', exec i s = .next s' ∧ exec i (s.withKeys nwk apps app) = .next t'
      ∧ s'.sameButKeys t' := by
  cases i with
  | nop => exact ⟨_, _, exec_nop _, exec_nop _, rfl⟩
  | copy => exact ⟨_, _, exec_copy _, exec_copy _, rfl⟩
  | mhdrEnc => exact ⟨_, _, exec_mhdrEnc _, exec_mhdrEnc _, rfl⟩
  | mhdrDec => exact complete_map_withKeys s nwk apps app 0x01 (mhdrDecByte s) fun _ => rfl
  | frameDec => exact complete_map_withKeys s nwk apps app 0x03 (frameDecFrame s) fun _ => rfl
  | frameEnc => exact complete_map_withKeys s nwk apps app 0x04 (frameEncBytes s) fun _ => rfl
  | cmdDec => exact complete_map_withKeys s nwk apps app 0x10 (cmdDecList s) fun _ => rfl
  | cmdEnc => exact complete_map_withKeys s nwk apps app 0x11 (cmdEncBytes s) fun _ => rfl
  | _ => cases hi

end

/-- Settles O24: a key leaves the block by no read and no keyless operation, and a reset clears
it. -/
theorem keysLeaveOnlyThroughTheirOperations : Obligations.KeysLeaveOnlyThroughTheirOperations := by
  intro s t h
  obtain ⟨nwk, apps, app, rfl⟩ := State.exists_withKeys h
  refine ⟨fun i rest hl hengine hwait => ?_, fun i => exec_withKeys s nwk apps app⟩
  have hl' : (s.withKeys nwk apps app).inputs = i :: rest := hl
  cases i with
  | host a =>
    rw [step_cons hl, step_cons hl']
    exact hostAccess_withKeys { s with inputs := rest } nwk apps app a
  | wait =>
    have hdone := hwait rfl
    exact .inr ⟨_, _, step_wait_done hl hdone, step_wait_done hl' hdone,
      State.hostRead_withKeys { s with inputs := rest } nwk apps app .status⟩
  | engine => exact absurd rfl hengine
  | reset => exact .inr ⟨_, _, step_reset hl, step_reset hl', rfl⟩

end Sys2Proof.Machine
end

section
/-! PROOFS. The accesses of a WRBUF line (rule R54): O27. -/

namespace Sys2Proof.Machine

/-- The writes of the words `f j, f (j+1), ...` to the IBUF words `j, j+1, ...`. -/
def ibufWrites (f : Nat → Word) (j n : Nat) : List Input :=
  (List.range' j n).map fun i => hostWr (.ibuf (4 * i)) (f i)

/-- The bytes that these writes store. -/
def ibufBytes (f : Nat → Word) (j n : Nat) : Bytes := (List.range' j n).flatMap fun i => le32 (f i)

theorem ibufWrites_succ (f : Nat → Word) (j n : Nat) :
    ibufWrites f j (n + 1) = hostWr (.ibuf (4 * j)) (f j) :: ibufWrites f (j + 1) n := by
  rw [ibufWrites, List.range'_succ, List.map_cons, ibufWrites]

theorem ibufBytes_succ (f : Nat → Word) (j n : Nat) :
    ibufBytes f j (n + 1) = le32 (f j) ++ ibufBytes f (j + 1) n := by
  rw [ibufBytes, List.range'_succ, List.flatMap_cons, ibufBytes]

theorem ibufBytes_length (f : Nat → Word) (j n : Nat) : (ibufBytes f j n).length = 4 * n := by
  induction n generalizing j with
  | zero => rfl
  | succ n ih =>
    rw [ibufBytes_succ, List.length_append, le32_length, ih]
    omega

theorem ibufBytes_getElem? (f : Nat → Word) {n j i : Nat} (h : i < 4 * n) :
    (ibufBytes f j n)[i]? = some (leByte (f (j + i / 4)) (i % 4)) := by
  induction n generalizing j i with
  | zero => omega
  | succ n ih =>
    rw [ibufBytes_succ]
    by_cases hi : i < 4
    · rw [List.getElem?_append_left hi, getElem?_eq_byteAt (b := le32 (f j)) hi,
        byteAt_le32 (f j) hi, Nat.div_eq_of_lt hi, Nat.mod_eq_of_lt hi, Nat.add_zero]
    · rw [List.getElem?_append_right (Nat.not_lt.mp hi), le32_length, ih (by omega),
        show j + 1 + (i - 4) / 4 = j + i / 4 by omega, show (i - 4) % 4 = i % 4 by omega]

/-- While BUSY = 0 the writes store their bytes, one word after the other. -/
theorem run_ibufWrites (f : Nat → Word) (rest : List Input) {n j : Nat} {s : State}
    (hp : s.pend = none) (hfit : 4 * (j + n) ≤ 256) (h : s.inputs = ibufWrites f j n ++ rest) :
    Host.Core.run Sys2Proof.core n s = .next { s with
      inputs := rest, mem := s.mem.writeBytes (0x100 + 4 * j) (ibufBytes f j n) } := by
  induction n generalizing j s with
  | zero =>
    obtain rfl : s.inputs = rest := h
    rfl
  | succ n ih =>
    rw [ibufWrites_succ, List.cons_append] at h
    have hstep := step_write_accepted (off := 0x100 + 4 * j) h (by omega) (by omega) (.inl hp)
    rw [windowReg_ibuf (Nat.le_add_right _ _) (by omega)] at hstep
    rw [ibufBytes_succ, Memory.writeBytes_append]
    exact (run_step n hstep).trans (ih (j := j + 1) hp (by omega) rfl)

/-! ## The bytes of a WRBUF line -/

theorem byteAt_of_ge {b : Bytes} {i : Nat} (h : b.length ≤ i) : byteAt b i = 0 := by
  simp [byteAt, h]

/-- The words of a line are its bytes, padded with zeros (rule R54). -/
theorem ibufBytes_readLE32_getElem? (b : Bytes) {n i : Nat} (h : i < 4 * n) :
    (ibufBytes (fun j => readLE32 b (4 * j)) 0 n)[i]? = some (byteAt b i) := by
  rw [ibufBytes_getElem? _ h, leByte_readLE32 b _ (Nat.mod_lt i (by decide)), Nat.zero_add,
    Nat.div_add_mod]

theorem expand_wrbuf (b : Bytes) :
    (HostLine.wrbuf b).expand = ibufWrites (fun j => readLE32 b (4 * j)) 0 ((b.length + 3) / 4) := by
  rw [ibufWrites, ← List.range_eq_range', HostLine.expand]

/-- Settles O27: the line is that many writes of its words, one after the other. -/
theorem wrbufStoresItsBytes : Obligations.WrbufStoresItsBytes := by
  intro s b rest hp hfit h
  rw [expand_wrbuf] at h
  have hlen := ibufBytes_length (fun j => readLE32 b (4 * j)) 0 ((b.length + 3) / 4)
  have hread := fun i (hi : i < 4 * ((b.length + 3) / 4)) =>
    (Memory.read_writeBytes_inside s.mem 0x100 i _ (hi.trans_eq hlen.symm)).trans
      (ibufBytes_readLE32_getElem? b hi)
  refine ⟨_, run_ibufWrites _ rest hp (by omega) h, rfl, fun i hi => ?_, fun i hi hi' => ?_, ?_⟩
  · rw [getElem?_eq_byteAt hi]
    exact hread i (by omega)
  · rw [← byteAt_of_ge hi]
    exact hread i (by omega)
  · exact Memory.sameOutside_writeBytes_of_length s.mem 0x100 (hlen.trans (Nat.mul_comm _ _))

end Sys2Proof.Machine
end
